-- ==== Sys2Proof/Word.lean ====
section
/-! DEFINITION. The word types of the block (00_scope.md R10: a byte is 8 bits, every value is unsigned). -/

namespace Sys2Proof

/-- `u8`, one byte of a datagram or of a command (R10). -/
abbrev Byte := BitVec 8

/-- `u16`: the header's `count`, `mtu_limit` and the length operand of DECODE (R10). -/
abbrev Word16 := BitVec 16

/-- `u32`: a Frame's `id` and every event counter (R10). -/
abbrev Word32 := BitVec 32

end Sys2Proof
end

