-- ==== Sys2Proof/Syntax.lean ====
section
/-! DEFINITION. The values the operations take (Frame, header, configuration), the status codes, and `Instr`, one
constructor per row of spec/opcode_table.json. -/

namespace Sys2Proof

/-- The two queues of a bridge (10_state.md R27; the `q` bit of 30_encoding.md R85: 0 is RXQ, 1 is TXQ). -/
inductive QueueId where
  | rxq
  | txq
deriving DecidableEq, Repr, Inhabited

/-- Which of the two concurrency disciplines the platform keeps (20_memory.md R59). -/
inductive Discipline where
  | cooperative
  | interruptShared
deriving DecidableEq, Repr, Inhabited

/-- The status codes 0 to 9, in the order of their codes (60_exceptions.md R200). -/
inductive Status where
  | ok
  | full
  | empty
  | malformed
  | versionMismatch
  | unsupportedOpCode
  | truncated
  | allocationFailure
  | badFrame
  | illegalCommand
deriving DecidableEq, Repr, Inhabited

/-- One CAN or CAN-FD message with its four fields (10_state.md R20). -/
structure Frame where
  id : Word32
  length : Byte
  fdFlags : Byte
  data : Vector Byte 64
deriving DecidableEq, Repr, Inhabited

/-- The significant fields of a Frame, and nothing else (10_state.md R22): `id` and `length` always, `flags` where the
FD marker is set, `payload` where the frame is no RTR frame. Two Frames are `sig_eq` exactly where these agree, so this
is what a slot is known to hold and what a wire record carries (log 5). -/
structure SigFrame where
  id : Word32
  length : Byte
  flags : Option Byte
  payload : List Byte
deriving DecidableEq, Repr, Inhabited

/-- The four values of a datagram header (10_state.md R23; 30_encoding.md R70). -/
structure Header where
  version : Byte
  opCode : Byte
  seq : Byte
  count : Word16
deriving DecidableEq, Repr, Inhabited

/-- The 15-byte configuration operand of INIT (30_encoding.md R85; 00_scope.md R7). -/
structure InitOperand where
  nRx : Word32
  nTx : Word32
  mtuLimit : Word16
  version : Byte
  rtrBit : Fin 32
  discipline : Discipline
  busAttached : Bool
deriving DecidableEq, Repr, Inhabited

/-- The rows of spec/opcode_table.json. -/
inductive Instr where
  /-- `HDR.DATA`: a header with `op_code` 0 (30_encoding.md R76). -/
  | hdrData (version seq : Byte) (count : Word16)
  /-- `HDR.ACK`: a header with `op_code` 1 (R76). -/
  | hdrAck (version seq : Byte) (count : Word16)
  /-- `HDR.NACK`: a header with `op_code` 2 (R76). -/
  | hdrNack (version seq : Byte) (count : Word16)
  /-- `HDR.RESERVED`: a header with `op_code` 3 to 255 (R76). -/
  | hdrReserved (opCode version seq : Byte) (count : Word16)
  /-- `REC.CLASSIC.DATA`: FD marker clear, RTR bit clear (30_encoding.md R73); `eff` is `length[6:0]`. -/
  | recClassicData (id : Word32) (eff : BitVec 7) (data : List Byte)
  /-- `REC.CLASSIC.RTR`: FD marker clear, RTR bit set (R73). -/
  | recClassicRtr (id : Word32) (eff : BitVec 7)
  /-- `REC.FD.DATA`: FD marker set, RTR bit clear (R73). -/
  | recFdData (id : Word32) (eff : BitVec 7) (flags : Byte) (data : List Byte)
  /-- `REC.FD.RTR`: FD marker set, RTR bit set (R73). -/
  | recFdRtr (id : Word32) (eff : BitVec 7) (flags : Byte)
  /-- `ENQ Q, f` (41_queue.md R111). -/
  | enq (q : QueueId) (f : Frame)
  /-- `DEQ Q` (R113). -/
  | deq (q : QueueId)
  /-- `PEEK Q` (R114). -/
  | peek (q : QueueId)
  /-- `STAT Q` (R115). -/
  | stat (q : QueueId)
  /-- `ENCODE Q, mtu_limit` (42_encode.md R133). -/
  | encode (q : QueueId) (mtuLimit : Word16)
  /-- `DECODE Q, L, IN` (43_decode.md R151); `L` is the length of `input`. -/
  | decode (q : QueueId) (input : List Byte)
  /-- `TXSTEP` (44_scheduler.md R186). -/
  | txstep
  /-- `RXSTEP` (R187). -/
  | rxstep
  /-- `FLUSH` (R188). -/
  | flush
  /-- `TICK` (R189). -/
  | tick
  /-- `RDCNT k`, `k` from 0 to 6 (R195). -/
  | rdcnt (k : Fin 7)
  /-- `INIT config` (70_reset_and_hazards.md R230). -/
  | init (c : InitOperand)
  /-- A reserved command word with `op = 0x0`; `x` is its low four bits (30_encoding.md R86). -/
  | reservedOp0 (x : BitVec 4)
  /-- A reserved command word with `op = 0xC` (R86). -/
  | reservedOpC (x : BitVec 4)
  /-- A reserved command word with `op = 0xD` (R86). -/
  | reservedOpD (x : BitVec 4)
  /-- A reserved command word with `op = 0xE` (R86). -/
  | reservedOpE (x : BitVec 4)
  /-- The reserved command word `RDCNT` with `k = 7` (R86). -/
  | reservedRdcnt7
  /-- `EFFLEN(f)` (40_frame.md R100). -/
  | efflen (f : Frame)
  /-- `ISFD(f)` (R101). -/
  | isfd (f : Frame)
  /-- `ISRTR(f)` (R102). -/
  | isrtr (f : Frame)
  /-- `WIRESIZE(f)` (R104). -/
  | wiresize (f : Frame)
  /-- `RECORD(f)` (R105). -/
  | record (f : Frame)
deriving DecidableEq, Repr

end Sys2Proof
end

