-- ==== Sys2Proof/Config.lean ====
section
/-! DEFINITION. The constants of 00_scope.md R7 and the free values: constants without a body, of which no proof can know
anything (93_implementation_defined.md, treatments "any value" and "draw"). -/

namespace Sys2Proof.Config

/-- `DATA_CAP`: bytes in a Frame's data array (R7). -/
def dataCap : Nat := 64

/-- `CLASSIC_MAX`: the largest classic CAN payload; no check reads it (R7, decision D10; 30_encoding.md R78). -/
def classicMax : Nat := 8

/-- `HDR_SIZE`: bytes of the datagram header (R7). -/
def hdrSize : Nat := 5

/-- `REC_BASE`: bytes of a record's fixed base (R7). -/
def recBase : Nat := 5

/-- `REC_MAX`: the largest record (R7). -/
def recMax : Nat := 70

/-- `MAX_DGRAM`: the largest DECODE input (R7, decision D23). -/
def maxDgram : Nat := 65535

/-- `OP_DATA`: the `op_code` of a data datagram (R7, R76). -/
def opData : Byte := 0

/-- `OP_ACK` (PRESUMED, log 20: the spec takes the number 1 from general knowledge; no rule depends on it, R76). -/
def opAck : Byte := 1

/-- `OP_NACK` (PRESUMED, log 20: the spec takes the number 2 from general knowledge; no rule depends on it, R76). -/
def opNack : Byte := 2

/-- The default of `VERSION` (PRESUMED, log 2: the spec takes 2 from general knowledge, R7). -/
def defaultVersion : Byte := 2

/-- The default of `RTR_BIT` (PRESUMED, log 2: the spec takes 30 from general knowledge, R7). -/
def defaultRtrBit : Fin 32 := 30

/-- `EFF_BIT`: the place of the EFF flag in `id` (PRESUMED, log 20: the spec takes 31 from general knowledge; no rule reads
it, R7; 30_encoding.md R78). -/
def effBit : Fin 32 := 31

/-- `ERR_BIT`: the place of the ERR flag in `id` (PRESUMED, log 20: the spec takes 29 from general knowledge; no rule reads
it, R7; 30_encoding.md R78). -/
def errBit : Fin 32 := 29

/-- The least `MTU_LIMIT` with which every well-formed frame can be flushed (R7, 70_reset_and_hazards.md R243). -/
def minLiveMtu : Nat := 75

/-- A Frame of which nothing is known: what a read supplies for the fields that are not significant, and the Frame
result of an `Empty` answer (10_state.md R22; 41_queue.md R113; log 6). -/
opaque freeFrame : Nat → Frame

/-- What the caller-supplied storage holds in slot `i` before anything is written there (10_state.md R37; log 25). -/
opaque callerSlot : Nat → Frame

/-- The answer of the bus transmit port where nothing is scripted (44_scheduler.md R183; log 7). -/
opaque freeAccepted : Nat → Bool

/-- The frames of the bus receive port where nothing is scripted (44_scheduler.md R184; log 7). -/
opaque freeBusFrames : Nat → List Frame

/-- The answer on buffer availability where nothing is scripted (44_scheduler.md R185; log 7). -/
opaque freeBufAvail : Nat → Bool

/-- The byte string of `RECORD` for a Frame outside its operand's type (40_frame.md R105; log 14). -/
opaque freeBytes : Nat → List Byte

end Sys2Proof.Config
end

