-- ==== Sys2Proof/WellFormed.lean ====
section
/-! DEFINITION. Which instruction terms an encoding can spell. The four record rows depend on the parameter `RTR_BIT`
(30_encoding.md R73), so the check takes it as an argument. -/

namespace Sys2Proof

/-- The terms that some bytes decode to. Commands and accessors take every operand their type admits, but for DECODE,
whose length operand has 16 bits (43_decode.md R150). -/
def WellFormed (rtr : Fin 32) : Instr → Bool
  | .hdrData _ _ _ => true
  | .hdrAck _ _ _ => true
  | .hdrNack _ _ _ => true
  -- R76: 0, 1 and 2 are the rows above
  | .hdrReserved op _ _ _ => decide (3 ≤ op.toNat)
  -- R73, R156: the RTR bit says which row it is, `eff` bytes of data follow, at most 64
  | .recClassicData id eff data => !id.getLsbD rtr && decide (eff.toNat ≤ 64) && data.length == eff.toNat
  | .recClassicRtr id eff => id.getLsbD rtr && decide (eff.toNat ≤ 64)
  | .recFdData id eff _ data => !id.getLsbD rtr && decide (eff.toNat ≤ 64) && data.length == eff.toNat
  | .recFdRtr id eff _ => id.getLsbD rtr && decide (eff.toNat ≤ 64)
  | .enq _ _ => true
  | .deq _ => true
  | .peek _ => true
  | .stat _ => true
  | .encode _ _ => true
  | .decode _ input => decide (input.length ≤ 65535)
  | .txstep => true
  | .rxstep => true
  | .flush => true
  | .tick => true
  | .rdcnt _ => true
  | .init _ => true
  | .reservedOp0 _ => true
  | .reservedOpC _ => true
  | .reservedOpD _ => true
  | .reservedOpE _ => true
  | .reservedRdcnt7 => true
  | .efflen _ => true
  | .isfd _ => true
  | .isrtr _ => true
  | .wiresize _ => true
  | .record _ => true

end Sys2Proof
end

