-- ==== Sys2Proof/Decode.lean ====
section
/-! DEFINITION. The bit fields and the byte order of the formats (20_memory.md R51; 30_encoding.md R70 to R73, R85), the
readers of the three formats (datagram header, frame record, command), and after them the encoder. -/

namespace Sys2Proof

/-! ## Byte order and bit fields -/

/-- `MemRead(B, off, 2)`: most significant byte first (20_memory.md R51). -/
def be16 (b0 b1 : Byte) : Word16 := b0 ++ b1

/-- `MemRead(B, off, 4)`: most significant byte first (20_memory.md R51). -/
def be32 (b0 b1 b2 b3 : Byte) : Word32 := b0 ++ b1 ++ b2 ++ b3

/-- The bytes of `MemWrite(B, off, 2, v)` (20_memory.md R51). -/
def be16Bytes (v : Word16) : List Byte := [v.extractLsb' 8 8, v.extractLsb' 0 8]

/-- The bytes of `MemWrite(B, off, 4, v)` (20_memory.md R51). -/
def be32Bytes (v : Word32) : List Byte :=
  [v.extractLsb' 24 8, v.extractLsb' 16 8, v.extractLsb' 8 8, v.extractLsb' 0 8]

/-- `length[6:0]`, the declared payload length (40_frame.md R100). -/
def lengthEff (length : Byte) : BitVec 7 := length.extractLsb' 0 7

/-- `length[7]`, the FD marker (40_frame.md R101). -/
def lengthFd (length : Byte) : Bool := length.getLsbD 7

/-- The `length` byte with this FD marker and this declared length (30_encoding.md R72). -/
def lengthByte (fd : Bool) (eff : BitVec 7) : Byte := BitVec.ofBool fd ++ eff

/-- `id[RTR_BIT]` (40_frame.md R102). -/
def idRtr (rtr : Fin 32) (id : Word32) : Bool := id.getLsbD rtr

/-- The size of the record with this `id` and `length`, the RTR term included (40_frame.md R104, 30_encoding.md R74;
90_conflicts.md C1). -/
def wireSizeOf (rtr : Fin 32) (id : Word32) (length : Byte) : Nat :=
  4 + 1 + (lengthFd length).toNat + (if idRtr rtr id then 0 else (lengthEff length).toNat)

/-- The bytes of a record (30_encoding.md R72; 40_frame.md R105). -/
def SigFrame.record (f : SigFrame) : List Byte :=
  be32Bytes f.id ++ f.length :: (f.flags.toList ++ f.payload)

/-- `WIRESIZE` of the frame with these significant fields (40_frame.md R104). -/
def SigFrame.wireSize (rtr : Fin 32) (f : SigFrame) : Nat := wireSizeOf rtr f.id f.length

/-- These are the significant fields of a well-formed Frame (10_state.md R21, R22): at most 64 bytes declared, flags
exactly where the FD marker is set, as many data bytes as declared but none in an RTR frame. -/
def SigFrame.ok (rtr : Fin 32) (f : SigFrame) : Bool :=
  decide ((lengthEff f.length).toNat ≤ Config.dataCap) && (f.flags.isSome == lengthFd f.length) &&
    (f.payload.length == if idRtr rtr f.id then 0 else (lengthEff f.length).toNat)

/-! ## The wire formats -/

/-- Read the 5-byte header (30_encoding.md R70); nothing where fewer than 5 bytes are there (43_decode.md R151 check 1). -/
def readHeader : List Byte → Option (Header × List Byte)
  | v :: o :: s :: c0 :: c1 :: rest => some (⟨v, o, s, be16 c0 c1⟩, rest)
  | _ => none

/-- Checks 2, 3 and 4 of the header, in this order: version, op_code, count (43_decode.md R151, R152). -/
def checkHeader (version : Byte) (h : Header) : Option Status :=
  if h.version ≠ version then some .versionMismatch
  else if h.opCode ≠ Config.opData then some .unsupportedOpCode
  else if h.count = 0 then some .malformed
  else none

/-- Check (c) and the data bytes of a record whose base and flags have been read (43_decode.md R151, R153, R157). -/
def readPayload (rtr : Fin 32) (id : Word32) (length : Byte) (flags : Option Byte) (rest : List Byte) :
    Except Status (SigFrame × List Byte) :=
  if idRtr rtr id then .ok (⟨id, length, flags, []⟩, rest)
  else if rest.length < (lengthEff length).toNat then .error .truncated
  else .ok (⟨id, length, flags, rest.take (lengthEff length).toNat⟩, rest.drop (lengthEff length).toNat)

/-- Read one record, with the checks (a), (a'), (b), (c) in this order, each before the bytes it covers are read
(43_decode.md R151, R153, R156, R167). -/
def readRecord (rtr : Fin 32) : List Byte → Except Status (SigFrame × List Byte)
  | b0 :: b1 :: b2 :: b3 :: len :: rest =>
    if Config.dataCap < (lengthEff len).toNat then .error .malformed
    else if lengthFd len then
      match rest with
      | [] => .error .truncated
      | fl :: rest => readPayload rtr (be32 b0 b1 b2 b3) len (some fl) rest
    else readPayload rtr (be32 b0 b1 b2 b3) len none rest
  | _ => .error .truncated

/-- The row of a header, by its `op_code` (30_encoding.md R76). -/
def headerInstr (h : Header) : Instr :=
  if h.opCode = Config.opData then .hdrData h.version h.seq h.count
  else if h.opCode = Config.opAck then .hdrAck h.version h.seq h.count
  else if h.opCode = Config.opNack then .hdrNack h.version h.seq h.count
  else .hdrReserved h.opCode h.version h.seq h.count

/-- The row of a record, by its FD marker and its RTR bit (30_encoding.md R73). -/
def recordInstr (rtr : Fin 32) (f : SigFrame) : Instr :=
  match f.flags, idRtr rtr f.id with
  | none, false => .recClassicData f.id (lengthEff f.length) f.payload
  | none, true => .recClassicRtr f.id (lengthEff f.length)
  | some fl, false => .recFdData f.id (lengthEff f.length) fl f.payload
  | some fl, true => .recFdRtr f.id (lengthEff f.length) fl

/-! ## The command format -/

/-- Why the bytes on the request port give no instruction. -/
inductive CommandError where
  /-- The command word or its operand bytes are not all there yet (log 16). -/
  | incomplete
  /-- A reserved `q` or `k` field: a reserved command word with no row of its own (30_encoding.md R86). -/
  | reserved
  /-- An INIT operand outside the ranges of 30_encoding.md R85 (log 17). -/
  | badInitOperand
deriving DecidableEq, Repr

/-- The 70-byte Frame operand of ENQ: `id` (4 bytes), `length`, `fd_flags`, `data` (64) (30_encoding.md R85). -/
def readFrame : List Byte → Option (Frame × List Byte)
  | b0 :: b1 :: b2 :: b3 :: len :: fl :: rest =>
    if rest.length < Config.dataCap then none
    else some (⟨be32 b0 b1 b2 b3, len, fl, Vector.ofFn fun k => rest.getD k.val 0⟩, rest.drop Config.dataCap)
  | _ => none

/-- The flag byte of INIT's operand: bit 0 is `DISCIPLINE`, bit 1 is `BUS_ATTACHED`, the others are zero
(30_encoding.md R85). -/
def readInitFlags (b : Byte) : Option (Discipline × Bool) :=
  if b.extractLsb' 2 6 = 0 then
    some (if b.getLsbD 0 then .interruptShared else .cooperative, b.getLsbD 1)
  else none

/-- The 15-byte operand of INIT (30_encoding.md R85). -/
def readInit : List Byte → Except CommandError (InitOperand × List Byte)
  | r0 :: r1 :: r2 :: r3 :: t0 :: t1 :: t2 :: t3 :: m0 :: m1 :: v :: rb :: fl :: z0 :: z1 :: rest =>
    if h : rb.toNat < 32 then
      match readInitFlags fl with
      | some (d, b) =>
        if z0 = 0 ∧ z1 = 0 then .ok (⟨be32 r0 r1 r2 r3, be32 t0 t1 t2 t3, be16 m0 m1, v, ⟨rb.toNat, h⟩, d, b⟩, rest)
        else .error .badInitOperand
      | none => .error .badInitOperand
    else .error .badInitOperand
  | _ => .error .incomplete

/-- The queue that the `q` bit names (30_encoding.md R85). -/
def queueOfBit (b : Bool) : QueueId := if b then .txq else .rxq

/-- The command word `op[7:4] ++ q[3] ++ k[2:0]` (30_encoding.md R85). -/
def commandWord (op : BitVec 4) (q : Bool) (k : BitVec 3) : Byte := op ++ BitVec.ofBool q ++ k

/-- Read the operands of the command with these three fields (30_encoding.md R85); reserved fields by R86. -/
def readOperands (op : BitVec 4) (q : Bool) (k : BitVec 3) (rest : List Byte) : Except CommandError (Instr × List Byte) :=
  match op.toNat with
  | 0 => .ok (.reservedOp0 (BitVec.ofBool q ++ k), rest)
  | 1 =>
    if k ≠ 0 then .error .reserved
    else match readFrame rest with
      | some (f, rest) => .ok (.enq (queueOfBit q) f, rest)
      | none => .error .incomplete
  | 2 => if k ≠ 0 then .error .reserved else .ok (.deq (queueOfBit q), rest)
  | 3 => if k ≠ 0 then .error .reserved else .ok (.peek (queueOfBit q), rest)
  | 4 => if k ≠ 0 then .error .reserved else .ok (.stat (queueOfBit q), rest)
  | 5 =>
    if k ≠ 0 then .error .reserved
    else match rest with
      | m0 :: m1 :: rest => .ok (.encode (queueOfBit q) (be16 m0 m1), rest)
      | _ => .error .incomplete
  | 6 =>
    if k ≠ 0 then .error .reserved
    else match rest with
      | l0 :: l1 :: rest =>
        if rest.length < (be16 l0 l1).toNat then .error .incomplete
        else .ok (.decode (queueOfBit q) (rest.take (be16 l0 l1).toNat), rest.drop (be16 l0 l1).toNat)
      | _ => .error .incomplete
  | 7 => if q ∨ k ≠ 0 then .error .reserved else .ok (.txstep, rest)
  | 8 => if q ∨ k ≠ 0 then .error .reserved else .ok (.rxstep, rest)
  | 9 => if q ∨ k ≠ 0 then .error .reserved else .ok (.flush, rest)
  | 10 => if q ∨ k ≠ 0 then .error .reserved else .ok (.tick, rest)
  | 11 =>
    if q then .error .reserved
    else if h : k.toNat < 7 then .ok (.rdcnt ⟨k.toNat, h⟩, rest)
    else .ok (.reservedRdcnt7, rest)
  | 12 => .ok (.reservedOpC (BitVec.ofBool q ++ k), rest)
  | 13 => .ok (.reservedOpD (BitVec.ofBool q ++ k), rest)
  | 14 => .ok (.reservedOpE (BitVec.ofBool q ++ k), rest)
  | _ =>
    if q ∨ k ≠ 0 then .error .reserved
    else match readInit rest with
      | .ok (c, rest) => .ok (.init c, rest)
      | .error e => .error e

/-- The decoder of the request port: the next command and the bytes after it (30_encoding.md R85, R86). -/
def decodeCommand : List Byte → Except CommandError (Instr × List Byte)
  | [] => .error .incomplete
  | w :: rest => readOperands (w.extractLsb' 4 4) (w.getLsbD 3) (w.extractLsb' 0 3) rest

/-! ## One table word -/

/-- The five bytes of a 40-bit word of a wire format, the most significant at the lowest offset (30_encoding.md R70, R73). -/
def wordBytes (w : Nat) : List Byte :=
  [BitVec.ofNat 8 (w >>> 32), BitVec.ofNat 8 (w >>> 24), BitVec.ofNat 8 (w >>> 16), BitVec.ofNat 8 (w >>> 8),
    BitVec.ofNat 8 w]

/-- Which of the three formats a table row of `nbits` bits belongs to (log 15). -/
inductive TableFormat where
  | command
  | header
  | record
  | none
deriving DecidableEq, Repr

/-- Up to 8 bits: a command word. Up to 32 bits: a header row, whose fixed bits are `H[31:24]` and below. Up to 40 bits:
a record prefix, whose fixed bits are `P[38]` and `P[7]` (log 15). -/
def tableFormat (nbits : Nat) : TableFormat :=
  if nbits = 0 then .none
  else if nbits ≤ 8 then .command
  else if nbits ≤ 32 then .header
  else if nbits ≤ 40 then .record
  else .none

/-- The bytes of the command whose word is `w`, every operand byte zero (the longest fixed operand is ENQ's, 70 bytes). -/
def tableCommandBytes (w : Nat) : List Byte := BitVec.ofNat 8 w :: List.replicate 70 0

/-- The bytes of the record whose prefix is `w`, every byte after it zero (a flags byte and at most 64 data bytes). -/
def tableRecordBytes (w : Nat) : List Byte := wordBytes w ++ List.replicate 65 0

/-- The instruction that the decoder reads from a table row's word; records with the default `RTR_BIT`, as the table says. -/
def decodeTableWord (nbits w : Nat) : Option Instr :=
  match tableFormat nbits with
  | .command =>
    match decodeCommand (tableCommandBytes w) with
    | .ok (i, _) => some i
    | .error _ => none
  | .header => (readHeader (wordBytes w)).map fun r => headerInstr r.1
  | .record =>
    match readRecord Config.defaultRtrBit (tableRecordBytes w) with
    | .ok (f, _) => some (recordInstr Config.defaultRtrBit f)
    | .error _ => none
  | .none => none

/-- The format of a row: a command word, a wire header, a wire record, or, for the accessors, none. -/
def instrFormat : Instr → TableFormat
  | .hdrData _ _ _ | .hdrAck _ _ _ | .hdrNack _ _ _ | .hdrReserved _ _ _ _ => .header
  | .recClassicData _ _ _ | .recClassicRtr _ _ | .recFdData _ _ _ _ | .recFdRtr _ _ _ => .record
  | .enq _ _ | .deq _ | .peek _ | .stat _ | .encode _ _ | .decode _ _ | .txstep | .rxstep | .flush | .tick | .rdcnt _
  | .init _ | .reservedOp0 _ | .reservedOpC _ | .reservedOpD _ | .reservedOpE _ | .reservedRdcnt7 => .command
  | .efflen _ | .isfd _ | .isrtr _ | .wiresize _ | .record _ => .none

/-! ## The encoder -/

/-- The five bytes of a header (30_encoding.md R70). -/
def headerBytes (h : Header) : List Byte := h.version :: h.opCode :: h.seq :: be16Bytes h.count

/-- The 70 bytes of a Frame operand (30_encoding.md R85). -/
def frameBytes (f : Frame) : List Byte := be32Bytes f.id ++ f.length :: f.fdFlags :: f.data.toList

/-- The flag byte of INIT's operand (30_encoding.md R85). -/
def initFlags (c : InitOperand) : Byte :=
  (0 : BitVec 6) ++ BitVec.ofBool c.busAttached ++ BitVec.ofBool (c.discipline == .interruptShared)

/-- The 15 bytes of INIT's operand (30_encoding.md R85). -/
def initBytes (c : InitOperand) : List Byte :=
  be32Bytes c.nRx ++ be32Bytes c.nTx ++ be16Bytes c.mtuLimit ++
    [c.version, BitVec.ofNat 8 c.rtrBit, initFlags c, 0, 0]

/-- The `q` bit of a queue (30_encoding.md R85). -/
def bitOfQueue (q : QueueId) : Bool := q == .txq

/-- The significant fields that a record row carries (30_encoding.md R73); nothing for another row. -/
def recordOf : Instr → Option SigFrame
  | .recClassicData id eff data => some ⟨id, lengthByte false eff, none, data⟩
  | .recClassicRtr id eff => some ⟨id, lengthByte false eff, none, []⟩
  | .recFdData id eff flags data => some ⟨id, lengthByte true eff, some flags, data⟩
  | .recFdRtr id eff flags => some ⟨id, lengthByte true eff, some flags, []⟩
  | _ => none

/-- The bytes of an instruction: a header, a record, or a command word with its operands. The five accessors have no
command word and no bytes (40_frame.md; log 13). -/
def encode : Instr → List Byte
  | .hdrData v s c => headerBytes ⟨v, Config.opData, s, c⟩
  | .hdrAck v s c => headerBytes ⟨v, Config.opAck, s, c⟩
  | .hdrNack v s c => headerBytes ⟨v, Config.opNack, s, c⟩
  | .hdrReserved o v s c => headerBytes ⟨v, o, s, c⟩
  | .recClassicData id eff data => SigFrame.record ⟨id, lengthByte false eff, none, data⟩
  | .recClassicRtr id eff => SigFrame.record ⟨id, lengthByte false eff, none, []⟩
  | .recFdData id eff flags data => SigFrame.record ⟨id, lengthByte true eff, some flags, data⟩
  | .recFdRtr id eff flags => SigFrame.record ⟨id, lengthByte true eff, some flags, []⟩
  | .enq q f => commandWord 0x1 (bitOfQueue q) 0 :: frameBytes f
  | .deq q => [commandWord 0x2 (bitOfQueue q) 0]
  | .peek q => [commandWord 0x3 (bitOfQueue q) 0]
  | .stat q => [commandWord 0x4 (bitOfQueue q) 0]
  | .encode q m => commandWord 0x5 (bitOfQueue q) 0 :: be16Bytes m
  | .decode q input => commandWord 0x6 (bitOfQueue q) 0 :: (be16Bytes (BitVec.ofNat 16 input.length) ++ input)
  | .txstep => [commandWord 0x7 false 0]
  | .rxstep => [commandWord 0x8 false 0]
  | .flush => [commandWord 0x9 false 0]
  | .tick => [commandWord 0xA false 0]
  | .rdcnt k => [commandWord 0xB false (BitVec.ofNat 3 k)]
  | .init c => commandWord 0xF false 0 :: initBytes c
  | .reservedOp0 x => [(0x0 : BitVec 4) ++ x]
  | .reservedOpC x => [(0xC : BitVec 4) ++ x]
  | .reservedOpD x => [(0xD : BitVec 4) ++ x]
  | .reservedOpE x => [(0xE : BitVec 4) ++ x]
  | .reservedRdcnt7 => [commandWord 0xB false 7]
  | .efflen _ => []
  | .isfd _ => []
  | .isrtr _ => []
  | .wiresize _ => []
  | .record _ => []

end Sys2Proof
end

