-- ==== Sys2Proof/Machine/State.lean ====
section
/-! DEFINITION. The state of the block: every register and slot array of 10_state.md, the recorded configuration, the DECODE
in progress, and the ports as plain lists. -/

namespace Sys2Proof.Machine

/-- One slot array (10_state.md R24; 20_memory.md R50): the written slots as (index, significant fields), the indices
strictly rising. A slot that is not listed was not written since INIT and its content is unspecified (R37; log 5). -/
abbrev Memory := List (Nat × SigFrame)

/-- The canonical form of a slot array: indices strictly rising. What an unlisted slot reads as is a free value, so no
entry equals it. -/
abbrev Memory.wf (m : Memory) : Prop := m.Pairwise fun a b => a.1 < b.1

/-- A BoundedFrameQueue (10_state.md R24, R28). -/
structure Queue where
  /-- `Q.N`, the number of slots, fixed by INIT. -/
  size : Nat
  /-- `Q.head`, the index of the oldest live frame. -/
  head : Nat
  /-- `Q.tail`, the index of the slot the next ENQ fills. -/
  tail : Nat
  /-- `Q.DROP`, the enqueue attempts refused with `Full`. -/
  drop : Word32
  /-- `Q.slot`. -/
  slots : Memory
deriving DecidableEq, Repr, Inhabited

/-- The tick agent's position in its three-step cycle (10_state.md R31). -/
inductive Phase where
  | tx
  | rx
  | fl
deriving DecidableEq, Repr, Inhabited

/-- The two agents that take steps (00_scope.md R9). -/
inductive Agent where
  | tick
  | net
deriving DecidableEq, Repr, Inhabited

/-- The part of INIT's configuration that later operations read (00_scope.md R7; the capacities are `Queue.size`). -/
structure Settings where
  mtuLimit : Word16
  version : Byte
  rtrBit : Fin 32
  discipline : Discipline
  busAttached : Bool
deriving DecidableEq, Repr, Inhabited

/-- How far a DECODE has come: before its header, or in its loop of `count` records with this many done (10_state.md R34). -/
inductive Stage where
  | header
  | records (count index : Nat)
deriving DecidableEq, Repr, Inhabited

/-- The transient state of a DECODE of the network-receive agent (10_state.md R34): the cursor is the pair of
`total - rest.length` (the position) and `total`. Its destination is TXQ (44_scheduler.md R182). -/
structure Session where
  total : Nat
  rest : List Byte
  stage : Stage
  enqueued : Nat
deriving DecidableEq, Repr, Inhabited

/-- The cursor's position (10_state.md R34). -/
def Session.pos (d : Session) : Nat := d.total - d.rest.length

/-- What an operation answers on the response port (30_encoding.md R85, column "results"). -/
inductive Response where
  /-- `Ok` with no results: INIT, TXSTEP, RXSTEP, FLUSH, TICK. -/
  | done
  /-- A status alone: ENQ, and the answer to a reserved command word. -/
  | status (st : Status)
  /-- DEQ and PEEK: a status and a Frame. -/
  | frame (st : Status) (f : Frame)
  /-- STAT: the two flags and the occupancy. -/
  | flags (empty full : Bool) (occ : Nat)
  /-- ENCODE (always `Ok`): `bytes_written`, `frames_consumed` and `OUT[0 .. bytes_written)`. -/
  | encoded (bytesWritten framesConsumed : Nat) (out : List Byte)
  /-- DECODE: a status and `frames_enqueued`. -/
  | decoded (st : Status) (framesEnqueued : Nat)
  /-- RDCNT: the counter's value. -/
  | counter (v : Word32)
  /-- EFFLEN: a 7-bit number. -/
  | effLen (v : BitVec 7)
  /-- ISFD and ISRTR: one bit. -/
  | bit (b : Bool)
  /-- WIRESIZE: a number of bytes. -/
  | size (n : Nat)
  /-- RECORD: a byte string. -/
  | bytes (bs : List Byte)
deriving DecidableEq, Repr

/-- What the block puts out (30_encoding.md R85; 44_scheduler.md R181 to R184; 43_decode.md R163). -/
inductive Event where
  /-- An answer on the response port. -/
  | response (r : Response)
  /-- `send(OUT[0 .. bytes_written))` on the transport send port (R181). -/
  | send (datagram : List Byte)
  /-- `try_transmit(frame)` on the bus transmit port, with the answer it got (R183). -/
  | offer (f : Frame) (accepted : Bool)
  /-- `poll_and_enqueue()` on the bus receive port, with the frames it gave (R184). The statuses of their enqueues are
  absorbed (60_exceptions.md R201, R212). -/
  | polled (frames : List Frame)
  /-- `release(IN)` to the transport (43_decode.md R163). -/
  | release
deriving DecidableEq, Repr

/-- The state of one bridge. -/
structure State where
  /-- An INIT has been done (70_reset_and_hazards.md R231; log 4). -/
  ready : Bool
  /-- The configuration that INIT recorded (70_reset_and_hazards.md R230; log 23). -/
  settings : Settings
  /-- The bus-to-network queue (10_state.md R27). -/
  rxq : Queue
  /-- The network-to-bus queue (10_state.md R27). -/
  txq : Queue
  /-- `SEQ` (10_state.md R29). -/
  seq : Byte
  /-- Counter 2 (10_state.md R30). -/
  cntMalformed : Word32
  /-- Counter 3 (R30). -/
  cntVersion : Word32
  /-- Counter 4 (R30). -/
  cntOpcode : Word32
  /-- Counter 5 (R30). -/
  cntTruncated : Word32
  /-- Counter 6 (R30). -/
  cntAlloc : Word32
  /-- `PHASE` (10_state.md R31). -/
  phase : Phase
  /-- The DECODE in progress (10_state.md R34; log 10). -/
  session : Option Session
  /-- The bytes waiting on the request port (30_encoding.md R85; log 3). -/
  request : List Byte
  /-- The datagrams waiting at the transport receive port (44_scheduler.md R182; log 7). -/
  inbound : List (List Byte)
  /-- Which agent moves at each boundary (20_memory.md R59; log 11). -/
  turns : List Agent
  /-- Scripted answers of the bus transmit port (44_scheduler.md R183; log 7). -/
  accepted : List Bool
  /-- Scripted answers of the bus receive port (R184; log 7). -/
  busFrames : List (List Frame)
  /-- Scripted answers on buffer availability (R185; log 7). -/
  bufAvail : List Bool
  /-- How many free values have been read (the model's own; log 6). -/
  draws : Nat
  /-- What has been put out, oldest first (the model's own; log 21). -/
  events : List Event
deriving DecidableEq, Repr

/-- Why the spec's classing calls a run bad (60_exceptions.md R211). No meaning of an instruction ends in a fault: the block
answers the status and stays live (R202). -/
inductive Fault where
  /-- `BadFrame` was answered: the environment presented an ill-formed Frame (41_queue.md R112; 93 U7). Raised by
  `Safety.strictStep` only. Safe: it stops where the block goes on. -/
  | badFrame
deriving DecidableEq, Repr

/-- Why the model gives no next state. -/
inductive Refusal where
  /-- An instruction whose meaning is not written yet: raised by an arm of `exec`. Safe: it stops. -/
  | notModelled (mnemonic : String)
  /-- An operation before the first INIT (70_reset_and_hazards.md R231; 93 U12): raised by every meaning that reads the
  block's state. Safe: the spec gives it no effect. -/
  | beforeInit
  /-- INIT with `N_RX < 2` or `N_TX < 2` (70_reset_and_hazards.md R230, R235; 93 U13): raised by INIT. Safe: the spec gives
  it no effect. -/
  | badConfiguration
  /-- INIT operand bytes outside the ranges of 30_encoding.md R85 (log 17): raised by the fetch. Safe: the spec gives them no
  effect. -/
  | badInitOperand
  /-- INIT while a DECODE is in progress (70_reset_and_hazards.md R231; 93 U20): raised by INIT. Safe: the spec gives it no
  effect. -/
  | initDuringOperation
  /-- A DECODE input of more than 65535 bytes (43_decode.md R150; 93 U19): raised by DECODE and by the fetch of an inbound
  datagram. Safe: the spec gives it no effect. -/
  | inputTooLong
  /-- A header or record where no DECODE stands at one (10_state.md R23; log 10): raised by the wire rows. Safe: the spec
  gives it no effect. -/
  | outsideDatagram
  /-- A record term that no bytes decode to (its data or its RTR bit contradicts its row, 30_encoding.md R73): raised by the
  record rows. Safe: no run meets it. -/
  | illFormedRecord
  /-- `IllegalCommand` was answered (30_encoding.md R86; 60_exceptions.md R211; 93 U9). Raised by `Safety.strictStep` only.
  Safe: it stops where the block goes on. -/
  | illegalCommand
deriving DecidableEq, Repr

/-- An empty queue of `n` slots with nothing written (10_state.md R37). -/
def Queue.fresh (n : Nat) : Queue := { size := n, head := 0, tail := 0, drop := 0, slots := [] }

/-- The configuration of `State.reset`: the spec's defaults for `VERSION` and `RTR_BIT` (PRESUMED there, 00_scope.md R7) and
for the rest values it gives in its test programs (DESIGN CHOICE, log 2, unsafe). -/
def Settings.default : Settings :=
  { mtuLimit := 1500, version := Config.defaultVersion, rtrBit := Config.defaultRtrBit, discipline := .cooperative,
    busAttached := true }

/-- The number of slots of each queue in `State.reset` (DESIGN CHOICE, log 2, unsafe). -/
def defaultSlots : Nat := 4

/-- The state right after reset, which in the spec is INIT (10_state.md R37; 70_reset_and_hazards.md R230, R231), with
nothing on any port. -/
def State.reset : State :=
  { ready := true
    settings := Settings.default
    rxq := Queue.fresh defaultSlots
    txq := Queue.fresh defaultSlots
    seq := 0
    cntMalformed := 0
    cntVersion := 0
    cntOpcode := 0
    cntTruncated := 0
    cntAlloc := 0
    phase := .tx
    session := none
    request := []
    inbound := []
    turns := []
    accepted := []
    busFrames := []
    bufAvail := []
    draws := 0
    events := [] }

end Sys2Proof.Machine
end

