-- ==== Sys2Proof/Machine/Flags.lean ====
section
/-! DEFINITION. The derived flags of a queue and the index arithmetic (10_state.md R25, R26; 41_queue.md R115, R116). -/

namespace Sys2Proof.Machine

/-- `Q.EMPTY` (10_state.md R26). -/
def Queue.isEmpty (q : Queue) : Bool := q.head == q.tail

/-- `(i + 1) mod N`, computed without loss before the reduction (41_queue.md R116). -/
def Queue.next (q : Queue) (i : Nat) : Nat := (i + 1) % q.size

/-- `Q.FULL` (10_state.md R26). -/
def Queue.isFull (q : Queue) : Bool := q.next q.tail == q.head

/-- `occ(Q) = (Q.tail - Q.head) mod Q.N` (10_state.md R25), with `N` added before the subtraction so that it stays a
natural number. -/
def Queue.occ (q : Queue) : Nat := (q.tail + q.size - q.head) % q.size

/-- `IDX_W(N) = ceil(log2 N)`, the width of the index registers (00_scope.md R7). -/
def idxWidth (n : Nat) : Nat := Nat.clog 2 n

/-- `PHASE` advances TX, RX, FL, TX and never otherwise (10_state.md R31). -/
def Phase.next : Phase → Phase
  | .tx => .rx
  | .rx => .fl
  | .fl => .tx

end Sys2Proof.Machine
end

