-- ==== Sys2Proof/Machine/Operands.lean ====
section
/-! DEFINITION. The Frame accessors (40_frame.md) and which fields of a Frame are significant (10_state.md R21, R22). -/

namespace Sys2Proof

/-- `EFFLEN(f)` (40_frame.md R100). -/
def Frame.effLen (f : Frame) : BitVec 7 := lengthEff f.length

/-- `ISFD(f)` (40_frame.md R101). -/
def Frame.isFd (f : Frame) : Bool := lengthFd f.length

/-- `ISRTR(f)` (40_frame.md R102). -/
def Frame.isRtr (rtr : Fin 32) (f : Frame) : Bool := idRtr rtr f.id

/-- `WIRESIZE(f)` (40_frame.md R104). -/
def Frame.wireSize (rtr : Fin 32) (f : Frame) : Nat := wireSizeOf rtr f.id f.length

/-- `WF(f)`: the declared length fits the data array (10_state.md R21). -/
def Frame.wf (f : Frame) : Bool := decide (f.effLen.toNat ≤ Config.dataCap)

/-- The significant fields of a Frame (10_state.md R22). -/
def Frame.sig (rtr : Fin 32) (f : Frame) : SigFrame :=
  { id := f.id
    length := f.length
    flags := if f.isFd then some f.fdFlags else none
    payload := if f.isRtr rtr then [] else f.data.toList.take f.effLen.toNat }

/-- `RECORD(f)` of a well-formed Frame (40_frame.md R105). -/
def Frame.record (rtr : Fin 32) (f : Frame) : List Byte := (f.sig rtr).record

/-- `sig_eq(f, g)`: the Frames agree on `id`, on `length` and on every field significant under them (10_state.md R22). -/
def Frame.sigEq (rtr : Fin 32) (f g : Frame) : Bool :=
  f.id == g.id && f.length == g.length && (!f.isFd || f.fdFlags == g.fdFlags) &&
    (f.isRtr rtr || (List.finRange 64).all fun k => !decide (k.val < f.effLen.toNat) || f.data[k] == g.data[k])

/-- A Frame with these significant fields; every field that is not significant is that of `free` (10_state.md R22: a draw
on every read). -/
def SigFrame.toFrame (s : SigFrame) (free : Frame) : Frame :=
  { id := s.id
    length := s.length
    fdFlags := s.flags.getD free.fdFlags
    data := Vector.ofFn fun k => s.payload.getD k.val free.data[k] }

end Sys2Proof
end

