-- ==== Sys2Proof/Machine/Ops.lean ====
section
/-! DEFINITION. The shared operations: slot arrays, queues, ending an operation with a status (which is what stands in the
place of an exception, 60_exceptions.md), the draws, ENCODE, DECODE, and the boundary at which the other agent may cut in. -/

namespace Sys2Proof.Machine

/-! ## Slot arrays -/

/-- The content of slot `i`, nothing where it was not written since INIT. -/
def Memory.get : Memory → Nat → Option SigFrame
  | [], _ => none
  | (a, f) :: m, i => if a = i then some f else Memory.get m i

/-- Write slot `i`, keeping the indices strictly rising. -/
def Memory.set : Memory → Nat → SigFrame → Memory
  | [], i, f => [(i, f)]
  | (a, g) :: m, i, f =>
    if i < a then (i, f) :: (a, g) :: m
    else if i = a then (i, f) :: m
    else (a, g) :: Memory.set m i f

/-! ## Queues -/

/-- The significant fields in slot `i`; those of the caller's storage where nothing was written (10_state.md R37; log 25). -/
def Queue.slotAt (rtr : Fin 32) (q : Queue) (i : Nat) : SigFrame :=
  (q.slots.get i).getD ((Config.callerSlot i).sig rtr)

/-- The frame at `head` (41_queue.md R113, R114). -/
def Queue.front (rtr : Fin 32) (q : Queue) : SigFrame := q.slotAt rtr q.head

/-- The content of the queue, oldest first (10_state.md R25). -/
def Queue.content (rtr : Fin 32) (q : Queue) : List SigFrame :=
  (List.range q.occ).map fun k => q.slotAt rtr ((q.head + k) % q.size)

/-- Write the slot at `tail`, then advance `tail`, in one step (41_queue.md R111; 20_memory.md R58, R60). -/
def Queue.publish (q : Queue) (f : SigFrame) : Queue :=
  { q with slots := q.slots.set q.tail f, tail := q.next q.tail }

/-- Advance `head` (41_queue.md R113). -/
def Queue.pop (q : Queue) : Queue := { q with head := q.next q.head }

/-- The room test of ENQ and DECODE and what follows it: `Full` and one more drop, or the publication (41_queue.md R111;
43_decode.md R158). -/
def Queue.offer (q : Queue) (f : SigFrame) : Status × Queue :=
  if q.isFull then (.full, { q with drop := q.drop + 1 }) else (.ok, q.publish f)

/-- `ENQ(Q, f)`: `BadFrame` before `Full` (41_queue.md R111, R112). -/
def Queue.enqueue (rtr : Fin 32) (q : Queue) (f : Frame) : Status × Queue :=
  if f.wf then q.offer (f.sig rtr) else (.badFrame, q)

/-! ## Queues, ports and counters of a state -/

/-- The queue that an operand names (10_state.md R27). -/
def State.queue (s : State) : QueueId → Queue
  | .rxq => s.rxq
  | .txq => s.txq

/-- The state with that queue replaced. -/
def State.setQueue (s : State) (id : QueueId) (q : Queue) : State :=
  match id with
  | .rxq => { s with rxq := q }
  | .txq => { s with txq := q }

/-- Put one event out. -/
def State.emit (s : State) (e : Event) : State := { s with events := s.events ++ [e] }

/-- Answer on the response port (30_encoding.md R85). -/
def State.answer (s : State) (r : Response) : State := s.emit (.response r)

/-- A Frame of which nothing is known (log 6). -/
def State.freeFrame (s : State) : Frame := Config.freeFrame s.draws

/-- One more free value has been read (log 6). -/
def State.drawn (s : State) : State := { s with draws := s.draws + 1 }

/-- The value of counter `k` (10_state.md R30; 44_scheduler.md R195). -/
def State.counter (s : State) : Fin 7 → Word32
  | 0 => s.rxq.drop
  | 1 => s.txq.drop
  | 2 => s.cntMalformed
  | 3 => s.cntVersion
  | 4 => s.cntOpcode
  | 5 => s.cntTruncated
  | 6 => s.cntAlloc

/-! ## Ending an operation with a status -/

/-- Count a status in its counter (60_exceptions.md R200, R207; 43_decode.md R162). The drop of a `Full` is counted with
the refused attempt itself (`Queue.offer`). -/
def State.count (s : State) : Status → State
  | .malformed => { s with cntMalformed := s.cntMalformed + 1 }
  | .versionMismatch => { s with cntVersion := s.cntVersion + 1 }
  | .unsupportedOpCode => { s with cntOpcode := s.cntOpcode + 1 }
  | .truncated => { s with cntTruncated := s.cntTruncated + 1 }
  | .allocationFailure => { s with cntAlloc := s.cntAlloc + 1 }
  | .ok => s
  | .full => s
  | .empty => s
  | .badFrame => s
  | .illegalCommand => s

/-- The end of every DECODE: count the status, release the transport's buffer once, answer (43_decode.md R151, R162, R163;
60_exceptions.md R206 to R208). -/
def State.endDecode (s : State) (st : Status) (n : Nat) : State :=
  ((s.count st).emit .release).answer (.decoded st n)

/-- The answer to a reserved command word: `IllegalCommand` and no other change (30_encoding.md R86; log 8). -/
def State.answerIllegal (s : State) : State := s.answer (.status .illegalCommand)

/-- Run an operation of an initialised block; before the first INIT no operation may be issued
(70_reset_and_hazards.md R231; log 4). -/
def State.whenReady (s : State) (r : Host.Outcome State Fault Refusal) : Host.Outcome State Fault Refusal :=
  if s.ready then r else .refused .beforeInit

/-! ## The draws -/

/-- Draw `accepted` (44_scheduler.md R183): the next scripted answer, or a free value (log 7). -/
def State.drawAccepted (s : State) : Bool × State :=
  match s.accepted with
  | b :: bs => (b, { s with accepted := bs })
  | [] => (Config.freeAccepted s.draws, s.drawn)

/-- Draw `bus_frames` (44_scheduler.md R184): the next scripted list, or a free list of well-formed Frames (log 7). -/
def State.drawBusFrames (s : State) : List Frame × State :=
  match s.busFrames with
  | fs :: fss => (fs, { s with busFrames := fss })
  | [] => ((Config.freeBusFrames s.draws).filter Frame.wf, s.drawn)

/-- Draw `buf_avail` (44_scheduler.md R185): the next scripted answer, or a free value (log 7). -/
def State.drawBufAvail (s : State) : Bool × State :=
  match s.bufAvail with
  | b :: bs => (b, { s with bufAvail := bs })
  | [] => (Config.freeBufAvail s.draws, s.drawn)

/-! ## ENCODE -/

/-- What ENCODE's loop has when it ends: the queue without the frames taken, `pos`, `cnt`, and the record bytes in order. -/
structure Batch where
  queue : Queue
  pos : Nat
  count : Nat
  records : List Byte
deriving DecidableEq, Repr

/-- ENCODE's loop from `pos` with at most `fuel` turns left (42_encode.md R133 to R135). The queue holds at most `occ`
frames, so `fuel = occ` turns suffice (R139). -/
def batch (rtr : Fin 32) (limit : Nat) : Nat → Nat → Queue → Batch
  | 0, pos, q => ⟨q, pos, 0, []⟩
  | fuel + 1, pos, q =>
    if q.isEmpty then ⟨q, pos, 0, []⟩
    else if limit < pos + (q.front rtr).wireSize rtr then ⟨q, pos, 0, []⟩
    else
      let b := batch rtr limit fuel (pos + (q.front rtr).wireSize rtr) q.pop
      ⟨b.queue, b.pos, b.count + 1, (q.front rtr).record ++ b.records⟩

/-- The datagram of a batch: the header, written last but placed first (42_encode.md R133, R136), then the records. -/
def Batch.datagram (b : Batch) (version seq : Byte) : List Byte :=
  headerBytes ⟨version, Config.opData, seq, BitVec.ofNat 16 b.count⟩ ++ b.records

/-- The batch that `ENCODE Q, limit` takes in this state (42_encode.md R133). -/
def State.batchOf (s : State) (id : QueueId) (limit : Nat) : Batch :=
  batch s.settings.rtrBit limit (s.queue id).occ Config.hdrSize (s.queue id)

/-- The results of ENCODE (42_encode.md R130, R133, R138). -/
structure Encoded where
  bytesWritten : Nat
  framesConsumed : Nat
  out : List Byte
deriving DecidableEq, Repr

/-- `ENCODE(Q, mtu_limit)` (42_encode.md R133): no datagram and no change where no frame was taken (R138); else `SEQ` goes
into the header and is then incremented (R137). -/
def State.encode (s : State) (id : QueueId) (limit : Nat) : Encoded × State :=
  let b := s.batchOf id limit
  if b.count = 0 then (⟨0, 0, []⟩, s)
  else (⟨b.pos, b.count, b.datagram s.settings.version s.seq⟩, { s.setQueue id b.queue with seq := s.seq + 1 })

/-! ## DECODE -/

/-- DECODE's loop over the records still to come, with `n` frames enqueued so far (43_decode.md R151, R153 to R160): the
checks of a record, then the room test, then the publication. -/
def decodeRecords (rtr : Fin 32) : Nat → List Byte → Nat → Queue → Status × Nat × Queue
  | 0, _, n, q => (.ok, n, q)
  | k + 1, rest, n, q =>
    match readRecord rtr rest with
    | .error st => (st, n, q)
    | .ok (f, rest) =>
      match q.offer f with
      | (.ok, q) => decodeRecords rtr k rest (n + 1) q
      | (st, q) => (st, n, q)

/-- The whole of `DECODE(Q, L, IN)` but for its end (43_decode.md R151): the status, `frames_enqueued` and the queue. -/
def decodeInput (g : Settings) (input : List Byte) (q : Queue) : Status × Nat × Queue :=
  match readHeader input with
  | none => (.malformed, 0, q)
  | some (h, rest) =>
    match checkHeader g.version h with
    | some st => (st, 0, q)
    | none => decodeRecords g.rtrBit h.count.toNat rest 0 q

/-- `DECODE(Q, L, IN)` (43_decode.md R151). -/
def State.decode (s : State) (id : QueueId) (input : List Byte) : State :=
  let r := decodeInput s.settings input (s.queue id)
  (s.setQueue id r.2.2).endDecode r.1 r.2.1

/-- The header part of the DECODE in progress `d` (43_decode.md R151, R152). -/
def State.acceptHeader (s : State) (d : Session) (h : Header) : State :=
  match checkHeader s.settings.version h with
  | some st => { s with session := none }.endDecode st d.enqueued
  | none => { s with session := some { d with stage := .records h.count.toNat 0 } }

/-- One turn of the loop of the DECODE in progress `d`, whose record has been read: the room test, the publication, and the
end after the last record (43_decode.md R151, R158 to R160). -/
def State.acceptRecord (s : State) (d : Session) (count index : Nat) (f : SigFrame) : State :=
  match s.txq.offer f with
  | (.ok, q) =>
    if index + 1 < count then
      { s with txq := q, session := some { d with stage := .records count (index + 1), enqueued := d.enqueued + 1 } }
    else { s with txq := q, session := none }.endDecode .ok (d.enqueued + 1)
  | (st, q) => { s with txq := q, session := none }.endDecode st d.enqueued

/-! ## The other agent -/

/-- One boundary between two inner steps of a tick: while the turns say so, the network-receive agent runs a whole DECODE of
the next inbound datagram; the first turn of the tick agent, or none, lets the tick go on (20_memory.md R58, R59; log 12). A
datagram over `MAX_DGRAM` is no input of DECODE and stays where it is (log 19). -/
def State.netTurns (s : State) : List Agent → State
  | [] => { s with turns := [] }
  | .tick :: ts => { s with turns := ts }
  | .net :: ts =>
    match s.inbound with
    | [] => s.netTurns ts
    | d :: ds =>
      if d.length ≤ Config.maxDgram then ({ s with inbound := ds }.decode .txq d).netTurns ts
      else { s with turns := ts }

/-- The boundary under the configured discipline: under `cooperative` nothing cuts into a tick (20_memory.md R59). -/
def State.cutIn (s : State) : State :=
  match s.settings.discipline with
  | .cooperative => s
  | .interruptShared => s.netTurns s.turns

end Sys2Proof.Machine
end

