-- ==== Sys2Proof/Machine/Accessors.lean ====
section
/-! DEFINITION. The meanings of the Frame accessors as rows of the table: the value on the response port, and no other change
(40_frame.md; log 13). -/

namespace Sys2Proof.Machine

/-- `EFFLEN(f)` (40_frame.md R100). -/
def execEfflen (f : Frame) (s : State) : Host.Outcome State Fault Refusal := .next (s.answer (.effLen f.effLen))

/-- `ISFD(f)` (40_frame.md R101). -/
def execIsfd (f : Frame) (s : State) : Host.Outcome State Fault Refusal := .next (s.answer (.bit f.isFd))

/-- `ISRTR(f)` (40_frame.md R102); `RTR_BIT` is what INIT recorded. -/
def execIsrtr (f : Frame) (s : State) : Host.Outcome State Fault Refusal :=
  s.whenReady (.next (s.answer (.bit (f.isRtr s.settings.rtrBit))))

/-- `WIRESIZE(f)` (40_frame.md R104). -/
def execWiresize (f : Frame) (s : State) : Host.Outcome State Fault Refusal :=
  s.whenReady (.next (s.answer (.size (f.wireSize s.settings.rtrBit))))

/-- `RECORD(f)` (40_frame.md R105); for a Frame that is not well-formed, which the rule's operand excludes, the bytes are
free (log 14). -/
def execRecord (f : Frame) (s : State) : Host.Outcome State Fault Refusal :=
  s.whenReady
    (if f.wf then .next (s.answer (.bytes (f.record s.settings.rtrBit)))
     else .next (s.drawn.answer (.bytes (Config.freeBytes s.draws))))

end Sys2Proof.Machine
end

