-- ==== Sys2Proof/Machine/Codec.lean ====
section
/-! DEFINITION. The meanings of the codec commands (42_encode.md, 43_decode.md). -/

namespace Sys2Proof.Machine

/-- `ENCODE Q, mtu_limit` (42_encode.md R133). -/
def execEncode (q : QueueId) (mtuLimit : Word16) (s : State) : Host.Outcome State Fault Refusal :=
  let r := s.encode q mtuLimit.toNat
  s.whenReady (.next (r.2.answer (.encoded r.1.bytesWritten r.1.framesConsumed r.1.out)))

/-- `DECODE Q, L, IN` (43_decode.md R151); an input over `MAX_DGRAM` is refused (93 U19). -/
def execDecode (q : QueueId) (input : List Byte) (s : State) : Host.Outcome State Fault Refusal :=
  s.whenReady (if input.length ≤ Config.maxDgram then .next (s.decode q input) else .refused .inputTooLong)

end Sys2Proof.Machine
end

