-- ==== Sys2Proof/Machine/Control.lean ====
section
/-! DEFINITION. The meanings of INIT (70_reset_and_hazards.md R230, R231) and of the reserved command words
(30_encoding.md R86). -/

namespace Sys2Proof.Machine

/-- The capacities that INIT needs (70_reset_and_hazards.md R235 item 1). -/
def legalConfig (c : InitOperand) : Bool := decide (2 ≤ c.nRx.toNat) && decide (2 ≤ c.nTx.toNat)

/-- What INIT leaves: the configuration recorded and every register at its reset value (10_state.md R37;
70_reset_and_hazards.md R230, R231). The slot contents become unspecified: nothing is listed. What stands on the ports is
the environment's and stays (log 24). -/
def State.initWith (s : State) (c : InitOperand) : State :=
  { s with
    ready := true
    settings :=
      { mtuLimit := c.mtuLimit, version := c.version, rtrBit := c.rtrBit, discipline := c.discipline,
        busAttached := c.busAttached }
    rxq := Queue.fresh c.nRx.toNat
    txq := Queue.fresh c.nTx.toNat
    seq := 0
    cntMalformed := 0
    cntVersion := 0
    cntOpcode := 0
    cntTruncated := 0
    cntAlloc := 0
    phase := .tx }

/-- `INIT config` (70_reset_and_hazards.md R230); refused inside an operation (93 U20) and with `N < 2` (93 U13). -/
def execInit (c : InitOperand) (s : State) : Host.Outcome State Fault Refusal :=
  if s.session.isSome then .refused .initDuringOperation
  else if legalConfig c then .next ((s.initWith c).answer .done)
  else .refused .badConfiguration

/-- A reserved command word with `op = 0x0` (30_encoding.md R86). -/
def execReservedOp0 (_x : BitVec 4) (s : State) : Host.Outcome State Fault Refusal := .next s.answerIllegal

/-- A reserved command word with `op = 0xC` (30_encoding.md R86). -/
def execReservedOpC (_x : BitVec 4) (s : State) : Host.Outcome State Fault Refusal := .next s.answerIllegal

/-- A reserved command word with `op = 0xD` (30_encoding.md R86). -/
def execReservedOpD (_x : BitVec 4) (s : State) : Host.Outcome State Fault Refusal := .next s.answerIllegal

/-- A reserved command word with `op = 0xE` (30_encoding.md R86). -/
def execReservedOpE (_x : BitVec 4) (s : State) : Host.Outcome State Fault Refusal := .next s.answerIllegal

/-- `RDCNT` with `k = 7` (30_encoding.md R86; 44_scheduler.md R195). -/
def execReservedRdcnt7 (s : State) : Host.Outcome State Fault Refusal := .next s.answerIllegal

end Sys2Proof.Machine
end

