-- ==== Sys2Proof/Machine/QueueCommands.lean ====
section
/-! DEFINITION. The meanings of the queue commands (41_queue.md). -/

namespace Sys2Proof.Machine

/-- `ENQ Q, f` (41_queue.md R111, R112). -/
def execEnq (q : QueueId) (f : Frame) (s : State) : Host.Outcome State Fault Refusal :=
  let r := (s.queue q).enqueue s.settings.rtrBit f
  s.whenReady (.next ((s.setQueue q r.2).answer (.status r.1)))

/-- `DEQ Q` (41_queue.md R113): the non-significant fields of the Frame, and all of it where the queue is empty, are free. -/
def execDeq (q : QueueId) (s : State) : Host.Outcome State Fault Refusal :=
  s.whenReady
    (if (s.queue q).isEmpty then .next (s.drawn.answer (.frame .empty s.freeFrame))
     else .next ((s.setQueue q (s.queue q).pop).drawn.answer
       (.frame .ok (((s.queue q).front s.settings.rtrBit).toFrame s.freeFrame))))

/-- `PEEK Q` (41_queue.md R114): as DEQ, but the frame stays. -/
def execPeek (q : QueueId) (s : State) : Host.Outcome State Fault Refusal :=
  s.whenReady
    (if (s.queue q).isEmpty then .next (s.drawn.answer (.frame .empty s.freeFrame))
     else .next (s.drawn.answer (.frame .ok (((s.queue q).front s.settings.rtrBit).toFrame s.freeFrame))))

/-- `STAT Q` (41_queue.md R115). -/
def execStat (q : QueueId) (s : State) : Host.Outcome State Fault Refusal :=
  s.whenReady (.next (s.answer (.flags (s.queue q).isEmpty (s.queue q).isFull (s.queue q).occ)))

end Sys2Proof.Machine
end

