-- ==== Sys2Proof/Machine/Scheduler.lean ====
section
/-! DEFINITION. The scheduler's steps and the meanings of TXSTEP, RXSTEP, FLUSH, TICK and RDCNT (44_scheduler.md). -/

namespace Sys2Proof.Machine

/-- The second half of TXSTEP, after the offer: the frame offered is dequeued iff it was accepted (44_scheduler.md R186). -/
def State.takeIf (s : State) (accepted : Bool) : State := if accepted then { s with txq := s.txq.pop } else s

/-- TXSTEP (44_scheduler.md R186, R191): PEEK and offer, the boundary of 20_memory.md R59, then DEQ. -/
def State.txStep (s : State) : State :=
  if !s.settings.busAttached || s.txq.isEmpty then s
  else
    let f := (s.txq.front s.settings.rtrBit).toFrame s.freeFrame
    let r := s.drawn.drawAccepted
    ((r.2.emit (.offer f r.1)).cutIn).takeIf r.1

/-- RXSTEP's loop: each frame is enqueued in list order, a boundary after each (44_scheduler.md R187). No status
surfaces (60_exceptions.md R201, R212): a `Full` is a counted drop and the loop goes on; so it does after a `BadFrame`
(log 9). -/
def State.enqueueAll (s : State) : List Frame → State
  | [] => s
  | f :: fs => State.enqueueAll ({ s with rxq := (s.rxq.enqueue s.settings.rtrBit f).2 }.cutIn) fs

/-- RXSTEP (44_scheduler.md R187, R191). -/
def State.rxStep (s : State) : State :=
  if !s.settings.busAttached then s
  else
    let d := s.drawBusFrames
    (d.2.emit (.polled d.1)).enqueueAll d.1

/-- FLUSH's loop with at most `fuel` turns left (44_scheduler.md R188); a boundary after each send. -/
def State.flushLoop (s : State) : Nat → State
  | 0 => s
  | fuel + 1 =>
    if s.rxq.isEmpty then s
    else
      let d := s.drawBufAvail
      if !d.1 then d.2.count .allocationFailure
      else
        let r := d.2.encode .rxq d.2.settings.mtuLimit.toNat
        if r.1.framesConsumed = 0 then r.2
        else ((r.2.emit (.send r.1.out)).cutIn).flushLoop fuel

/-- FLUSH (44_scheduler.md R188): at most `occ(RXQ) + 1` turns. -/
def State.flushStep (s : State) : State := s.flushLoop (s.rxq.occ + 1)

/-- `PHASE` moves on (10_state.md R31). -/
def State.advance (s : State) : State := { s with phase := s.phase.next }

/-- `TICK = TXSTEP; RXSTEP; FLUSH`, `PHASE` moving on after each, with the boundaries between them (44_scheduler.md R189). -/
def State.tickStep (s : State) : State := s.txStep.cutIn.advance.rxStep.cutIn.advance.flushStep.advance

/-- `TXSTEP` (44_scheduler.md R186). -/
def execTxstep (s : State) : Host.Outcome State Fault Refusal := s.whenReady (.next (s.txStep.answer .done))

/-- `RXSTEP` (44_scheduler.md R187). -/
def execRxstep (s : State) : Host.Outcome State Fault Refusal := s.whenReady (.next (s.rxStep.answer .done))

/-- `FLUSH` (44_scheduler.md R188). -/
def execFlush (s : State) : Host.Outcome State Fault Refusal := s.whenReady (.next (s.flushStep.answer .done))

/-- `TICK` (44_scheduler.md R189). -/
def execTick (s : State) : Host.Outcome State Fault Refusal := s.whenReady (.next (s.tickStep.answer .done))

/-- `RDCNT k` (44_scheduler.md R195). -/
def execRdcnt (k : Fin 7) (s : State) : Host.Outcome State Fault Refusal :=
  s.whenReady (.next (s.answer (.counter (s.counter k))))

end Sys2Proof.Machine
end

