-- ==== Sys2Proof/Machine/Wire.lean ====
section
/-! DEFINITION. The meanings of the wire rows: what a header or a record does to the DECODE that stands at it (log 10). -/

namespace Sys2Proof.Machine

/-- A header, where the DECODE in progress stands before its header (43_decode.md R151, R152). -/
def onHeader (h : Header) (s : State) : Host.Outcome State Fault Refusal :=
  match s.session with
  | some ⟨total, rest, .header, n⟩ => s.whenReady (.next (s.acceptHeader ⟨total, rest, .header, n⟩ h))
  | _ => .refused .outsideDatagram

/-- A record, where the DECODE in progress stands in its loop: `Malformed` where more than 64 bytes are declared
(43_decode.md R156), else one turn of the loop. -/
def onRecord (f : SigFrame) (s : State) : Host.Outcome State Fault Refusal :=
  match s.session with
  | some ⟨total, rest, .records count index, n⟩ =>
    s.whenReady
      (if Config.dataCap < (lengthEff f.length).toNat then .next ({ s with session := none }.endDecode .malformed n)
       else if f.ok s.settings.rtrBit then .next (s.acceptRecord ⟨total, rest, .records count index, n⟩ count index f)
       else .refused .illFormedRecord)
  | _ => .refused .outsideDatagram

/-- `HDR.DATA` (30_encoding.md R76; 43_decode.md R152). -/
def execHdrData (version seq : Byte) (count : Word16) (s : State) : Host.Outcome State Fault Refusal :=
  onHeader ⟨version, Config.opData, seq, count⟩ s

/-- `HDR.ACK` (30_encoding.md R76: `UnsupportedOpCode`, once the version is right). -/
def execHdrAck (version seq : Byte) (count : Word16) (s : State) : Host.Outcome State Fault Refusal :=
  onHeader ⟨version, Config.opAck, seq, count⟩ s

/-- `HDR.NACK` (30_encoding.md R76: `UnsupportedOpCode`, once the version is right). -/
def execHdrNack (version seq : Byte) (count : Word16) (s : State) : Host.Outcome State Fault Refusal :=
  onHeader ⟨version, Config.opNack, seq, count⟩ s

/-- `HDR.RESERVED` (30_encoding.md R76: `UnsupportedOpCode`, once the version is right). -/
def execHdrReserved (opCode version seq : Byte) (count : Word16) (s : State) : Host.Outcome State Fault Refusal :=
  onHeader ⟨version, opCode, seq, count⟩ s

/-- `REC.CLASSIC.DATA` (30_encoding.md R73; 43_decode.md R151, R164). -/
def execRecClassicData (id : Word32) (eff : BitVec 7) (data : List Byte) (s : State) : Host.Outcome State Fault Refusal :=
  onRecord ⟨id, lengthByte false eff, none, data⟩ s

/-- `REC.CLASSIC.RTR` (30_encoding.md R73; 43_decode.md R157, R164). -/
def execRecClassicRtr (id : Word32) (eff : BitVec 7) (s : State) : Host.Outcome State Fault Refusal :=
  onRecord ⟨id, lengthByte false eff, none, []⟩ s

/-- `REC.FD.DATA` (30_encoding.md R73; 43_decode.md R151, R164). -/
def execRecFdData (id : Word32) (eff : BitVec 7) (flags : Byte) (data : List Byte) (s : State) :
    Host.Outcome State Fault Refusal :=
  onRecord ⟨id, lengthByte true eff, some flags, data⟩ s

/-- `REC.FD.RTR` (30_encoding.md R73; 43_decode.md R157, R164). -/
def execRecFdRtr (id : Word32) (eff : BitVec 7) (flags : Byte) (s : State) : Host.Outcome State Fault Refusal :=
  onRecord ⟨id, lengthByte true eff, some flags, []⟩ s

end Sys2Proof.Machine
end

