-- ==== Sys2Proof/Machine/Dispatch.lean ====
section
/-! DEFINITION. One arm per constructor of Instr. -/

namespace Sys2Proof.Machine

def exec (i : Instr) (s : State) : Host.Outcome State Fault Refusal :=
  match i with
  | .hdrData version seq count => Sys2Proof.Machine.execHdrData version seq count s
  | .hdrAck version seq count => Sys2Proof.Machine.execHdrAck version seq count s
  | .hdrNack version seq count => Sys2Proof.Machine.execHdrNack version seq count s
  | .hdrReserved opCode version seq count => Sys2Proof.Machine.execHdrReserved opCode version seq count s
  | .recClassicData id eff data => Sys2Proof.Machine.execRecClassicData id eff data s
  | .recClassicRtr id eff => Sys2Proof.Machine.execRecClassicRtr id eff s
  | .recFdData id eff flags data => Sys2Proof.Machine.execRecFdData id eff flags data s
  | .recFdRtr id eff flags => Sys2Proof.Machine.execRecFdRtr id eff flags s
  | .enq q f => Sys2Proof.Machine.execEnq q f s
  | .deq q => Sys2Proof.Machine.execDeq q s
  | .peek q => Sys2Proof.Machine.execPeek q s
  | .stat q => Sys2Proof.Machine.execStat q s
  | .encode q mtuLimit => Sys2Proof.Machine.execEncode q mtuLimit s
  | .decode q input => Sys2Proof.Machine.execDecode q input s
  | .txstep => Sys2Proof.Machine.execTxstep s
  | .rxstep => Sys2Proof.Machine.execRxstep s
  | .flush => Sys2Proof.Machine.execFlush s
  | .tick => Sys2Proof.Machine.execTick s
  | .rdcnt k => Sys2Proof.Machine.execRdcnt k s
  | .init c => Sys2Proof.Machine.execInit c s
  | .reservedOp0 x => Sys2Proof.Machine.execReservedOp0 x s
  | .reservedOpC x => Sys2Proof.Machine.execReservedOpC x s
  | .reservedOpD x => Sys2Proof.Machine.execReservedOpD x s
  | .reservedOpE x => Sys2Proof.Machine.execReservedOpE x s
  | .reservedRdcnt7 => Sys2Proof.Machine.execReservedRdcnt7 s
  | .efflen f => Sys2Proof.Machine.execEfflen f s
  | .isfd f => Sys2Proof.Machine.execIsfd f s
  | .isrtr f => Sys2Proof.Machine.execIsrtr f s
  | .wiresize f => Sys2Proof.Machine.execWiresize f s
  | .record f => Sys2Proof.Machine.execRecord f s

end Sys2Proof.Machine
end

