-- ==== Sys2Proof/Machine/Fetch.lean ====
section
/-! DEFINITION. What the next step works on: the next header or record of the DECODE in progress, the next inbound datagram,
or the next command of the request port (20_memory.md R64; 60_exceptions.md R204; log 10, log 11). -/

namespace Sys2Proof.Machine

/-- What a fetch finds, each with the state after what it consumes. -/
inductive Fetched where
  /-- An instruction to run. -/
  | run (i : Instr) (s : State)
  /-- The DECODE in progress stands at bytes that give no header or no record: it ends with this status (43_decode.md R151
  checks 1, (a), (a'), (b), (c)). -/
  | fail (st : Status) (n : Nat) (s : State)
  /-- A reserved command word with no row of its own (30_encoding.md R86). -/
  | reserved (s : State)
  /-- Nothing to run: no request is complete, or a DECODE has just been opened (70_reset_and_hazards.md R232). -/
  | idle (s : State)
  /-- Bytes that the spec gives no effect. -/
  | refuse (r : Refusal)

/-- The next header or record of the DECODE in progress `d` (43_decode.md R151). -/
def State.fetchWire (s : State) (d : Session) : Fetched :=
  match d.stage with
  | .header =>
    match readHeader d.rest with
    | some (h, rest) => .run (headerInstr h) { s with session := some { d with rest := rest } }
    | none => .fail .malformed d.enqueued { s with session := none }
  | .records _ _ =>
    match readRecord s.settings.rtrBit d.rest with
    | .ok (f, rest) => .run (recordInstr s.settings.rtrBit f) { s with session := some { d with rest := rest } }
    | .error st => .fail st d.enqueued { s with session := none }

/-- The next command of the request port; a command whose bytes are not all there waits (log 16). -/
def State.fetchCommand (s : State) : Fetched :=
  match decodeCommand s.request with
  | .ok (i, rest) => .run i { s with request := rest }
  | .error .incomplete => .idle s
  | .error .reserved => .reserved { s with request := s.request.drop 1 }
  | .error .badInitOperand => .refuse .badInitOperand

/-- The network-receive agent takes the next inbound datagram: a DECODE of it into TXQ is opened (44_scheduler.md R182); not
before the first INIT (70_reset_and_hazards.md R231), nor for an input over `MAX_DGRAM` (93 U19). -/
def State.fetchInbound (s : State) : Fetched :=
  match s.inbound with
  | [] => .idle s
  | d :: ds =>
    if !s.ready then .refuse .beforeInit
    else if d.length ≤ Config.maxDgram then
      .idle { s with inbound := ds, session := some ⟨d.length, d, .header, 0⟩ }
    else .refuse .inputTooLong

/-- Where no turn says who moves: the request port where a command stands there, else the receive port (log 11). -/
def State.fetchUnscheduled (s : State) : Fetched :=
  match s.fetchCommand with
  | .idle _ => s.fetchInbound
  | r => r

/-- The DECODE in progress goes on to its end before anything else (20_memory.md R59); else the next turn says who moves. -/
def State.fetch (s : State) : Fetched :=
  match s.session with
  | some d => if s.ready then s.fetchWire d else .refuse .beforeInit
  | none =>
    match s.turns with
    | .tick :: ts => { s with turns := ts }.fetchCommand
    | .net :: ts => { s with turns := ts }.fetchInbound
    | [] => s.fetchUnscheduled

/-- Put the command with word `w` at the front of the request port, to be taken next (log 15). -/
def State.withCommandWord (s : State) (w : Nat) : State :=
  { s with session := none, turns := .tick :: s.turns, request := tableCommandBytes w ++ s.request }

/-- Open a DECODE that stands at the header with word `w` (log 15). -/
def State.withHeaderWord (s : State) (w : Nat) : State :=
  { s with session := some ⟨Config.hdrSize, wordBytes w, .header, 0⟩ }

/-- Open a DECODE that stands at its only record, with prefix `w` and zero bytes after it (log 15). -/
def State.withRecordWord (s : State) (w : Nat) : State :=
  { s with session := some ⟨Config.hdrSize + Config.recMax, tableRecordBytes w, .records 1 0, 0⟩ }

/-- The instruction with table word `w` placed where the next step takes its instruction from (log 15). -/
def State.withTableWord (s : State) (nbits w : Nat) : State :=
  match tableFormat nbits with
  | .command => s.withCommandWord w
  | .header => s.withHeaderWord w
  | .record => s.withRecordWord w
  | .none => s

end Sys2Proof.Machine
end

