-- ==== Sys2Proof/Machine/Step.lean ====
section
/-! DEFINITION. One step of the block. -/

namespace Sys2Proof.Machine

/-- Run what the fetch finds. -/
def step (s : State) : Host.Outcome State Fault Refusal :=
  match s.fetch with
  | .run i t => exec i t
  | .fail st n t => .next (t.endDecode st n)
  | .reserved t => .next t.answerIllegal
  | .idle t => .next t
  | .refuse r => .refused r

/-- The instruction with table word `w` placed where the next step takes its instruction from (log 15). -/
def State.withFetchWord (s : State) (nbits w : Nat) : State := s.withTableWord nbits w

end Sys2Proof.Machine
end

