-- ==== Sys2Proof/Safety.lean ====
section
/-! DEFINITION. What counts as a good run (60_exceptions.md R211) and as a good state (10_state.md R21, R25). -/

namespace Sys2Proof.Machine

/-- How the spec classes a status (60_exceptions.md R211). -/
inductive StatusClass where
  | normal
  | fault
  | refusal
deriving DecidableEq, Repr

/-- The class of each status (60_exceptions.md R211). -/
def statusClass : Status → StatusClass
  | .ok => .normal
  | .full => .normal
  | .empty => .normal
  | .malformed => .normal
  | .versionMismatch => .normal
  | .unsupportedOpCode => .normal
  | .truncated => .normal
  | .allocationFailure => .normal
  | .badFrame => .fault
  | .illegalCommand => .refusal

/-- The code of a status on the response port (60_exceptions.md R200). -/
def statusCode : Status → Nat
  | .ok => 0
  | .full => 1
  | .empty => 2
  | .malformed => 3
  | .versionMismatch => 4
  | .unsupportedOpCode => 5
  | .truncated => 6
  | .allocationFailure => 7
  | .badFrame => 8
  | .illegalCommand => 9

/-- The status an answer carries; an operation that does not fail answers `Ok` (60_exceptions.md R200, R201). -/
def responseStatus : Response → Status
  | .done => .ok
  | .status st => st
  | .frame st _ => st
  | .flags _ _ _ => .ok
  | .encoded _ _ _ => .ok
  | .decoded st _ => st
  | .counter _ => .ok
  | .effLen _ => .ok
  | .bit _ => .ok
  | .size _ => .ok
  | .bytes _ => .ok

/-- The statuses that an event tells of. A poll of the bus receive port carries none; each ill-formed frame that the
environment gave there is one `BadFrame`, the breach of its duty that R211 classes (44_scheduler.md R184; log 9). -/
def eventStatuses : Event → List Status
  | .response r => [responseStatus r]
  | .polled frames => (frames.filter fun f => !f.wf).map fun _ => .badFrame
  | .send _ => []
  | .offer _ _ => []
  | .release => []

/-- The statuses told of between two states of a run. -/
def newStatuses (s t : State) : List Status := (t.events.drop s.events.length).flatMap eventStatuses

/-- `step` with the spec's classes of R211: a step that shows `BadFrame` is a fault, one that shows `IllegalCommand` a
refusal. `step` itself answers them and goes on, as the block does (60_exceptions.md R202; log 8, log 9). -/
def strictStep (s : State) : Host.Outcome State Fault Refusal :=
  match step s with
  | .next t =>
    if Status.badFrame ∈ newStatuses s t then .fault .badFrame
    else if Status.illegalCommand ∈ newStatuses s t then .refused .illegalCommand
    else .next t
  | .fault r => .fault r
  | .refused r => .refused r

/-- A queue as the rules leave it (10_state.md R21, R25; 20_memory.md R54): legal capacity, indices in range, the slot array
in its canonical form, every written slot well-formed, every live slot written. -/
structure Queue.Ok (rtr : Fin 32) (q : Queue) : Prop where
  two_le : 2 ≤ q.size
  head_lt : q.head < q.size
  tail_lt : q.tail < q.size
  slots_wf : q.slots.wf
  slots_lt : ∀ p ∈ q.slots, p.1 < q.size
  slots_ok : ∀ p ∈ q.slots, p.2.ok rtr = true
  live : ∀ k < q.occ, (q.slots.get ((q.head + k) % q.size)).isSome = true

/-- A DECODE in progress as the rules leave it (10_state.md R34; 43_decode.md R159, R165): the cursor inside the input, and
every record done so far enqueued. -/
def Session.Ok (d : Session) : Prop :=
  d.rest.length ≤ d.total ∧ d.total ≤ Config.maxDgram ∧
    match d.stage with
    | .header => d.enqueued = 0
    | .records count index => index < count ∧ d.enqueued = index

/-- An initialised block between two steps. -/
structure State.Sound (s : State) : Prop where
  rxq_ok : s.rxq.Ok s.settings.rtrBit
  txq_ok : s.txq.Ok s.settings.rtrBit
  phase_tx : s.phase = .tx
  session_ok : ∀ d, s.session = some d → d.Ok

/-- The invariant of every step: nothing is known before the first INIT (70_reset_and_hazards.md R231), and after it the
block is sound. -/
def State.Inv (s : State) : Prop := s.ready = true → s.Sound

end Sys2Proof.Machine
end

