-- ==== Sys2Proof/Certificates/Slice0/Obligations.lean ====
section
/-! DEFINITION. The statements for the provers, and the few words they are written in. -/

namespace Sys2Proof.Machine

/-! ## Words the statements use -/

/-- The state with these events put out after the others. -/
def State.plus (s : State) (es : List Event) : State := { s with events := s.events ++ es }

/-- The events that a DECODE ends with (43_decode.md R163). -/
def decodeEvents (st : Status) (n : Nat) : List Event := [.release, .response (.decoded st n)]

/-- A reserved command word, by its three fields (30_encoding.md R86). -/
def isReservedWord (w : Byte) : Bool :=
  let op := w.toNat / 16
  let q := w.toNat / 8 % 2
  let k := w.toNat % 8
  op == 0 || op == 12 || op == 13 || op == 14 || (decide (7 ≤ op) && q == 1) || (op != 11 && k != 0) || (op == 11 && k == 7)

/-- The bytes of the records of some frames, one after the other. -/
def recordsOf (fs : List SigFrame) : List Byte := fs.flatMap SigFrame.record

/-- The header of a data datagram (30_encoding.md R70, R71). -/
def dataHeader (version seq : Byte) (count : Nat) : List Byte :=
  [version, 0, seq, BitVec.ofNat 8 (count / 256), BitVec.ofNat 8 count]

/-- A datagram that carries these frames (30_encoding.md R75). -/
def datagramOf (version seq : Byte) (fs : List SigFrame) : List Byte := dataHeader version seq fs.length ++ recordsOf fs

/-- The datagrams of some groups of frames, with consecutive sequence numbers. -/
def datagramsOf (version : Byte) : Byte → List (List SigFrame) → List (List Byte)
  | _, [] => []
  | seq, g :: gs => datagramOf version seq g :: datagramsOf version (seq + 1) gs

/-- The greedy grouping of 42_encode.md R141: each group fits the limit, and the first frame of the next group would not
have fitted. -/
def Greedy (limit : Nat) : List (List SigFrame) → Prop
  | [] => True
  | [g] => g ≠ [] ∧ 5 + (recordsOf g).length ≤ limit
  | g :: g' :: gs => g ≠ [] ∧ 5 + (recordsOf g).length ≤ limit ∧
      (∀ f ∈ g'.head?, limit < 5 + (recordsOf g).length + f.record.length) ∧ Greedy limit (g' :: gs)

/-- A direct move on a queue: enqueue, dequeue or peek (41_queue.md R118). -/
inductive QueueMove where
  | enq (f : Frame)
  | deq
  | peek
deriving DecidableEq, Repr

/-- The command of a move. -/
def QueueMove.instr (q : QueueId) : QueueMove → Instr
  | .enq f => .enq q f
  | .deq => .deq q
  | .peek => .peek q

/-- Some instructions, one after the other, each to its next state. -/
def execAll : List Instr → State → Option State
  | [], s => some s
  | i :: is, s =>
    match exec i s with
    | .next t => execAll is t
    | .fault _ => none
    | .refused _ => none

/-- The bounded FIFO that 41_queue.md R118 describes: what a move makes of the list of frames held, of which there are at
most `cap`, and what it answers. -/
def fifoMove (rtr : Fin 32) (cap : Nat) (c : List SigFrame) : QueueMove → List SigFrame × Status × Option SigFrame
  | .enq f => if c.length = cap then (c, .full, none) else (c ++ [f.sig rtr], .ok, none)
  | .deq => match c with
    | [] => ([], .empty, none)
    | g :: rest => (rest, .ok, some g)
  | .peek => match c with
    | [] => ([], .empty, none)
    | g :: rest => (g :: rest, .ok, some g)

/-- Several moves on the bounded FIFO: the frames held at the end and the answers in order. -/
def fifoMoves (rtr : Fin 32) (cap : Nat) : List SigFrame → List QueueMove → List SigFrame × List (Status × Option SigFrame)
  | c, [] => (c, [])
  | c, m :: ms =>
    let r := fifoMove rtr cap c m
    let t := fifoMoves rtr cap r.1 ms
    (t.1, r.2 :: t.2)

/-- What an answer shows of a queue: its status, and the significant fields of the Frame of an `Ok` answer. -/
def answerShown (rtr : Fin 32) : Event → Option (Status × Option SigFrame)
  | .response (.status st) => some (st, none)
  | .response (.frame st f) => some (st, if st = .ok then some (f.sig rtr) else none)
  | _ => none

/-- The buffer releases among some events. -/
def releaseCount (es : List Event) : Nat := es.countP fun e => e == .release

/-- The answers of DECODE among some events. -/
def decodedCount (es : List Event) : Nat :=
  es.countP fun e => match e with
    | .response (.decoded _ _) => true
    | _ => false

/-- The counter that a DECODE into this queue moves when it ends with this status (43_decode.md R162). -/
def counterOf (q : QueueId) : Status → Option (Fin 7)
  | .full => match q with
    | .rxq => some 0
    | .txq => some 1
  | .malformed => some 2
  | .versionMismatch => some 3
  | .unsupportedOpCode => some 4
  | .truncated => some 5
  | _ => none

/-- The state without the `Ok` answers that carry no result. -/
def State.quiet (s : State) : State := { s with events := s.events.filter fun e => e != .response .done }

/-- The instructions that act on the block's state and so wait for the first INIT (70_reset_and_hazards.md R231). -/
def needsInit : Instr → Bool
  | .enq _ _ | .deq _ | .peek _ | .stat _ | .encode _ _ | .decode _ _ | .txstep | .rxstep | .flush | .tick | .rdcnt _ => true
  | _ => false

/-- The instructions that can take a frame out of a queue: DEQ and ENCODE of it, the steps of its consumer, and INIT
(10_state.md R27, R32). -/
def dequeues : QueueId → Instr → Bool
  | q, .deq q' => q == q'
  | q, .encode q' _ => q == q'
  | q, .txstep => q == .txq
  | q, .flush => q == .rxq
  | _, .tick => true
  | _, .init _ => true
  | _, _ => false

end Sys2Proof.Machine

open Sys2Proof Sys2Proof.Machine

/-! ## Encodings -/

/-- Every command decodes from its own bytes, with every operand at every value its encoding admits (30_encoding.md R85). -/
def Obligations.CommandDecodesFromItsBytes : Prop :=
  ∀ (rtr : Fin 32) (i : Instr) (rest : List Byte), WellFormed rtr i = true → instrFormat i = .command →
    decodeCommand (encode i ++ rest) = .ok (i, rest)

/-- The other direction: bytes that decode to a command are that command's bytes and then the rest, and the command is
well-formed. -/
def Obligations.CommandBytesHaveOneMeaning : Prop :=
  ∀ (rtr : Fin 32) (bs rest : List Byte) (i : Instr), decodeCommand bs = .ok (i, rest) →
    WellFormed rtr i = true ∧ instrFormat i = .command ∧ bs = encode i ++ rest

/-- Every header row is read back from its bytes (30_encoding.md R70, R76). -/
def Obligations.HeaderDecodesFromItsBytes : Prop :=
  ∀ (rtr : Fin 32) (i : Instr) (rest : List Byte), WellFormed rtr i = true → instrFormat i = .header →
    ∃ h, readHeader (encode i ++ rest) = some (h, rest) ∧ headerInstr h = i

/-- Every record row is read back from its bytes, for every `RTR_BIT` (30_encoding.md R72, R73). -/
def Obligations.RecordDecodesFromItsBytes : Prop :=
  ∀ (rtr : Fin 32) (i : Instr) (rest : List Byte), WellFormed rtr i = true → instrFormat i = .record →
    ∃ f, readRecord rtr (encode i ++ rest) = .ok (f, rest) ∧ recordInstr rtr f = i ∧ recordOf i = some f

/-- The other direction: a record that was read is a well-formed row, and its bytes stand at the front of the input. -/
def Obligations.RecordBytesHaveOneMeaning : Prop :=
  ∀ (rtr : Fin 32) (bs rest : List Byte) (f : SigFrame), readRecord rtr bs = .ok (f, rest) →
    WellFormed rtr (recordInstr rtr f) = true ∧ bs = encode (recordInstr rtr f) ++ rest

/-- Words written out from 30_encoding.md R70, R73, R85 and read by the decoder: `DEQ TXQ`, `ENCODE RXQ mtu=1500`,
`RDCNT 6`, `TICK`, a data header with count 3, an FD RTR record. -/
def Obligations.WrittenWordsDecode : Prop :=
  decodeCommand [0b00101000] = .ok (.deq .txq, []) ∧
  decodeCommand [0b01010000, 0x05, 0xDC] = .ok (.encode .rxq 1500, []) ∧
  decodeCommand [0b10110110] = .ok (.rdcnt 6, []) ∧
  decodeCommand [0b10100000] = .ok (.tick, []) ∧
  (readHeader [0x02, 0x00, 0x07, 0x00, 0x03]).map (fun r => headerInstr r.1) = some (.hdrData 2 7 3) ∧
  readRecord 30 [0x40, 0x00, 0x01, 0x00, 0x84, 0x03] = .ok (⟨0x40000100, 0x84, some 3, []⟩, [])

/-- The checks of a record in their order (a), (a'), (b), (c), each on the bytes that remain (43_decode.md R153, R156), with
`len` the fifth byte and the RTR bit that of the first four. -/
def Obligations.RecordChecksAreMadeInOrder : Prop :=
  ∀ (rtr : Fin 32) (bs : List Byte),
    let id := be32 (bs.getD 0 0) (bs.getD 1 0) (bs.getD 2 0) (bs.getD 3 0)
    let eff := (bs.getD 4 0).toNat % 128
    let fd := (bs.getD 4 0).toNat / 128
    let data := if id.getLsbD rtr then 0 else eff
    (bs.length < 5 → readRecord rtr bs = .error .truncated) ∧
    (5 ≤ bs.length → 64 < eff → readRecord rtr bs = .error .malformed) ∧
    (5 ≤ bs.length → eff ≤ 64 → bs.length < 5 + fd → readRecord rtr bs = .error .truncated) ∧
    (5 ≤ bs.length → eff ≤ 64 → 5 + fd ≤ bs.length → bs.length < 5 + fd + data →
      readRecord rtr bs = .error .truncated) ∧
    (5 ≤ bs.length → eff ≤ 64 → 5 + fd + data ≤ bs.length →
      readRecord rtr bs = .ok (⟨id, bs.getD 4 0, if fd = 1 then some (bs.getD 5 0) else none,
        (bs.drop (5 + fd)).take data⟩, bs.drop (5 + fd + data)))

/-- `RECORD` of a well-formed Frame spelled out, and injective up to `sig_eq` (40_frame.md R105). -/
def Obligations.RecordIsInjectiveUpToSigEq : Prop :=
  ∀ (rtr : Fin 32) (f g : Frame), f.wf = true → g.wf = true →
    f.record rtr = be32Bytes f.id ++ [f.length] ++ (if f.length.getLsbD 7 then [f.fdFlags] else []) ++
      (if f.id.getLsbD rtr then [] else f.data.toList.take (f.length.toNat % 128)) ∧
    (f.record rtr).length = f.wireSize rtr ∧
    (f.record rtr = g.record rtr ↔ f.sigEq rtr g = true)

/-! ## Accessors -/

/-- Each accessor answers its value and changes nothing else (40_frame.md R100 to R105): for every Frame, but `RECORD` for
every well-formed one, which is all its rule gives. -/
def Obligations.AccessorsAnswerTheirValue : Prop :=
  ∀ (s : State) (f : Frame),
    exec (.efflen f) s = .next (s.plus [.response (.effLen (BitVec.ofNat 7 f.length.toNat))]) ∧
    exec (.isfd f) s = .next (s.plus [.response (.bit (decide (128 ≤ f.length.toNat)))]) ∧
    (s.ready = true →
      exec (.isrtr f) s = .next (s.plus [.response (.bit (f.id.toNat.testBit s.settings.rtrBit))]) ∧
      exec (.wiresize f) s = .next (s.plus [.response (.size
        (5 + f.length.toNat / 128 + if f.id.toNat.testBit s.settings.rtrBit then 0 else f.length.toNat % 128))]) ∧
      (f.length.toNat % 128 ≤ 64 → exec (.record f) s = .next (s.plus [.response (.bytes
        (be32Bytes f.id ++ [f.length] ++ (if 128 ≤ f.length.toNat then [f.fdFlags] else []) ++
          (if f.id.toNat.testBit s.settings.rtrBit then [] else f.data.toList.take (f.length.toNat % 128))))])))

/-- `RECORD` of a Frame that is not well-formed, which its rule leaves out, answers some byte string and changes nothing else
(the model's choice, log 14). -/
def Obligations.RecordOfIllFormedFrameIsFree : Prop :=
  ∀ (s : State) (f : Frame), s.ready = true → f.wf = false →
    ∃ bs, exec (.record f) s = .next { s.plus [.response (.bytes bs)] with draws := s.draws + 1 }

/-- `WIRESIZE` is between 5 and 133, and between 5 and 70 for a well-formed Frame, of which it is the number of bytes of the
record (40_frame.md R104). -/
def Obligations.WireSizeIsTheRecordLength : Prop :=
  ∀ (rtr : Fin 32) (f : Frame),
    f.wireSize rtr = 4 + 1 + f.isFd.toNat + (if f.isRtr rtr then 0 else f.effLen.toNat) ∧ 5 ≤ f.wireSize rtr ∧ f.wireSize rtr ≤ 133 ∧
    (f.wf = true → f.wireSize rtr ≤ 70 ∧ (f.record rtr).length = f.wireSize rtr)

/-! ## Queues -/

/-- `FULL` is `N-1` frames held, `EMPTY` is none, never both, and the index registers fit `IDX_W(N)` bits
(10_state.md R24 to R26; 41_queue.md R118). -/
def Obligations.FlagsTellTheOccupancy : Prop :=
  ∀ (rtr : Fin 32) (q : Queue), q.Ok rtr →
    (q.isFull = true ↔ (q.content rtr).length = q.size - 1) ∧ (q.isEmpty = true ↔ q.content rtr = []) ∧
    (q.content rtr).length ≤ q.size - 1 ∧ ¬(q.isFull = true ∧ q.isEmpty = true) ∧
    q.head < 2 ^ idxWidth q.size ∧ q.tail < 2 ^ idxWidth q.size

/-- ENQ of a well-formed Frame into a queue with room appends it: the slot at `tail` and `tail` change and nothing else of
the queue, nothing else of the state but the answer (41_queue.md R111). -/
def Obligations.EnqAppendsAtTail : Prop :=
  ∀ (s : State) (q : QueueId) (f : Frame), s.ready = true → (s.queue q).Ok s.settings.rtrBit → f.wf = true →
    (s.queue q).isFull = false →
    ∃ t, exec (.enq q f) s = .next t ∧
      t = (s.setQueue q (t.queue q)).plus [.response (.status .ok)] ∧
      (t.queue q).content s.settings.rtrBit = (s.queue q).content s.settings.rtrBit ++ [f.sig s.settings.rtrBit] ∧
      (t.queue q).tail = ((s.queue q).tail + 1) % (s.queue q).size ∧ (t.queue q).head = (s.queue q).head ∧
      (t.queue q).size = (s.queue q).size ∧ (t.queue q).drop = (s.queue q).drop ∧
      ∀ i, i ≠ (s.queue q).tail → (t.queue q).slots.get i = (s.queue q).slots.get i

/-- ENQ of a well-formed Frame into a full queue answers `Full` and counts one drop; of an ill-formed Frame it answers
`BadFrame`, full or not, and counts nothing (41_queue.md R111, R112; the run goes on: log 9). -/
def Obligations.EnqRefusesFullAndBadFrame : Prop :=
  ∀ (s : State) (q : QueueId) (f : Frame), s.ready = true →
    (f.wf = true → (s.queue q).isFull = true → exec (.enq q f) s =
      .next ((s.setQueue q { s.queue q with drop := (s.queue q).drop + 1 }).plus [.response (.status .full)])) ∧
    (f.wf = false → exec (.enq q f) s = .next (s.plus [.response (.status .badFrame)]))

/-- DEQ of a queue that holds a frame answers the oldest one, up to `sig_eq`, and advances `head`; nothing else changes
(41_queue.md R113). -/
def Obligations.DeqTakesTheOldest : Prop :=
  ∀ (s : State) (q : QueueId) (g : SigFrame) (rest : List SigFrame), s.ready = true →
    (s.queue q).Ok s.settings.rtrBit → (s.queue q).content s.settings.rtrBit = g :: rest →
    ∃ t f, exec (.deq q) s = .next t ∧ f.sig s.settings.rtrBit = g ∧
      t = { (s.setQueue q { s.queue q with head := ((s.queue q).head + 1) % (s.queue q).size }).plus
        [.response (.frame .ok f)] with draws := s.draws + 1 } ∧
      (t.queue q).content s.settings.rtrBit = rest

/-- PEEK of a queue that holds a frame answers the oldest one, up to `sig_eq`, and changes nothing (41_queue.md R114). -/
def Obligations.PeekShowsTheOldest : Prop :=
  ∀ (s : State) (q : QueueId) (g : SigFrame) (rest : List SigFrame), s.ready = true →
    (s.queue q).Ok s.settings.rtrBit → (s.queue q).content s.settings.rtrBit = g :: rest →
    ∃ f, f.sig s.settings.rtrBit = g ∧
      exec (.peek q) s = .next { s.plus [.response (.frame .ok f)] with draws := s.draws + 1 }

/-- DEQ and PEEK of an empty queue answer `Empty` with a Frame of which nothing is said, and change nothing
(41_queue.md R113, R114). -/
def Obligations.EmptyQueueAnswersEmpty : Prop :=
  ∀ (s : State) (q : QueueId), s.ready = true → (s.queue q).isEmpty = true →
    ∃ f, exec (.deq q) s = .next { s.plus [.response (.frame .empty f)] with draws := s.draws + 1 } ∧
      exec (.peek q) s = .next { s.plus [.response (.frame .empty f)] with draws := s.draws + 1 }

/-- STAT answers the flags and the occupancy of the content and changes nothing (41_queue.md R115). -/
def Obligations.StatReadsTheFlags : Prop :=
  ∀ (s : State) (q : QueueId), s.ready = true → (s.queue q).Ok s.settings.rtrBit →
    let c := (s.queue q).content s.settings.rtrBit
    exec (.stat q) s = .next (s.plus [.response
      (.flags (decide (c = [])) (decide (c.length = (s.queue q).size - 1)) c.length)])

/-- For all sequences of moves a queue is the bounded FIFO of its content, with the same answers; it never holds more than
`N-1` frames (41_queue.md R118). -/
def Obligations.QueueIsBoundedFifo : Prop :=
  ∀ (s : State) (q : QueueId) (ms : List QueueMove), s.ready = true → (s.queue q).Ok s.settings.rtrBit →
    (∀ f, QueueMove.enq f ∈ ms → f.wf = true) →
    let c := (s.queue q).content s.settings.rtrBit
    let r := fifoMoves s.settings.rtrBit ((s.queue q).size - 1) c ms
    ∃ t, execAll (ms.map (QueueMove.instr q)) s = some t ∧
      (t.queue q).content s.settings.rtrBit = r.1 ∧ r.1.length ≤ (s.queue q).size - 1 ∧
      (t.events.drop s.events.length).filterMap (answerShown s.settings.rtrBit) = r.2

/-- A PEEK followed by a DEQ of the same queue, with any instructions in between that dequeue nothing from it, answers the
same Frame up to `sig_eq` (20_memory.md R63). -/
def Obligations.PeekThenDeqIsStable : Prop :=
  ∀ (s p u : State) (q : QueueId) (is : List Instr), s.ready = true → (s.queue q).Ok s.settings.rtrBit →
    (s.queue q).isEmpty = false → (∀ i ∈ is, dequeues q i = false) → exec (.peek q) s = .next p →
    execAll is p = some u →
    ∃ f g v, p.events = s.events ++ [.response (.frame .ok f)] ∧
      exec (.deq q) u = .next v ∧ v.events = u.events ++ [.response (.frame .ok g)] ∧
      f.sigEq s.settings.rtrBit g = true

/-! ## ENCODE -/

/-- ENCODE takes the longest run of frames from the front that fits and writes exactly their records, in order, behind a
header with their number and the old `SEQ`; then `SEQ` is one more. Where the first frame does not fit, nothing happens
(42_encode.md R133 to R138). -/
def Obligations.EncodeTakesTheLongestRunThatFits : Prop :=
  ∀ (s : State) (q : QueueId) (m : Word16), s.ready = true → (s.queue q).Ok s.settings.rtrBit →
    let c := (s.queue q).content s.settings.rtrBit
    ∃ t n, exec (.encode q m) s = .next t ∧ n ≤ c.length ∧
      (t.queue q).content s.settings.rtrBit = c.drop n ∧
      (n = 0 → t = s.plus [.response (.encoded 0 0 [])]) ∧
      (0 < n →
        let out := datagramOf s.settings.version s.seq (c.take n)
        out.length ≤ m.toNat ∧
        t = { (s.setQueue q { s.queue q with head := ((s.queue q).head + n) % (s.queue q).size }).plus
          [.response (.encoded out.length n out)] with seq := s.seq + 1 }) ∧
      (∀ f rest, c.drop n = f :: rest → m.toNat < 5 + (recordsOf (c.take n)).length + f.record.length)

/-- The bounds on ENCODE's results (42_encode.md R139). -/
def Obligations.EncodeResultsAreBounded : Prop :=
  ∀ (s t : State) (q : QueueId) (m : Word16) (b n : Nat) (out : List Byte), (s.queue q).Ok s.settings.rtrBit →
    exec (.encode q m) s = .next t → t.events = s.events ++ [.response (.encoded b n out)] →
    b ≤ m.toNat ∧ out.length = b ∧ n ≤ (s.queue q).occ ∧ n ≤ (s.queue q).size - 1 ∧ n ≤ (m.toNat - 5) / 5 ∧ n ≤ 13106

/-- No datagram from an empty queue, nor where the frame at the head alone does not fit, which includes every limit below
10: the answer is (0, 0) and nothing changes (42_encode.md R138). -/
def Obligations.NoEmptyDatagram : Prop :=
  ∀ (s : State) (q : QueueId) (m : Word16), s.ready = true → (s.queue q).Ok s.settings.rtrBit →
    ((s.queue q).content s.settings.rtrBit = [] ∨ m.toNat < 10 ∨
      ∃ f rest, (s.queue q).content s.settings.rtrBit = f :: rest ∧ m.toNat < 5 + f.record.length) →
    exec (.encode q m) s = .next (s.plus [.response (.encoded 0 0 [])])

/-- What ENCODE produces from RXQ, DECODE accepts into TXQ with room for it, and TXQ then holds the same frames in the same
order; no counter moves (30_encoding.md R79). -/
def Obligations.EncodeThenDecodeRoundTrip : Prop :=
  ∀ (s t : State) (m : Word16) (b n : Nat) (out : List Byte), s.ready = true → s.rxq.Ok s.settings.rtrBit →
    s.txq.Ok s.settings.rtrBit → exec (.encode .rxq m) s = .next t →
    t.events = s.events ++ [.response (.encoded b n out)] → 0 < n → s.txq.occ + n < s.txq.size →
    ∃ u, exec (.decode .txq out) t = .next u ∧ u.events = t.events ++ decodeEvents .ok n ∧
      u.txq.content s.settings.rtrBit =
        s.txq.content s.settings.rtrBit ++ (s.rxq.content s.settings.rtrBit).take n ∧
      ∀ k, u.counter k = s.counter k

/-! ## DECODE -/

/-- The four header checks in their order; a failure leaves the queues unchanged, moves one counter, releases the buffer and
answers (43_decode.md R151, R152, R162, R163). -/
def Obligations.DecodeChecksTheHeaderInOrder : Prop :=
  ∀ (s : State) (q : QueueId) (input : List Byte), s.ready = true → input.length ≤ 65535 →
    (input.length < 5 → exec (.decode q input) s =
      .next { s.plus (decodeEvents .malformed 0) with cntMalformed := s.cntMalformed + 1 }) ∧
    (5 ≤ input.length → input.getD 0 0 ≠ s.settings.version → exec (.decode q input) s =
      .next { s.plus (decodeEvents .versionMismatch 0) with cntVersion := s.cntVersion + 1 }) ∧
    (5 ≤ input.length → input.getD 0 0 = s.settings.version → input.getD 1 0 ≠ 0 → exec (.decode q input) s =
      .next { s.plus (decodeEvents .unsupportedOpCode 0) with cntOpcode := s.cntOpcode + 1 }) ∧
    (5 ≤ input.length → input.getD 0 0 = s.settings.version → input.getD 1 0 = 0 →
      be16 (input.getD 3 0) (input.getD 4 0) = 0 → exec (.decode q input) s =
      .next { s.plus (decodeEvents .malformed 0) with cntMalformed := s.cntMalformed + 1 })

/-- After a good header DECODE appends the frames of the first records and ends for one of three reasons: all `count`
records are done; the bytes of the next one fail their checks; the next one is good and the queue is full. Nothing is rolled
back; but for the queue, its drop counter, the counter of the status and the events the state is unchanged (43_decode.md R151,
R158 to R160; 60_exceptions.md R206). -/
def Obligations.DecodeKeepsTheRecordsBeforeTheEnd : Prop :=
  ∀ (s : State) (q : QueueId) (seq c0 c1 : Byte) (bs : List Byte), s.ready = true →
    (s.queue q).Ok s.settings.rtrBit → be16 c0 c1 ≠ 0 → bs.length ≤ 65530 →
    ∃ t fs rest st, exec (.decode q (s.settings.version :: 0 :: seq :: c0 :: c1 :: bs)) s = .next t ∧
      bs = recordsOf fs ++ rest ∧
      (t.queue q).content s.settings.rtrBit = (s.queue q).content s.settings.rtrBit ++ fs ∧
      (t.queue q).head = (s.queue q).head ∧
      t = { (s.setQueue q (t.queue q)).plus (decodeEvents st fs.length) with
        cntMalformed := t.cntMalformed, cntTruncated := t.cntTruncated } ∧
      ((st = .ok ∧ fs.length = (be16 c0 c1).toNat) ∨
       (fs.length < (be16 c0 c1).toNat ∧ readRecord s.settings.rtrBit rest = .error st) ∨
       (st = .full ∧ fs.length < (be16 c0 c1).toNat ∧ (t.queue q).isFull = true ∧
          ∃ r, readRecord s.settings.rtrBit rest = .ok r))

/-- A header that claims more records than are complete yields `Truncated` after exactly the complete ones were enqueued:
the bytes end inside the record of some well-formed frame `g` (43_decode.md R159). -/
def Obligations.TruncatedDatagramKeepsWholeRecords : Prop :=
  ∀ (s : State) (q : QueueId) (seq : Byte) (fs : List SigFrame) (g : SigFrame) (k count : Nat), s.ready = true →
    (s.queue q).Ok s.settings.rtrBit → (∀ f ∈ fs, f.ok s.settings.rtrBit = true) → g.ok s.settings.rtrBit = true →
    k < g.record.length → fs.length < count → count ≤ 65535 → (s.queue q).occ + fs.length < (s.queue q).size →
    5 + (recordsOf fs).length + k ≤ 65535 →
    ∃ t, exec (.decode q (dataHeader s.settings.version seq count ++ recordsOf fs ++ g.record.take k)) s = .next t ∧
      t.events = s.events ++ decodeEvents .truncated fs.length ∧
      (t.queue q).content s.settings.rtrBit = (s.queue q).content s.settings.rtrBit ++ fs ∧
      t.cntTruncated = s.cntTruncated + 1

/-- Each DECODE that fails moves exactly one counter by one, the one of its status, and one that ends `Ok` moves none
(43_decode.md R162). -/
def Obligations.OneCounterPerFailedDecode : Prop :=
  ∀ (s : State) (q : QueueId) (input : List Byte), s.ready = true → input.length ≤ 65535 →
    ∃ t st n, exec (.decode q input) s = .next t ∧ t.events = s.events ++ decodeEvents st n ∧
      ∀ k, t.counter k = s.counter k + if counterOf q st = some k then 1 else 0

/-- Every step releases as many buffers as it answers DECODEs, so each DECODE ends with exactly one release
(43_decode.md R163). -/
def Obligations.EveryDecodeReleasesOnce : Prop :=
  ∀ (s t : State), step s = .next t →
    releaseCount t.events + decodedCount s.events = releaseCount s.events + decodedCount t.events

/-! ## The wire rows, one item of a DECODE at a time -/

/-- A header row, where the DECODE in progress stands at its header: the version first, then the op_code, then the count; a
good data header opens the loop (30_encoding.md R76; 43_decode.md R152; log 10). -/
def Obligations.HeaderRowsCheckTheOpenDecode : Prop :=
  ∀ (s : State) (total n : Nat) (rest : List Byte) (op v seq : Byte) (count : Word16), s.ready = true →
    s.session = some ⟨total, rest, .header, n⟩ →
    let closed := { s with session := none }
    let wrongVersion := { closed.plus (decodeEvents .versionMismatch n) with cntVersion := s.cntVersion + 1 }
    let wrongOpCode := { closed.plus (decodeEvents .unsupportedOpCode n) with cntOpcode := s.cntOpcode + 1 }
    (v ≠ s.settings.version →
      exec (.hdrData v seq count) s = .next wrongVersion ∧ exec (.hdrAck v seq count) s = .next wrongVersion ∧
      exec (.hdrNack v seq count) s = .next wrongVersion ∧ exec (.hdrReserved op v seq count) s = .next wrongVersion) ∧
    (v = s.settings.version →
      exec (.hdrAck v seq count) s = .next wrongOpCode ∧ exec (.hdrNack v seq count) s = .next wrongOpCode ∧
      (op ≠ 0 → exec (.hdrReserved op v seq count) s = .next wrongOpCode) ∧
      (count = 0 → exec (.hdrData v seq count) s =
        .next { closed.plus (decodeEvents .malformed n) with cntMalformed := s.cntMalformed + 1 }) ∧
      (count ≠ 0 → exec (.hdrData v seq count) s =
        .next { s with session := some ⟨total, rest, .records count.toNat 0, n⟩ }))

/-- A record row, where the DECODE in progress stands in its loop: its frame is appended to TXQ and the loop goes on, or ends
after the last record; into a full TXQ the DECODE ends with `Full` and one drop (30_encoding.md R73; 43_decode.md R151,
R158, R164; log 10). -/
def Obligations.RecordRowsFeedTheOpenDecode : Prop :=
  ∀ (s : State) (i : Instr) (f : SigFrame) (total n count index : Nat) (rest : List Byte), s.ready = true →
    s.txq.Ok s.settings.rtrBit → instrFormat i = .record → WellFormed s.settings.rtrBit i = true → recordOf i = some f →
    s.session = some ⟨total, rest, .records count index, n⟩ →
    (s.txq.isFull = true → exec i s = .next ({ s with
      session := none, txq := { s.txq with drop := s.txq.drop + 1 } }.plus (decodeEvents .full n))) ∧
    (s.txq.isFull = false → ∃ t, exec i s = .next t ∧
      t.txq.content s.settings.rtrBit = s.txq.content s.settings.rtrBit ++ [f] ∧ t.txq.head = s.txq.head ∧
      t.txq.drop = s.txq.drop ∧
      (index + 1 < count → t = { s with
        txq := t.txq, session := some ⟨total, rest, .records count (index + 1), n + 1⟩ }) ∧
      (count ≤ index + 1 → t = { s with txq := t.txq, session := none }.plus (decodeEvents .ok (n + 1))))

/-- A wire row where no DECODE stands at one is refused (10_state.md R23; log 10). -/
def Obligations.WireRowsOutsideADatagramAreRefused : Prop :=
  ∀ (s : State) (i : Instr), s.session = none → instrFormat i = .header ∨ instrFormat i = .record →
    exec i s = .refused .outsideDatagram

/-- An inbound datagram that the network-receive agent runs item by item ends in the state of one DECODE of it into TXQ
(44_scheduler.md R182; 43_decode.md R151; log 10). -/
def Obligations.InboundDatagramRunsAsDecode : Prop :=
  ∀ (s : State) (d : List Byte) (ds : List (List Byte)) (ts : List Agent), s.ready = true → s.session = none →
    s.turns = .net :: ts → s.inbound = d :: ds → d.length ≤ 65535 →
    ∃ k t, Host.Core.run Sys2Proof.core k s = .next t ∧
      exec (.decode .txq d) { s with inbound := ds, turns := ts } = .next t

/-! ## The scheduler -/

/-- TXSTEP with a frame in TXQ and an answer lined up offers the oldest frame and dequeues it iff it is accepted
(44_scheduler.md R186), nothing cutting in. -/
def Obligations.TxStepDequeuesOnlyWhatIsAccepted : Prop :=
  ∀ (s : State) (a : Bool) (as : List Bool) (g : SigFrame) (rest : List SigFrame), s.ready = true →
    s.settings.busAttached = true → s.settings.discipline = .cooperative → s.txq.Ok s.settings.rtrBit →
    s.txq.content s.settings.rtrBit = g :: rest → s.accepted = a :: as →
    ∃ t f, exec .txstep s = .next t ∧ f.sig s.settings.rtrBit = g ∧
      t.txq.content s.settings.rtrBit = (if a then rest else g :: rest) ∧
      t = { s.plus [.offer f a, .response .done] with
        txq := if a then { s.txq with head := (s.txq.head + 1) % s.txq.size } else s.txq,
        accepted := as, draws := s.draws + 1 }

/-- Under either discipline, whatever cuts in between the offer and the dequeue, the frame that leaves TXQ is the one that was
offered; what cut in only appended (44_scheduler.md R186; 20_memory.md R59, R63). -/
def Obligations.TxStepTakesTheFrameItOffered : Prop :=
  ∀ (s : State) (g : SigFrame) (rest : List SigFrame), s.ready = true → s.settings.busAttached = true →
    s.txq.Ok s.settings.rtrBit → s.txq.content s.settings.rtrBit = g :: rest →
    ∃ t f a fs, exec .txstep s = .next t ∧ f.sig s.settings.rtrBit = g ∧
      Event.offer f a ∈ t.events.drop s.events.length ∧
      t.txq.content s.settings.rtrBit = (if a then rest else g :: rest) ++ fs ∧
      t.txq.head = (if a then (s.txq.head + 1) % s.txq.size else s.txq.head)

/-- TXSTEP with TXQ empty, and TXSTEP and RXSTEP with no bus attached, make no draw and change nothing
(44_scheduler.md R186, R191). -/
def Obligations.IdleBusStepsChangeNothing : Prop :=
  ∀ s : State, s.ready = true →
    (s.txq.isEmpty = true → exec .txstep s = .next (s.plus [.response .done])) ∧
    (s.settings.busAttached = false → exec .txstep s = .next (s.plus [.response .done]) ∧
      exec .rxstep s = .next (s.plus [.response .done]))

/-- RXSTEP enqueues the frames of the bus in list order until RXQ is full, drops the rest and counts each drop
(44_scheduler.md R187), whatever cuts in; under `cooperative` nothing else changes, and nothing is put out but the poll and
the step's own `Ok`. -/
def Obligations.RxStepFillsThenDrops : Prop :=
  ∀ (s : State) (fs : List Frame) (fss : List (List Frame)), s.ready = true → s.settings.busAttached = true →
    s.rxq.Ok s.settings.rtrBit → s.busFrames = fs :: fss → (∀ f ∈ fs, f.wf = true) →
    let room := s.rxq.size - 1 - s.rxq.occ
    ∃ t, exec .rxstep s = .next t ∧
      t.rxq.content s.settings.rtrBit =
        s.rxq.content s.settings.rtrBit ++ (fs.take room).map (Frame.sig s.settings.rtrBit) ∧
      t.rxq.drop = s.rxq.drop + BitVec.ofNat 32 (fs.length - room) ∧ t.rxq.head = s.rxq.head ∧
      Event.polled fs ∈ t.events.drop s.events.length ∧
      (s.settings.discipline = .cooperative →
        t = { s.plus [.polled fs, .response .done] with rxq := t.rxq, busFrames := fss })

/-- A frame of the bus that is not well-formed leaves RXQ as it is, its drop counter too: RXQ ends as if only the well-formed
frames had come, in their order, and nothing else changes (44_scheduler.md R187; 41_queue.md R112; that RXSTEP goes on is the
model's reading, log 9). -/
def Obligations.RxStepSkipsBadFrames : Prop :=
  ∀ (s : State) (fs : List Frame) (fss : List (List Frame)), s.ready = true → s.settings.busAttached = true →
    s.settings.discipline = .cooperative → s.busFrames = fs :: fss →
    ∃ t u, exec .rxstep s = .next t ∧
      exec .rxstep { s with busFrames := fs.filter Frame.wf :: fss } = .next u ∧ t.rxq = u.rxq ∧
      t = { s.plus [.polled fs, .response .done] with rxq := t.rxq, busFrames := fss }

/-- The four commands of the scheduler always complete, whatever cuts in and whatever the draws: each answers `Ok` last, and
leaves the configuration, the capacities, the request port and `PHASE` as they were (44_scheduler.md R189, R190). -/
def Obligations.SchedulerCommandsAlwaysComplete : Prop :=
  ∀ (s : State) (i : Instr), s.ready = true → i ∈ [Instr.txstep, .rxstep, .flush, .tick] →
    ∃ t es, exec i s = .next t ∧ t.events = s.events ++ es ++ [.response .done] ∧ t.ready = true ∧
      t.settings = s.settings ∧ t.session = s.session ∧ t.request = s.request ∧ t.phase = s.phase ∧
      t.rxq.size = s.rxq.size ∧ t.txq.size = s.txq.size

/-- The tick and its steps surface no status: whatever they meet, they answer their own `Ok` and no other event of theirs
carries a status. The only other answers among what a tick puts out are those of whole DECODEs that cut in under
`interruptShared` (60_exceptions.md R201, R212). -/
def Obligations.TickStepsSurfaceNoStatus : Prop :=
  ∀ (s : State) (i : Instr), s.ready = true → i ∈ [Instr.txstep, .rxstep, .flush, .tick] →
    ∃ t es, exec i s = .next t ∧ t.events = s.events ++ es ++ [.response .done] ∧
      ∀ r, Event.response r ∈ es → s.settings.discipline = .interruptShared ∧ ∃ st n, r = .decoded st n

/-- FLUSH with buffers available and a limit that every frame fits sends everything: the frames of RXQ, in order, in the
greedy groups, one datagram each with consecutive sequence numbers, and RXQ is empty (44_scheduler.md R188, R192;
42_encode.md R141), nothing cutting in. -/
def Obligations.FlushSendsEverything : Prop :=
  ∀ (s : State) (n : Nat) (bs : List Bool), s.ready = true → s.settings.discipline = .cooperative →
    s.rxq.Ok s.settings.rtrBit → 75 ≤ s.settings.mtuLimit.toNat → s.bufAvail = List.replicate n true ++ bs →
    s.rxq.occ ≤ n →
    ∃ t groups, exec .flush s = .next t ∧ groups.flatten = s.rxq.content s.settings.rtrBit ∧
      Greedy s.settings.mtuLimit.toNat groups ∧ t.rxq.content s.settings.rtrBit = [] ∧
      t = { s.plus ((datagramsOf s.settings.version s.seq groups).map Event.send ++ [.response .done]) with
        rxq := { s.rxq with head := s.rxq.tail }, seq := s.seq + BitVec.ofNat 8 groups.length,
        bufAvail := s.bufAvail.drop groups.length }

/-- FLUSH with RXQ empty makes no draw and changes nothing; with a frame there and no buffer available it counts one
allocation failure and keeps every frame and `SEQ` (44_scheduler.md R188). -/
def Obligations.FlushSkipsWithoutBuffer : Prop :=
  ∀ s : State, s.ready = true →
    (s.rxq.isEmpty = true → exec .flush s = .next (s.plus [.response .done])) ∧
    (∀ bs, s.rxq.isEmpty = false → s.bufAvail = false :: bs → exec .flush s =
      .next { s.plus [.response .done] with cntAlloc := s.cntAlloc + 1, bufAvail := bs })

/-- A frame at the head of RXQ that does not fit the limit blocks it: FLUSH sends nothing and keeps every frame
(70_reset_and_hazards.md R243). -/
def Obligations.OversizeHeadBlocksFlush : Prop :=
  ∀ (s : State) (f : SigFrame) (rest : List SigFrame) (bs : List Bool), s.ready = true →
    s.rxq.Ok s.settings.rtrBit → s.rxq.content s.settings.rtrBit = f :: rest →
    s.settings.mtuLimit.toNat < 5 + f.record.length → s.bufAvail = true :: bs →
    exec .flush s = .next { s.plus [.response .done] with bufAvail := bs }

/-- Under `cooperative`, TICK is TXSTEP, then RXSTEP, then FLUSH, but for their separate answers, and `PHASE` comes back to
where it was (44_scheduler.md R189; 30_encoding.md R88). -/
def Obligations.TickIsItsThreeSteps : Prop :=
  ∀ s : State, s.ready = true → s.settings.discipline = .cooperative →
    ∃ t t1 t2 t3, exec .tick s = .next t ∧ exec .txstep s = .next t1 ∧ exec .rxstep t1 = .next t2 ∧
      exec .flush t2 = .next t3 ∧ t.quiet = t3.quiet ∧ t.phase = s.phase ∧
      ∃ es, t.events = s.events ++ es ++ [.response .done]

/-- RDCNT answers the 32-bit value of the counter its index names and changes nothing; index 7 is `IllegalCommand`
(44_scheduler.md R195; 10_state.md R30). -/
def Obligations.RdcntReadsTheCounter : Prop :=
  ∀ s : State, s.ready = true →
    exec (.rdcnt 0) s = .next (s.plus [.response (.counter s.rxq.drop)]) ∧
    exec (.rdcnt 1) s = .next (s.plus [.response (.counter s.txq.drop)]) ∧
    exec (.rdcnt 2) s = .next (s.plus [.response (.counter s.cntMalformed)]) ∧
    exec (.rdcnt 3) s = .next (s.plus [.response (.counter s.cntVersion)]) ∧
    exec (.rdcnt 4) s = .next (s.plus [.response (.counter s.cntOpcode)]) ∧
    exec (.rdcnt 5) s = .next (s.plus [.response (.counter s.cntTruncated)]) ∧
    exec (.rdcnt 6) s = .next (s.plus [.response (.counter s.cntAlloc)]) ∧
    exec .reservedRdcnt7 s = .next (s.plus [.response (.status .illegalCommand)])

/-- A boundary changes only what the network-receive agent owns: of TXQ not `head` and not the frames already held, nothing
of RXQ, of `SEQ`, of `CNT_ALLOC` or of `PHASE` (20_memory.md R62, R63; 10_state.md R27). -/
def Obligations.CutInIsOnlyTheOtherAgent : Prop :=
  ∀ s : State, s.txq.Ok s.settings.rtrBit →
    let t := s.cutIn
    t = { s with
      txq := t.txq, cntMalformed := t.cntMalformed, cntVersion := t.cntVersion, cntOpcode := t.cntOpcode,
      cntTruncated := t.cntTruncated, inbound := t.inbound, turns := t.turns, events := t.events } ∧
    t.txq.head = s.txq.head ∧ t.txq.size = s.txq.size ∧
    (∃ fs, t.txq.content s.settings.rtrBit = s.txq.content s.settings.rtrBit ++ fs) ∧
    (s.settings.discipline = .cooperative → t = s)

/-! ## Reset, and what is refused -/

/-- INIT with legal capacities records the configuration and leaves the reset state: indices 0, both queues empty, `SEQ` 0,
every counter 0, `PHASE` TX, no slot known (10_state.md R37; 70_reset_and_hazards.md R230). -/
def Obligations.InitEstablishesReset : Prop :=
  ∀ (s : State) (c : InitOperand), s.session = none → 2 ≤ c.nRx.toNat → 2 ≤ c.nTx.toNat →
    ∃ t, exec (.init c) s = .next t ∧ t.ready = true ∧
      t.settings = ⟨c.mtuLimit, c.version, c.rtrBit, c.discipline, c.busAttached⟩ ∧
      t.rxq.size = c.nRx.toNat ∧ t.txq.size = c.nTx.toNat ∧
      (∀ q, (t.queue q).head = 0 ∧ (t.queue q).tail = 0 ∧ (t.queue q).isEmpty = true ∧ (t.queue q).isFull = false ∧
        (t.queue q).content c.rtrBit = [] ∧ ∀ i, (t.queue q).slots.get i = none) ∧
      t.seq = 0 ∧ (∀ k, t.counter k = 0) ∧ t.phase = .tx

/-- INIT answers its `Ok` once, and what stands on the ports stays: the request bytes, the inbound datagrams, the turns, the
lined-up answers, the events put out, the count of free values (the model's choice, log 24). -/
def Obligations.InitKeepsThePorts : Prop :=
  ∀ (s : State) (c : InitOperand), s.session = none → 2 ≤ c.nRx.toNat → 2 ≤ c.nTx.toNat →
    ∃ t, exec (.init c) s = .next t ∧
      t = { s.plus [.response .done] with
        ready := t.ready, settings := t.settings, rxq := t.rxq, txq := t.txq, seq := t.seq,
        cntMalformed := t.cntMalformed, cntVersion := t.cntVersion, cntOpcode := t.cntOpcode,
        cntTruncated := t.cntTruncated, cntAlloc := t.cntAlloc, phase := t.phase }

/-- INIT inside an operation, and INIT with a capacity below 2, are refused (70_reset_and_hazards.md R231, R235; 93 U20, U13). -/
def Obligations.InitRefusesWhatTheSpecDoes : Prop :=
  ∀ (s : State) (c : InitOperand),
    (∀ d, s.session = some d → exec (.init c) s = .refused .initDuringOperation) ∧
    (s.session = none → c.nRx.toNat < 2 ∨ c.nTx.toNat < 2 → exec (.init c) s = .refused .badConfiguration)

/-- Before the first INIT every queue, codec and scheduler command is refused (70_reset_and_hazards.md R231; 93 U12). -/
def Obligations.CommandsBeforeInitAreRefused : Prop :=
  ∀ (s : State) (i : Instr), s.ready = false → needsInit i = true → exec i s = .refused .beforeInit

/-- Every reserved command word on the request port is answered `IllegalCommand` and changes no state of the block
(30_encoding.md R86). That the run goes on, and that a word with a reserved `q` or `k` field takes its one byte from the port,
are the model's readings (log 8, log 22). -/
def Obligations.ReservedWordsAnswerIllegalCommand : Prop :=
  ∀ (s : State) (w : Byte) (rest : List Byte), s.session = none → s.turns = [] → s.request = w :: rest →
    isReservedWord w = true →
    step s = .next { s.plus [.response (.status .illegalCommand)] with request := rest }

/-- The five reserved rows of the table answer `IllegalCommand` and change nothing else (30_encoding.md R86; log 8). -/
def Obligations.ReservedRowsAnswerIllegalCommand : Prop :=
  ∀ (s : State) (x : BitVec 4),
    let t := s.plus [.response (.status .illegalCommand)]
    exec (.reservedOp0 x) s = .next t ∧ exec (.reservedOpC x) s = .next t ∧ exec (.reservedOpD x) s = .next t ∧
    exec (.reservedOpE x) s = .next t ∧ exec .reservedRdcnt7 s = .next t

/-! ## Steps -/

/-- A step runs the command that the request port decodes to: where no DECODE is open and the turn is not the other agent's,
step is exec of it once its bytes and the turn are taken (20_memory.md R64). -/
def Obligations.StepRunsTheDecodedCommand : Prop :=
  ∀ (s : State) (i : Instr) (rest : List Byte), s.session = none → s.turns.head? ≠ some .net →
    decodeCommand s.request = .ok (i, rest) →
    step s = exec i { s with request := rest, turns := s.turns.tail }

/-- A step of an open DECODE runs the header or record that stands at its cursor, once the cursor is past it, or ends the
DECODE with the status of the check that fails (43_decode.md R151). -/
def Obligations.StepRunsTheWireItemAtTheCursor : Prop :=
  ∀ (s : State) (d : Session), s.ready = true → s.session = some d →
    (d.stage = .header → ∀ h rest, readHeader d.rest = some (h, rest) →
      step s = exec (headerInstr h) { s with session := some { d with rest := rest } }) ∧
    (d.stage = .header → d.rest.length < 5 → step s =
      .next { s.plus (decodeEvents .malformed d.enqueued) with session := none, cntMalformed := s.cntMalformed + 1 }) ∧
    (∀ c k, d.stage = .records c k → ∀ f rest, readRecord s.settings.rtrBit d.rest = .ok (f, rest) →
      step s = exec (recordInstr s.settings.rtrBit f) { s with session := some { d with rest := rest } }) ∧
    (∀ c k, d.stage = .records c k → readRecord s.settings.rtrBit d.rest = .error .truncated → step s =
      .next { s.plus (decodeEvents .truncated d.enqueued) with session := none, cntTruncated := s.cntTruncated + 1 }) ∧
    (∀ c k, d.stage = .records c k → readRecord s.settings.rtrBit d.rest = .error .malformed → step s =
      .next { s.plus (decodeEvents .malformed d.enqueued) with session := none, cntMalformed := s.cntMalformed + 1 })

/-- A step that is the network-receive agent's opens a DECODE of the next inbound datagram; with nothing waiting on any port
the block stays as it is (44_scheduler.md R182; 70_reset_and_hazards.md R232; log 11). -/
def Obligations.StepOpensInboundOrWaits : Prop :=
  ∀ s : State, s.session = none →
    (∀ ts d ds, s.ready = true → s.turns = .net :: ts → s.inbound = d :: ds → d.length ≤ 65535 →
      step s = .next { s with turns := ts, inbound := ds, session := some ⟨d.length, d, .header, 0⟩ }) ∧
    (s.turns = [] → s.request = [] → s.inbound = [] → step s = .next s)

/-- The class of what a step shows (60_exceptions.md R211): the strict step is a fault exactly where the step answered
`BadFrame`, a refusal exactly where the step refuses or answered `IllegalCommand` and no `BadFrame`, and else the step. -/
def Obligations.StrictStepClassesTheStatuses : Prop :=
  ∀ s t : State, step s = .next t →
    (strictStep s = .fault .badFrame ↔ Status.badFrame ∈ newStatuses s t) ∧
    (strictStep s = .refused .illegalCommand ↔
      Status.illegalCommand ∈ newStatuses s t ∧ Status.badFrame ∉ newStatuses s t) ∧
    (strictStep s = .next t ↔ ∀ st ∈ newStatuses s t, statusClass st = .normal)

/-! ## Invariants -/

/-- Every step keeps the block sound: indices in range, slot arrays canonical, every live slot written and every frame in a
queue well-formed, `PHASE` at TX between steps, an open DECODE in order (10_state.md R21, R25, R31, R34). -/
def Obligations.StepKeepsTheBlockSound : Prop :=
  ∀ s t : State, s.Inv → step s = .next t → t.Inv

/-- The reset state is sound. -/
def Obligations.ResetIsSound : Prop := State.reset.Inv ∧ State.reset.ready = true

/-- Every step keeps both slot arrays in their canonical form, from any state. -/
def Obligations.StepKeepsSlotArraysCanonical : Prop :=
  ∀ s t : State, s.rxq.slots.wf → s.txq.slots.wf → step s = .next t → t.rxq.slots.wf ∧ t.txq.slots.wf

/-- Who writes which register (10_state.md R27, R30, R32): an instruction that moves a register or writes a slot is one of
those the tables list for it, or INIT. A direct DECODE or ENCODE writes the queue it is given, and a record row is a part of
DECODE. Under `interruptShared` a DECODE may also fall inside a command of the scheduler (20_memory.md R59) and then moves
what DECODE moves. -/
def Obligations.OnlyTheListedInstructionsWriteARegister : Prop :=
  ∀ (i : Instr) (s t : State), exec i s = .next t → (∀ c, i ≠ .init c) →
    let cutInto := s.settings.discipline = .interruptShared ∧ i ∈ [Instr.txstep, .rxstep, .flush, .tick]
    (t.rxq.head ≠ s.rxq.head → i = .deq .rxq ∨ (∃ m, i = .encode .rxq m) ∨ i = .flush ∨ i = .tick) ∧
    ((t.rxq.tail, t.rxq.slots, t.rxq.drop) ≠ (s.rxq.tail, s.rxq.slots, s.rxq.drop) →
      (∃ f, i = .enq .rxq f) ∨ (∃ d, i = .decode .rxq d) ∨ i = .rxstep ∨ i = .tick) ∧
    (t.txq.head ≠ s.txq.head → i = .deq .txq ∨ (∃ m, i = .encode .txq m) ∨ i = .txstep ∨ i = .tick) ∧
    ((t.txq.tail, t.txq.slots, t.txq.drop) ≠ (s.txq.tail, s.txq.slots, s.txq.drop) →
      (∃ f, i = .enq .txq f) ∨ (∃ d, i = .decode .txq d) ∨ instrFormat i = .record ∨ cutInto) ∧
    (t.seq ≠ s.seq → (∃ q m, i = .encode q m) ∨ i = .flush ∨ i = .tick) ∧
    (t.cntAlloc ≠ s.cntAlloc → i = .flush ∨ i = .tick) ∧
    ((t.cntMalformed, t.cntVersion, t.cntOpcode, t.cntTruncated) ≠
      (s.cntMalformed, s.cntVersion, s.cntOpcode, s.cntTruncated) →
      (∃ q d, i = .decode q d) ∨ instrFormat i = .header ∨ instrFormat i = .record ∨ cutInto) ∧
    t.settings = s.settings ∧ t.ready = s.ready ∧ t.phase = s.phase ∧ t.rxq.size = s.rxq.size ∧ t.txq.size = s.txq.size
end

