-- ==== Sys2Proof/Laws/Format.lean ====
section
/-! SUPPORT. The byte order and the bit fields are inverse to each other, and so are the readers and writers of headers and
records. -/

namespace Sys2Proof

/-! ## Bit fields -/

theorem be16_getLsbD (a b : Byte) (i : Nat) : (be16 a b).getLsbD i = if i < 8 then b.getLsbD i else a.getLsbD (i - 8) := by
  simp only [be16, BitVec.getLsbD_append]

theorem be32_getLsbD (a b c d : Byte) (i : Nat) : (be32 a b c d).getLsbD i =
    if i < 8 then d.getLsbD i else if i < 16 then c.getLsbD (i - 8) else if i < 24 then b.getLsbD (i - 16)
      else a.getLsbD (i - 24) := by
  simp only [be32, BitVec.getLsbD_append]
  repeat' split
  all_goals first | omega | (congr 1)

theorem be16_bytes (v : Word16) : be16 (v.extractLsb' 8 8) (v.extractLsb' 0 8) = v := by
  apply BitVec.eq_of_getLsbD_eq
  intro i hi
  simp only [be16_getLsbD, BitVec.getLsbD_extractLsb']
  split
  · simp [*]
  · rw [show 8 + (i - 8) = i by omega]; simp; intro; omega

theorem be32_bytes (v : Word32) :
    be32 (v.extractLsb' 24 8) (v.extractLsb' 16 8) (v.extractLsb' 8 8) (v.extractLsb' 0 8) = v := by
  apply BitVec.eq_of_getLsbD_eq
  intro i hi
  simp only [be32_getLsbD, BitVec.getLsbD_extractLsb']
  split
  · simp [*]
  · split
    · rw [show 8 + (i - 8) = i by omega]; simp; intro; omega
    · split
      · rw [show 16 + (i - 16) = i by omega]; simp; intro; omega
      · rw [show 24 + (i - 24) = i by omega]; simp; intro; omega

theorem byte_of_be16 (a b : Byte) : be16Bytes (be16 a b) = [a, b] := by
  simp only [be16Bytes, List.cons.injEq, and_true]
  refine ⟨?_, ?_⟩ <;>
  · apply BitVec.eq_of_getLsbD_eq
    intro i hi
    simp only [BitVec.getLsbD_extractLsb', be16_getLsbD, hi, decide_true, Bool.true_and]
    split <;> first | omega | (congr 1; omega)

theorem byte_of_be32 (a b c d : Byte) : be32Bytes (be32 a b c d) = [a, b, c, d] := by
  simp only [be32Bytes, List.cons.injEq, and_true]
  refine ⟨?_, ?_, ?_, ?_⟩ <;>
  · apply BitVec.eq_of_getLsbD_eq
    intro i hi
    simp only [BitVec.getLsbD_extractLsb', be32_getLsbD, hi, decide_true, Bool.true_and]
    repeat' split
    all_goals first | omega | (congr 1; omega)

theorem lengthByte_getLsbD (fd : Bool) (eff : BitVec 7) (i : Nat) :
    (lengthByte fd eff).getLsbD i = if i < 7 then eff.getLsbD i else (decide (i = 7) && fd) := by
  simp only [lengthByte, BitVec.getLsbD_append, BitVec.getLsbD_ofBool]
  split
  · rfl
  · congr 2; simp; omega

@[simp] theorem lengthFd_byte (fd : Bool) (eff : BitVec 7) : lengthFd (lengthByte fd eff) = fd := by
  simp only [lengthFd, lengthByte_getLsbD]; rfl

@[simp] theorem lengthEff_byte (fd : Bool) (eff : BitVec 7) : lengthEff (lengthByte fd eff) = eff := by
  apply BitVec.eq_of_getLsbD_eq
  intro i hi
  simp [lengthEff, lengthByte_getLsbD, hi]

theorem lengthByte_fields (len : Byte) : lengthByte (lengthFd len) (lengthEff len) = len := by
  apply BitVec.eq_of_getLsbD_eq
  intro i hi
  simp only [lengthFd, lengthEff, lengthByte_getLsbD, BitVec.getLsbD_extractLsb']
  split
  · simp [*]
  · have : i = 7 := by omega
    subst this; simp

theorem commandWord_getLsbD (op : BitVec 4) (q : Bool) (k : BitVec 3) (i : Nat) :
    (commandWord op q k).getLsbD i = if i < 3 then k.getLsbD i else if i = 3 then q else op.getLsbD (i - 4) := by
  simp only [commandWord, BitVec.getLsbD_append, BitVec.getLsbD_ofBool]
  split
  · rfl
  · split <;> split
    · simp; omega
    · omega
    · omega
    · congr 1

theorem commandWord_fields (w : Byte) : commandWord (w.extractLsb' 4 4) (w.getLsbD 3) (w.extractLsb' 0 3) = w := by
  apply BitVec.eq_of_getLsbD_eq
  intro i hi
  simp only [commandWord_getLsbD, BitVec.getLsbD_extractLsb']
  split
  · simp [*]
  · split
    · subst i; rfl
    · rw [show 4 + (i - 4) = i by omega]; simp; intro; omega

@[simp] theorem commandWord_op (op : BitVec 4) (q : Bool) (k : BitVec 3) : (commandWord op q k).extractLsb' 4 4 = op := by
  apply BitVec.eq_of_getLsbD_eq
  intro i hi
  simp only [BitVec.getLsbD_extractLsb', commandWord_getLsbD, hi, decide_true, Bool.true_and]
  repeat' split
  all_goals first | omega | (congr 1; omega)

@[simp] theorem commandWord_q (op : BitVec 4) (q : Bool) (k : BitVec 3) : (commandWord op q k).getLsbD 3 = q := by
  simp only [commandWord_getLsbD]; rfl

@[simp] theorem commandWord_k (op : BitVec 4) (q : Bool) (k : BitVec 3) : (commandWord op q k).extractLsb' 0 3 = k := by
  apply BitVec.eq_of_getLsbD_eq
  intro i hi
  simp [commandWord_getLsbD, hi]
/-! ## Headers and records -/

theorem readHeader_bytes (h : Header) (rest : List Byte) : readHeader (headerBytes h ++ rest) = some (h, rest) := by
  simp [headerBytes, be16Bytes, readHeader, be16_bytes]

theorem headerBytes_of_read {bs rest : List Byte} {h : Header} (e : readHeader bs = some (h, rest)) :
    bs = headerBytes h ++ rest := by
  unfold readHeader at e
  split at e
  · simp only [Option.some.injEq, Prod.mk.injEq] at e
    obtain ⟨rfl, rfl⟩ := e
    simp [headerBytes, byte_of_be16]
  · cases e

theorem readHeader_none {bs : List Byte} : readHeader bs = none ↔ bs.length < 5 := by
  unfold readHeader
  split
  · simp
  · rename_i h
    simp only [true_iff]
    match bs, h with
    | [], _ => simp
    | [_], _ => simp
    | [_, _], _ => simp
    | [_, _, _], _ => simp
    | [_, _, _, _], _ => simp
    | a :: b :: c :: d :: e :: r, h => exact absurd rfl (h a b c d e r)

theorem SigFrame.ok_iff {rtr : Fin 32} {f : SigFrame} : f.ok rtr = true ↔
    (lengthEff f.length).toNat ≤ 64 ∧ f.flags.isSome = lengthFd f.length ∧
      f.payload.length = if idRtr rtr f.id then 0 else (lengthEff f.length).toNat := by
  simp only [SigFrame.ok, Bool.and_eq_true, decide_eq_true_eq, beq_iff_eq, and_assoc]
  exact Iff.rfl

theorem SigFrame.record_length (f : SigFrame) :
    f.record.length = 5 + f.flags.isSome.toNat + f.payload.length := by
  unfold SigFrame.record be32Bytes
  cases f.flags <;> simp <;> omega

/-- `WIRESIZE` is the number of bytes of the record (40_frame.md R104). -/
theorem SigFrame.record_length_ok {rtr : Fin 32} {f : SigFrame} (h : f.ok rtr = true) :
    f.record.length = f.wireSize rtr := by
  obtain ⟨_, h2, h3⟩ := SigFrame.ok_iff.1 h
  rw [SigFrame.record_length, h2, h3, SigFrame.wireSize, wireSizeOf]

theorem SigFrame.wireSize_ge (rtr : Fin 32) (f : SigFrame) : 5 ≤ f.wireSize rtr := by
  simp only [SigFrame.wireSize, wireSizeOf]; omega

theorem SigFrame.wireSize_le {rtr : Fin 32} {f : SigFrame} (h : f.ok rtr = true) : f.wireSize rtr ≤ 70 := by
  have h1 := (SigFrame.ok_iff.1 h).1
  simp only [SigFrame.wireSize, wireSizeOf]
  cases lengthFd f.length <;> split <;> simp <;> omega

/-- Reading a record from its bytes gives the frame back (30_encoding.md R72, R79). -/
theorem readRecord_record {rtr : Fin 32} {f : SigFrame} (h : f.ok rtr = true) (rest : List Byte) :
    readRecord rtr (f.record ++ rest) = .ok (f, rest) := by
  obtain ⟨h1, h2, h3⟩ := SigFrame.ok_iff.1 h
  obtain ⟨id, len, fl, data⟩ := f
  simp only at h1 h2 h3
  have hn : ¬ 64 < (lengthEff len).toNat := by omega
  cases fl with
  | none =>
    have h2' : lengthFd len = false := by simpa using h2.symm
    simp only [SigFrame.record, be32Bytes, List.cons_append, List.nil_append, Option.toList, readRecord, Config.dataCap,
      hn, if_false, h2', Bool.false_eq_true, be32_bytes, readPayload]
    split at h3
    · rename_i hr
      simp [hr, List.eq_nil_of_length_eq_zero h3]
    · rename_i hr
      simp [hr, ← h3]
  | some b =>
    have h2' : lengthFd len = true := by simpa using h2.symm
    simp only [SigFrame.record, be32Bytes, List.cons_append, List.nil_append, Option.toList, readRecord, Config.dataCap,
      hn, if_false, h2', if_true, be32_bytes, readPayload]
    split at h3
    · rename_i hr
      simp [hr, List.eq_nil_of_length_eq_zero h3]
    · rename_i hr
      simp [hr, ← h3]

theorem readPayload_ok {rtr : Fin 32} {id : Word32} {len : Byte} {fl : Option Byte} {bs rest : List Byte} {f : SigFrame}
    (e : readPayload rtr id len fl bs = .ok (f, rest)) :
    f.id = id ∧ f.length = len ∧ f.flags = fl ∧ bs = f.payload ++ rest ∧
      f.payload.length = if idRtr rtr id then 0 else (lengthEff len).toNat := by
  unfold readPayload at e
  split at e
  · simp only [Except.ok.injEq, Prod.mk.injEq] at e
    obtain ⟨rfl, rfl⟩ := e
    simp [*]
  · split at e
    · cases e
    · rename_i hr hl
      simp only [Except.ok.injEq, Prod.mk.injEq] at e
      obtain ⟨rfl, rfl⟩ := e
      simp only [List.take_append_drop, List.length_take, true_and]
      simp [hr]; omega

/-- What a record that was read is: well-formed, and its bytes stand at the front of the input (43_decode.md R164). -/
theorem readRecord_ok {rtr : Fin 32} {bs rest : List Byte} {f : SigFrame} (e : readRecord rtr bs = .ok (f, rest)) :
    f.ok rtr = true ∧ bs = f.record ++ rest := by
  unfold readRecord at e
  split at e
  · rename_i b0 b1 b2 b3 len r
    split at e
    · cases e
    · rename_i hn
      simp only [Config.dataCap] at hn
      split at e
      · rename_i hfd
        split at e
        · cases e
        · rename_i b r
          obtain ⟨e1, e2, e3, e4, e5⟩ := readPayload_ok e
          refine ⟨SigFrame.ok_iff.2 ⟨?_, ?_, ?_⟩, ?_⟩
          · rw [e2]; omega
          · rw [e2, e3, hfd]; rfl
          · rw [e1, e2, e5]
          · simp [SigFrame.record, e1, e2, e3, e4, byte_of_be32]
      · rename_i hfd
        obtain ⟨e1, e2, e3, e4, e5⟩ := readPayload_ok e
        refine ⟨SigFrame.ok_iff.2 ⟨?_, ?_, ?_⟩, ?_⟩
        · rw [e2]; omega
        · rw [e2, e3]; simpa using hfd
        · rw [e1, e2, e5]
        · simp [SigFrame.record, e1, e2, e3, e4, byte_of_be32]
  · cases e

/-- A record that cannot be read is `Truncated` or `Malformed` (43_decode.md R153, R156). -/
theorem readRecord_error {rtr : Fin 32} {bs : List Byte} {st : Status} (e : readRecord rtr bs = .error st) :
    st = .truncated ∨ st = .malformed := by
  unfold readRecord readPayload at e
  repeat' split at e
  all_goals cases e
  all_goals simp

end Sys2Proof
end

