-- ==== Sys2Proof/Laws/Frame.lean ====
section
/-! SUPPORT. Frames and their significant fields (10_state.md R21, R22; 40_frame.md). -/

namespace Sys2Proof

theorem Frame.wf_iff {f : Frame} : f.wf = true ↔ (lengthEff f.length).toNat ≤ 64 := by
  rw [Frame.wf, decide_eq_true_eq]
  exact Iff.rfl

/-- The significant fields of a well-formed Frame are in order. -/
theorem Frame.sig_ok {f : Frame} (rtr : Fin 32) (h : f.wf = true) : (f.sig rtr).ok rtr = true := by
  have h := Frame.wf_iff.1 h
  refine SigFrame.ok_iff.2 ⟨h, ?_, ?_⟩
  · show (if lengthFd f.length then some f.fdFlags else none).isSome = lengthFd f.length
    cases lengthFd f.length <;> simp
  · show (if idRtr rtr f.id then [] else f.data.toList.take (lengthEff f.length).toNat).length = _
    cases hr : idRtr rtr f.id
    · simp only [Frame.sig, hr, Bool.false_eq_true, if_false, List.length_take, Vector.length_toList]
      omega
    · simp only [Frame.sig, hr, if_true, List.length_nil]

/-- A Frame read out of a slot has the significant fields of the slot. -/
theorem SigFrame.toFrame_sig {rtr : Fin 32} {s : SigFrame} (h : s.ok rtr = true) (free : Frame) :
    (s.toFrame free).sig rtr = s := by
  obtain ⟨h1, h2, h3⟩ := SigFrame.ok_iff.1 h
  have e1 : (if lengthFd s.length = true then some (s.flags.getD free.fdFlags) else none) = s.flags := by
    rw [← h2]
    cases s.flags <;> rfl
  have e2 : (if idRtr rtr s.id = true then []
      else ((s.toFrame free).data.toList.take (lengthEff s.length).toNat)) = s.payload := by
    cases hr : idRtr rtr s.id
    · simp only [hr, Bool.false_eq_true, if_false] at h3 ⊢
      apply List.ext_getElem
      · simp only [List.length_take, Vector.length_toList]; omega
      · intro k hk hk'
        simp only [SigFrame.toFrame, List.getElem_take, Vector.getElem_toList, Vector.getElem_ofFn,
          List.getD_eq_getElem?_getD, List.getElem?_eq_getElem hk', Option.getD_some]
    · simp only [hr, if_true] at h3 ⊢
      exact (List.eq_nil_of_length_eq_zero h3).symm
  show SigFrame.mk s.id s.length _ _ = s
  rw [show (if (s.toFrame free).isFd then some (s.toFrame free).fdFlags else none) = s.flags from e1]
  rw [show (if (s.toFrame free).isRtr rtr then [] else (s.toFrame free).data.toList.take (s.toFrame free).effLen.toNat)
    = s.payload from e2]

theorem take_toList_eq {f g : Vector Byte 64} {n : Nat} :
    f.toList.take n = g.toList.take n ↔ ∀ k : Fin 64, k.val < n → f[k] = g[k] := by
  constructor
  · intro h k hk
    have := congrArg (fun l => l[k.val]?) h
    simpa [List.getElem?_take, hk] using this
  · intro h
    apply List.ext_getElem
    · simp
    · intro k hk _
      simp only [List.length_take, Vector.length_toList] at hk
      simpa using h ⟨k, by omega⟩ (by simp; omega)

/-- `sig_eq` is equality of the significant fields (10_state.md R22). -/
theorem Frame.sigEq_iff {rtr : Fin 32} {f g : Frame} : f.sigEq rtr g = true ↔ f.sig rtr = g.sig rtr := by
  have key : ((List.finRange 64).all fun k => !decide (k.val < f.effLen.toNat) || f.data[k] == g.data[k]) = true ↔
      f.data.toList.take f.effLen.toNat = g.data.toList.take f.effLen.toNat := by
    rw [take_toList_eq]
    simp only [List.all_eq_true, List.mem_finRange, true_implies, Bool.or_eq_true, Bool.not_eq_true',
      decide_eq_false_iff_not, beq_iff_eq]
    exact forall_congr' fun k => by rw [← Decidable.imp_iff_not_or]
  simp only [Frame.sigEq, Bool.and_eq_true, Bool.or_eq_true, key, beq_iff_eq, Frame.sig, SigFrame.mk.injEq]
  constructor
  · rintro ⟨⟨⟨h1, h2⟩, h3⟩, h4⟩
    have hfd : g.isFd = f.isFd := by simp [Frame.isFd, h2]
    have hr : g.isRtr rtr = f.isRtr rtr := by simp [Frame.isRtr, h1]
    have he : g.effLen = f.effLen := by simp [Frame.effLen, h2]
    rw [hfd, hr, he]
    refine ⟨h1, h2, ?_, ?_⟩
    · cases h : f.isFd <;> simp_all
    · cases h : f.isRtr rtr
      · simpa [h] using h4
      · rfl
  · rintro ⟨h1, h2, h3, h4⟩
    have hfd : g.isFd = f.isFd := by simp [Frame.isFd, h2]
    have hr : g.isRtr rtr = f.isRtr rtr := by simp [Frame.isRtr, h1]
    have he : g.effLen = f.effLen := by simp [Frame.effLen, h2]
    rw [hfd] at h3
    rw [hr, he] at h4
    refine ⟨⟨⟨h1, h2⟩, ?_⟩, ?_⟩
    · cases h : f.isFd <;> simp_all
    · cases h : f.isRtr rtr
      · simpa [h] using h4
      · simp

/-- The records of two frames in order are equal only if the frames are (40_frame.md R105). -/
theorem SigFrame.record_inj {rtr : Fin 32} {f g : SigFrame} (hf : f.ok rtr = true) (hg : g.ok rtr = true)
    (h : f.record = g.record) : f = g := by
  have h1 := readRecord_record hf []
  have h2 := readRecord_record hg []
  rw [h, h2] at h1
  simpa using h1.symm

end Sys2Proof
end

