-- ==== Sys2Proof/Laws/Memory.lean ====
section
/-! SUPPORT. The slot arrays: reading after writing, and the canonical form. -/

namespace Sys2Proof.Machine

theorem Memory.get_set_same (m : Memory) (i : Nat) (f : SigFrame) : (m.set i f).get i = some f := by
  induction m with
  | nil => simp [Memory.set, Memory.get]
  | cons p m ih =>
    obtain ⟨a, g⟩ := p
    simp only [Memory.set]
    split
    · simp [Memory.get]
    · split
      · simp [Memory.get]
      · simp only [Memory.get, ih]
        split
        · omega
        · rfl

theorem Memory.get_set_other (m : Memory) {i j : Nat} (f : SigFrame) (h : j ≠ i) : (m.set i f).get j = m.get j := by
  induction m with
  | nil => simp [Memory.set, Memory.get, Ne.symm h]
  | cons p m ih =>
    obtain ⟨a, g⟩ := p
    simp only [Memory.set]
    split
    · simp [Memory.get, Ne.symm h]
    · split
      · subst a
        simp [Memory.get, Ne.symm h]
      · simp only [Memory.get, ih]

theorem Memory.mem_set {m : Memory} {i : Nat} {f : SigFrame} {p : Nat × SigFrame} (h : p ∈ m.set i f) :
    p = (i, f) ∨ p ∈ m := by
  induction m with
  | nil => simpa [Memory.set] using h
  | cons q m ih =>
    obtain ⟨a, g⟩ := q
    simp only [Memory.set] at h
    split at h
    · simpa using h
    · split at h
      · rcases List.mem_cons.1 h with h | h
        · exact .inl h
        · exact .inr (List.mem_cons_of_mem _ h)
      · rcases List.mem_cons.1 h with h | h
        · exact .inr (h ▸ List.mem_cons_self)
        · exact (ih h).imp id (List.mem_cons_of_mem _)

/-- Every write keeps the canonical form. -/
theorem Memory.set_wf {m : Memory} (i : Nat) (f : SigFrame) (h : m.wf) : (m.set i f).wf := by
  induction m with
  | nil => simp [Memory.set]
  | cons p m ih =>
    obtain ⟨a, g⟩ := p
    have h1 := List.pairwise_cons.1 h
    simp only [Memory.set]
    split
    · rename_i hi
      refine List.pairwise_cons.2 ⟨fun q hq => ?_, h⟩
      rcases List.mem_cons.1 hq with rfl | hq
      · exact hi
      · exact Nat.lt_trans hi (h1.1 q hq)
    · split
      · subst a
        exact List.pairwise_cons.2 ⟨h1.1, h1.2⟩
      · refine List.pairwise_cons.2 ⟨fun q hq => ?_, ih h1.2⟩
        rcases Memory.mem_set hq with rfl | hq
        · simp only; omega
        · exact h1.1 q hq

theorem Memory.get_mem {m : Memory} {i : Nat} {f : SigFrame} (h : m.get i = some f) : (i, f) ∈ m := by
  induction m with
  | nil => simp [Memory.get] at h
  | cons p m ih =>
    obtain ⟨a, g⟩ := p
    simp only [Memory.get] at h
    split at h
    · simp_all
    · exact List.mem_cons_of_mem _ (ih h)

/-- The slot array after reset is canonical. -/
theorem reset_memory_wf : State.reset.rxq.slots.wf ∧ State.reset.txq.slots.wf :=
  ⟨List.Pairwise.nil, List.Pairwise.nil⟩

end Sys2Proof.Machine
end

