-- ==== Sys2Proof/Laws/State.lean ====
section
/-! SUPPORT. One lemma per field per update of State, each true by rfl. -/

namespace Sys2Proof.Machine

@[simp] theorem State.emit_ready (s : State) (e : Event) : (s.emit e).ready = s.ready := rfl
@[simp] theorem State.emit_settings (s : State) (e : Event) : (s.emit e).settings = s.settings := rfl
@[simp] theorem State.emit_rxq (s : State) (e : Event) : (s.emit e).rxq = s.rxq := rfl
@[simp] theorem State.emit_txq (s : State) (e : Event) : (s.emit e).txq = s.txq := rfl
@[simp] theorem State.emit_seq (s : State) (e : Event) : (s.emit e).seq = s.seq := rfl
@[simp] theorem State.emit_cntMalformed (s : State) (e : Event) : (s.emit e).cntMalformed = s.cntMalformed := rfl
@[simp] theorem State.emit_cntVersion (s : State) (e : Event) : (s.emit e).cntVersion = s.cntVersion := rfl
@[simp] theorem State.emit_cntOpcode (s : State) (e : Event) : (s.emit e).cntOpcode = s.cntOpcode := rfl
@[simp] theorem State.emit_cntTruncated (s : State) (e : Event) : (s.emit e).cntTruncated = s.cntTruncated := rfl
@[simp] theorem State.emit_cntAlloc (s : State) (e : Event) : (s.emit e).cntAlloc = s.cntAlloc := rfl
@[simp] theorem State.emit_phase (s : State) (e : Event) : (s.emit e).phase = s.phase := rfl
@[simp] theorem State.emit_session (s : State) (e : Event) : (s.emit e).session = s.session := rfl
@[simp] theorem State.emit_request (s : State) (e : Event) : (s.emit e).request = s.request := rfl
@[simp] theorem State.emit_inbound (s : State) (e : Event) : (s.emit e).inbound = s.inbound := rfl
@[simp] theorem State.emit_turns (s : State) (e : Event) : (s.emit e).turns = s.turns := rfl
@[simp] theorem State.emit_accepted (s : State) (e : Event) : (s.emit e).accepted = s.accepted := rfl
@[simp] theorem State.emit_busFrames (s : State) (e : Event) : (s.emit e).busFrames = s.busFrames := rfl
@[simp] theorem State.emit_bufAvail (s : State) (e : Event) : (s.emit e).bufAvail = s.bufAvail := rfl
@[simp] theorem State.emit_draws (s : State) (e : Event) : (s.emit e).draws = s.draws := rfl
@[simp] theorem State.emit_events (s : State) (e : Event) : (s.emit e).events = s.events ++ [e] := rfl

@[simp] theorem State.answer_ready (s : State) (r : Response) : (s.answer r).ready = s.ready := rfl
@[simp] theorem State.answer_settings (s : State) (r : Response) : (s.answer r).settings = s.settings := rfl
@[simp] theorem State.answer_rxq (s : State) (r : Response) : (s.answer r).rxq = s.rxq := rfl
@[simp] theorem State.answer_txq (s : State) (r : Response) : (s.answer r).txq = s.txq := rfl
@[simp] theorem State.answer_seq (s : State) (r : Response) : (s.answer r).seq = s.seq := rfl
@[simp] theorem State.answer_cntMalformed (s : State) (r : Response) : (s.answer r).cntMalformed = s.cntMalformed := rfl
@[simp] theorem State.answer_cntVersion (s : State) (r : Response) : (s.answer r).cntVersion = s.cntVersion := rfl
@[simp] theorem State.answer_cntOpcode (s : State) (r : Response) : (s.answer r).cntOpcode = s.cntOpcode := rfl
@[simp] theorem State.answer_cntTruncated (s : State) (r : Response) : (s.answer r).cntTruncated = s.cntTruncated := rfl
@[simp] theorem State.answer_cntAlloc (s : State) (r : Response) : (s.answer r).cntAlloc = s.cntAlloc := rfl
@[simp] theorem State.answer_phase (s : State) (r : Response) : (s.answer r).phase = s.phase := rfl
@[simp] theorem State.answer_session (s : State) (r : Response) : (s.answer r).session = s.session := rfl
@[simp] theorem State.answer_request (s : State) (r : Response) : (s.answer r).request = s.request := rfl
@[simp] theorem State.answer_inbound (s : State) (r : Response) : (s.answer r).inbound = s.inbound := rfl
@[simp] theorem State.answer_turns (s : State) (r : Response) : (s.answer r).turns = s.turns := rfl
@[simp] theorem State.answer_accepted (s : State) (r : Response) : (s.answer r).accepted = s.accepted := rfl
@[simp] theorem State.answer_busFrames (s : State) (r : Response) : (s.answer r).busFrames = s.busFrames := rfl
@[simp] theorem State.answer_bufAvail (s : State) (r : Response) : (s.answer r).bufAvail = s.bufAvail := rfl
@[simp] theorem State.answer_draws (s : State) (r : Response) : (s.answer r).draws = s.draws := rfl
@[simp] theorem State.answer_events (s : State) (r : Response) : (s.answer r).events = s.events ++ [.response r] := rfl

@[simp] theorem State.answerIllegal_ready (s : State) : (s.answerIllegal).ready = s.ready := rfl
@[simp] theorem State.answerIllegal_settings (s : State) : (s.answerIllegal).settings = s.settings := rfl
@[simp] theorem State.answerIllegal_rxq (s : State) : (s.answerIllegal).rxq = s.rxq := rfl
@[simp] theorem State.answerIllegal_txq (s : State) : (s.answerIllegal).txq = s.txq := rfl
@[simp] theorem State.answerIllegal_seq (s : State) : (s.answerIllegal).seq = s.seq := rfl
@[simp] theorem State.answerIllegal_cntMalformed (s : State) : (s.answerIllegal).cntMalformed = s.cntMalformed := rfl
@[simp] theorem State.answerIllegal_cntVersion (s : State) : (s.answerIllegal).cntVersion = s.cntVersion := rfl
@[simp] theorem State.answerIllegal_cntOpcode (s : State) : (s.answerIllegal).cntOpcode = s.cntOpcode := rfl
@[simp] theorem State.answerIllegal_cntTruncated (s : State) : (s.answerIllegal).cntTruncated = s.cntTruncated := rfl
@[simp] theorem State.answerIllegal_cntAlloc (s : State) : (s.answerIllegal).cntAlloc = s.cntAlloc := rfl
@[simp] theorem State.answerIllegal_phase (s : State) : (s.answerIllegal).phase = s.phase := rfl
@[simp] theorem State.answerIllegal_session (s : State) : (s.answerIllegal).session = s.session := rfl
@[simp] theorem State.answerIllegal_request (s : State) : (s.answerIllegal).request = s.request := rfl
@[simp] theorem State.answerIllegal_inbound (s : State) : (s.answerIllegal).inbound = s.inbound := rfl
@[simp] theorem State.answerIllegal_turns (s : State) : (s.answerIllegal).turns = s.turns := rfl
@[simp] theorem State.answerIllegal_accepted (s : State) : (s.answerIllegal).accepted = s.accepted := rfl
@[simp] theorem State.answerIllegal_busFrames (s : State) : (s.answerIllegal).busFrames = s.busFrames := rfl
@[simp] theorem State.answerIllegal_bufAvail (s : State) : (s.answerIllegal).bufAvail = s.bufAvail := rfl
@[simp] theorem State.answerIllegal_draws (s : State) : (s.answerIllegal).draws = s.draws := rfl
@[simp] theorem State.answerIllegal_events (s : State) : (s.answerIllegal).events = s.events ++ [.response (.status .illegalCommand)] := rfl

@[simp] theorem State.drawn_ready (s : State) : (s.drawn).ready = s.ready := rfl
@[simp] theorem State.drawn_settings (s : State) : (s.drawn).settings = s.settings := rfl
@[simp] theorem State.drawn_rxq (s : State) : (s.drawn).rxq = s.rxq := rfl
@[simp] theorem State.drawn_txq (s : State) : (s.drawn).txq = s.txq := rfl
@[simp] theorem State.drawn_seq (s : State) : (s.drawn).seq = s.seq := rfl
@[simp] theorem State.drawn_cntMalformed (s : State) : (s.drawn).cntMalformed = s.cntMalformed := rfl
@[simp] theorem State.drawn_cntVersion (s : State) : (s.drawn).cntVersion = s.cntVersion := rfl
@[simp] theorem State.drawn_cntOpcode (s : State) : (s.drawn).cntOpcode = s.cntOpcode := rfl
@[simp] theorem State.drawn_cntTruncated (s : State) : (s.drawn).cntTruncated = s.cntTruncated := rfl
@[simp] theorem State.drawn_cntAlloc (s : State) : (s.drawn).cntAlloc = s.cntAlloc := rfl
@[simp] theorem State.drawn_phase (s : State) : (s.drawn).phase = s.phase := rfl
@[simp] theorem State.drawn_session (s : State) : (s.drawn).session = s.session := rfl
@[simp] theorem State.drawn_request (s : State) : (s.drawn).request = s.request := rfl
@[simp] theorem State.drawn_inbound (s : State) : (s.drawn).inbound = s.inbound := rfl
@[simp] theorem State.drawn_turns (s : State) : (s.drawn).turns = s.turns := rfl
@[simp] theorem State.drawn_accepted (s : State) : (s.drawn).accepted = s.accepted := rfl
@[simp] theorem State.drawn_busFrames (s : State) : (s.drawn).busFrames = s.busFrames := rfl
@[simp] theorem State.drawn_bufAvail (s : State) : (s.drawn).bufAvail = s.bufAvail := rfl
@[simp] theorem State.drawn_draws (s : State) : (s.drawn).draws = s.draws + 1 := rfl
@[simp] theorem State.drawn_events (s : State) : (s.drawn).events = s.events := rfl

@[simp] theorem State.setRxq_ready (s : State) (q : Queue) : (s.setQueue .rxq q).ready = s.ready := rfl
@[simp] theorem State.setRxq_settings (s : State) (q : Queue) : (s.setQueue .rxq q).settings = s.settings := rfl
@[simp] theorem State.setRxq_rxq (s : State) (q : Queue) : (s.setQueue .rxq q).rxq = q := rfl
@[simp] theorem State.setRxq_txq (s : State) (q : Queue) : (s.setQueue .rxq q).txq = s.txq := rfl
@[simp] theorem State.setRxq_seq (s : State) (q : Queue) : (s.setQueue .rxq q).seq = s.seq := rfl
@[simp] theorem State.setRxq_cntMalformed (s : State) (q : Queue) : (s.setQueue .rxq q).cntMalformed = s.cntMalformed := rfl
@[simp] theorem State.setRxq_cntVersion (s : State) (q : Queue) : (s.setQueue .rxq q).cntVersion = s.cntVersion := rfl
@[simp] theorem State.setRxq_cntOpcode (s : State) (q : Queue) : (s.setQueue .rxq q).cntOpcode = s.cntOpcode := rfl
@[simp] theorem State.setRxq_cntTruncated (s : State) (q : Queue) : (s.setQueue .rxq q).cntTruncated = s.cntTruncated := rfl
@[simp] theorem State.setRxq_cntAlloc (s : State) (q : Queue) : (s.setQueue .rxq q).cntAlloc = s.cntAlloc := rfl
@[simp] theorem State.setRxq_phase (s : State) (q : Queue) : (s.setQueue .rxq q).phase = s.phase := rfl
@[simp] theorem State.setRxq_session (s : State) (q : Queue) : (s.setQueue .rxq q).session = s.session := rfl
@[simp] theorem State.setRxq_request (s : State) (q : Queue) : (s.setQueue .rxq q).request = s.request := rfl
@[simp] theorem State.setRxq_inbound (s : State) (q : Queue) : (s.setQueue .rxq q).inbound = s.inbound := rfl
@[simp] theorem State.setRxq_turns (s : State) (q : Queue) : (s.setQueue .rxq q).turns = s.turns := rfl
@[simp] theorem State.setRxq_accepted (s : State) (q : Queue) : (s.setQueue .rxq q).accepted = s.accepted := rfl
@[simp] theorem State.setRxq_busFrames (s : State) (q : Queue) : (s.setQueue .rxq q).busFrames = s.busFrames := rfl
@[simp] theorem State.setRxq_bufAvail (s : State) (q : Queue) : (s.setQueue .rxq q).bufAvail = s.bufAvail := rfl
@[simp] theorem State.setRxq_draws (s : State) (q : Queue) : (s.setQueue .rxq q).draws = s.draws := rfl
@[simp] theorem State.setRxq_events (s : State) (q : Queue) : (s.setQueue .rxq q).events = s.events := rfl

@[simp] theorem State.setTxq_ready (s : State) (q : Queue) : (s.setQueue .txq q).ready = s.ready := rfl
@[simp] theorem State.setTxq_settings (s : State) (q : Queue) : (s.setQueue .txq q).settings = s.settings := rfl
@[simp] theorem State.setTxq_rxq (s : State) (q : Queue) : (s.setQueue .txq q).rxq = s.rxq := rfl
@[simp] theorem State.setTxq_txq (s : State) (q : Queue) : (s.setQueue .txq q).txq = q := rfl
@[simp] theorem State.setTxq_seq (s : State) (q : Queue) : (s.setQueue .txq q).seq = s.seq := rfl
@[simp] theorem State.setTxq_cntMalformed (s : State) (q : Queue) : (s.setQueue .txq q).cntMalformed = s.cntMalformed := rfl
@[simp] theorem State.setTxq_cntVersion (s : State) (q : Queue) : (s.setQueue .txq q).cntVersion = s.cntVersion := rfl
@[simp] theorem State.setTxq_cntOpcode (s : State) (q : Queue) : (s.setQueue .txq q).cntOpcode = s.cntOpcode := rfl
@[simp] theorem State.setTxq_cntTruncated (s : State) (q : Queue) : (s.setQueue .txq q).cntTruncated = s.cntTruncated := rfl
@[simp] theorem State.setTxq_cntAlloc (s : State) (q : Queue) : (s.setQueue .txq q).cntAlloc = s.cntAlloc := rfl
@[simp] theorem State.setTxq_phase (s : State) (q : Queue) : (s.setQueue .txq q).phase = s.phase := rfl
@[simp] theorem State.setTxq_session (s : State) (q : Queue) : (s.setQueue .txq q).session = s.session := rfl
@[simp] theorem State.setTxq_request (s : State) (q : Queue) : (s.setQueue .txq q).request = s.request := rfl
@[simp] theorem State.setTxq_inbound (s : State) (q : Queue) : (s.setQueue .txq q).inbound = s.inbound := rfl
@[simp] theorem State.setTxq_turns (s : State) (q : Queue) : (s.setQueue .txq q).turns = s.turns := rfl
@[simp] theorem State.setTxq_accepted (s : State) (q : Queue) : (s.setQueue .txq q).accepted = s.accepted := rfl
@[simp] theorem State.setTxq_busFrames (s : State) (q : Queue) : (s.setQueue .txq q).busFrames = s.busFrames := rfl
@[simp] theorem State.setTxq_bufAvail (s : State) (q : Queue) : (s.setQueue .txq q).bufAvail = s.bufAvail := rfl
@[simp] theorem State.setTxq_draws (s : State) (q : Queue) : (s.setQueue .txq q).draws = s.draws := rfl
@[simp] theorem State.setTxq_events (s : State) (q : Queue) : (s.setQueue .txq q).events = s.events := rfl

@[simp] theorem State.advance_ready (s : State) : (s.advance).ready = s.ready := rfl
@[simp] theorem State.advance_settings (s : State) : (s.advance).settings = s.settings := rfl
@[simp] theorem State.advance_rxq (s : State) : (s.advance).rxq = s.rxq := rfl
@[simp] theorem State.advance_txq (s : State) : (s.advance).txq = s.txq := rfl
@[simp] theorem State.advance_seq (s : State) : (s.advance).seq = s.seq := rfl
@[simp] theorem State.advance_cntMalformed (s : State) : (s.advance).cntMalformed = s.cntMalformed := rfl
@[simp] theorem State.advance_cntVersion (s : State) : (s.advance).cntVersion = s.cntVersion := rfl
@[simp] theorem State.advance_cntOpcode (s : State) : (s.advance).cntOpcode = s.cntOpcode := rfl
@[simp] theorem State.advance_cntTruncated (s : State) : (s.advance).cntTruncated = s.cntTruncated := rfl
@[simp] theorem State.advance_cntAlloc (s : State) : (s.advance).cntAlloc = s.cntAlloc := rfl
@[simp] theorem State.advance_phase (s : State) : (s.advance).phase = s.phase.next := rfl
@[simp] theorem State.advance_session (s : State) : (s.advance).session = s.session := rfl
@[simp] theorem State.advance_request (s : State) : (s.advance).request = s.request := rfl
@[simp] theorem State.advance_inbound (s : State) : (s.advance).inbound = s.inbound := rfl
@[simp] theorem State.advance_turns (s : State) : (s.advance).turns = s.turns := rfl
@[simp] theorem State.advance_accepted (s : State) : (s.advance).accepted = s.accepted := rfl
@[simp] theorem State.advance_busFrames (s : State) : (s.advance).busFrames = s.busFrames := rfl
@[simp] theorem State.advance_bufAvail (s : State) : (s.advance).bufAvail = s.bufAvail := rfl
@[simp] theorem State.advance_draws (s : State) : (s.advance).draws = s.draws := rfl
@[simp] theorem State.advance_events (s : State) : (s.advance).events = s.events := rfl

@[simp] theorem State.count_ready (s : State) (st : Status) : (s.count st).ready = s.ready := by cases st <;> rfl
@[simp] theorem State.count_settings (s : State) (st : Status) : (s.count st).settings = s.settings := by cases st <;> rfl
@[simp] theorem State.count_rxq (s : State) (st : Status) : (s.count st).rxq = s.rxq := by cases st <;> rfl
@[simp] theorem State.count_txq (s : State) (st : Status) : (s.count st).txq = s.txq := by cases st <;> rfl
@[simp] theorem State.count_seq (s : State) (st : Status) : (s.count st).seq = s.seq := by cases st <;> rfl
@[simp] theorem State.count_phase (s : State) (st : Status) : (s.count st).phase = s.phase := by cases st <;> rfl
@[simp] theorem State.count_session (s : State) (st : Status) : (s.count st).session = s.session := by cases st <;> rfl
@[simp] theorem State.count_request (s : State) (st : Status) : (s.count st).request = s.request := by cases st <;> rfl
@[simp] theorem State.count_inbound (s : State) (st : Status) : (s.count st).inbound = s.inbound := by cases st <;> rfl
@[simp] theorem State.count_turns (s : State) (st : Status) : (s.count st).turns = s.turns := by cases st <;> rfl
@[simp] theorem State.count_accepted (s : State) (st : Status) : (s.count st).accepted = s.accepted := by cases st <;> rfl
@[simp] theorem State.count_busFrames (s : State) (st : Status) : (s.count st).busFrames = s.busFrames := by cases st <;> rfl
@[simp] theorem State.count_bufAvail (s : State) (st : Status) : (s.count st).bufAvail = s.bufAvail := by cases st <;> rfl
@[simp] theorem State.count_draws (s : State) (st : Status) : (s.count st).draws = s.draws := by cases st <;> rfl
@[simp] theorem State.count_events (s : State) (st : Status) : (s.count st).events = s.events := by cases st <;> rfl

@[simp] theorem State.endDecode_ready (s : State) (st : Status) (n : Nat) : (s.endDecode st n).ready = s.ready := by
  simp [State.endDecode]
@[simp] theorem State.endDecode_settings (s : State) (st : Status) (n : Nat) : (s.endDecode st n).settings = s.settings := by
  simp [State.endDecode]
@[simp] theorem State.endDecode_rxq (s : State) (st : Status) (n : Nat) : (s.endDecode st n).rxq = s.rxq := by
  simp [State.endDecode]
@[simp] theorem State.endDecode_txq (s : State) (st : Status) (n : Nat) : (s.endDecode st n).txq = s.txq := by
  simp [State.endDecode]
@[simp] theorem State.endDecode_seq (s : State) (st : Status) (n : Nat) : (s.endDecode st n).seq = s.seq := by
  simp [State.endDecode]
@[simp] theorem State.endDecode_phase (s : State) (st : Status) (n : Nat) : (s.endDecode st n).phase = s.phase := by
  simp [State.endDecode]
@[simp] theorem State.endDecode_session (s : State) (st : Status) (n : Nat) : (s.endDecode st n).session = s.session := by
  simp [State.endDecode]
@[simp] theorem State.endDecode_request (s : State) (st : Status) (n : Nat) : (s.endDecode st n).request = s.request := by
  simp [State.endDecode]
@[simp] theorem State.endDecode_inbound (s : State) (st : Status) (n : Nat) : (s.endDecode st n).inbound = s.inbound := by
  simp [State.endDecode]
@[simp] theorem State.endDecode_turns (s : State) (st : Status) (n : Nat) : (s.endDecode st n).turns = s.turns := by
  simp [State.endDecode]
@[simp] theorem State.endDecode_accepted (s : State) (st : Status) (n : Nat) : (s.endDecode st n).accepted = s.accepted := by
  simp [State.endDecode]
@[simp] theorem State.endDecode_busFrames (s : State) (st : Status) (n : Nat) : (s.endDecode st n).busFrames = s.busFrames := by
  simp [State.endDecode]
@[simp] theorem State.endDecode_bufAvail (s : State) (st : Status) (n : Nat) : (s.endDecode st n).bufAvail = s.bufAvail := by
  simp [State.endDecode]
@[simp] theorem State.endDecode_draws (s : State) (st : Status) (n : Nat) : (s.endDecode st n).draws = s.draws := by
  simp [State.endDecode]

@[simp] theorem State.endDecode_events (s : State) (st : Status) (n : Nat) :
    (s.endDecode st n).events = s.events ++ [.release, .response (.decoded st n)] := by
  simp [State.endDecode]

@[simp] theorem State.setQueue_ready (s : State) (id : QueueId) (q : Queue) : (s.setQueue id q).ready = s.ready := by cases id <;> rfl
@[simp] theorem State.setQueue_settings (s : State) (id : QueueId) (q : Queue) : (s.setQueue id q).settings = s.settings := by cases id <;> rfl
@[simp] theorem State.setQueue_seq (s : State) (id : QueueId) (q : Queue) : (s.setQueue id q).seq = s.seq := by cases id <;> rfl
@[simp] theorem State.setQueue_cntMalformed (s : State) (id : QueueId) (q : Queue) : (s.setQueue id q).cntMalformed = s.cntMalformed := by cases id <;> rfl
@[simp] theorem State.setQueue_cntVersion (s : State) (id : QueueId) (q : Queue) : (s.setQueue id q).cntVersion = s.cntVersion := by cases id <;> rfl
@[simp] theorem State.setQueue_cntOpcode (s : State) (id : QueueId) (q : Queue) : (s.setQueue id q).cntOpcode = s.cntOpcode := by cases id <;> rfl
@[simp] theorem State.setQueue_cntTruncated (s : State) (id : QueueId) (q : Queue) : (s.setQueue id q).cntTruncated = s.cntTruncated := by cases id <;> rfl
@[simp] theorem State.setQueue_cntAlloc (s : State) (id : QueueId) (q : Queue) : (s.setQueue id q).cntAlloc = s.cntAlloc := by cases id <;> rfl
@[simp] theorem State.setQueue_phase (s : State) (id : QueueId) (q : Queue) : (s.setQueue id q).phase = s.phase := by cases id <;> rfl
@[simp] theorem State.setQueue_session (s : State) (id : QueueId) (q : Queue) : (s.setQueue id q).session = s.session := by cases id <;> rfl
@[simp] theorem State.setQueue_request (s : State) (id : QueueId) (q : Queue) : (s.setQueue id q).request = s.request := by cases id <;> rfl
@[simp] theorem State.setQueue_inbound (s : State) (id : QueueId) (q : Queue) : (s.setQueue id q).inbound = s.inbound := by cases id <;> rfl
@[simp] theorem State.setQueue_turns (s : State) (id : QueueId) (q : Queue) : (s.setQueue id q).turns = s.turns := by cases id <;> rfl
@[simp] theorem State.setQueue_accepted (s : State) (id : QueueId) (q : Queue) : (s.setQueue id q).accepted = s.accepted := by cases id <;> rfl
@[simp] theorem State.setQueue_busFrames (s : State) (id : QueueId) (q : Queue) : (s.setQueue id q).busFrames = s.busFrames := by cases id <;> rfl
@[simp] theorem State.setQueue_bufAvail (s : State) (id : QueueId) (q : Queue) : (s.setQueue id q).bufAvail = s.bufAvail := by cases id <;> rfl
@[simp] theorem State.setQueue_draws (s : State) (id : QueueId) (q : Queue) : (s.setQueue id q).draws = s.draws := by cases id <;> rfl
@[simp] theorem State.setQueue_events (s : State) (id : QueueId) (q : Queue) : (s.setQueue id q).events = s.events := by cases id <;> rfl

@[simp] theorem State.queue_rxq (s : State) : s.queue .rxq = s.rxq := rfl
@[simp] theorem State.queue_txq (s : State) : s.queue .txq = s.txq := rfl

@[simp] theorem State.queue_setQueue_same (s : State) (id : QueueId) (q : Queue) : (s.setQueue id q).queue id = q := by
  cases id <;> rfl

theorem State.queue_setQueue_other (s : State) {id id' : QueueId} (q : Queue) (h : id' ≠ id) :
    (s.setQueue id q).queue id' = s.queue id' := by
  cases id <;> cases id' <;> first | rfl | exact absurd rfl h

@[simp] theorem State.setQueue_queue (s : State) (id : QueueId) : s.setQueue id (s.queue id) = s := by
  cases id <;> rfl

@[simp] theorem Queue.publish_size (q : Queue) (f : SigFrame) : (q.publish f).size = q.size := rfl
@[simp] theorem Queue.publish_head (q : Queue) (f : SigFrame) : (q.publish f).head = q.head := rfl
@[simp] theorem Queue.publish_tail (q : Queue) (f : SigFrame) : (q.publish f).tail = q.next q.tail := rfl
@[simp] theorem Queue.publish_drop (q : Queue) (f : SigFrame) : (q.publish f).drop = q.drop := rfl
@[simp] theorem Queue.publish_slots (q : Queue) (f : SigFrame) : (q.publish f).slots = q.slots.set q.tail f := rfl
@[simp] theorem Queue.pop_size (q : Queue) : q.pop.size = q.size := rfl
@[simp] theorem Queue.pop_head (q : Queue) : q.pop.head = q.next q.head := rfl
@[simp] theorem Queue.pop_tail (q : Queue) : q.pop.tail = q.tail := rfl
@[simp] theorem Queue.pop_drop (q : Queue) : q.pop.drop = q.drop := rfl
@[simp] theorem Queue.pop_slots (q : Queue) : q.pop.slots = q.slots := rfl

theorem State.whenReady_ready {s : State} (h : s.ready = true) (r : Host.Outcome State Fault Refusal) :
    s.whenReady r = r := by
  simp [State.whenReady, h]

theorem State.whenReady_notReady {s : State} (h : s.ready = false) (r : Host.Outcome State Fault Refusal) :
    s.whenReady r = .refused .beforeInit := by
  simp [State.whenReady, h]

/-- An operation that answers a next state did so in an initialised block. -/
theorem State.whenReady_next {s t : State} {r : Host.Outcome State Fault Refusal} (h : s.whenReady r = .next t) :
    s.ready = true ∧ r = .next t := by
  unfold State.whenReady at h
  split at h
  · exact ⟨‹_›, h⟩
  · cases h

end Sys2Proof.Machine
end

