-- ==== Sys2Proof/Laws/Queue.lean ====
section
/-! SUPPORT. A queue as the list of its content (10_state.md R25, 41_queue.md R118). -/

namespace Sys2Proof.Machine

theorem mod_small {a n : Nat} (h : a < 2 * n) : a % n = if a < n then a else a - n := by
  split
  · exact Nat.mod_eq_of_lt ‹_›
  · rw [Nat.mod_eq_sub_mod (by omega), Nat.mod_eq_of_lt (by omega)]

theorem Queue.next_eq {q : Queue} {i : Nat} (h : i < q.size) : q.next i = if i + 1 = q.size then 0 else i + 1 := by
  unfold Queue.next
  split
  · rename_i h'; rw [h', Nat.mod_self]
  · exact Nat.mod_eq_of_lt (by omega)

theorem Queue.next_lt {q : Queue} {i : Nat} (h : i < q.size) : q.next i < q.size := by
  rw [Queue.next_eq h]; split <;> omega

theorem Queue.occ_eq {q : Queue} (hh : q.head < q.size) (ht : q.tail < q.size) :
    q.occ = if q.head ≤ q.tail then q.tail - q.head else q.tail + q.size - q.head := by
  unfold Queue.occ
  rw [mod_small (by omega)]
  split <;> split <;> omega

theorem Queue.occ_lt {q : Queue} (hh : q.head < q.size) (ht : q.tail < q.size) : q.occ < q.size := by
  rw [Queue.occ_eq hh ht]; split <;> omega

theorem Queue.isEmpty_iff {q : Queue} (hh : q.head < q.size) (ht : q.tail < q.size) : q.isEmpty = true ↔ q.occ = 0 := by
  rw [Queue.occ_eq hh ht]
  simp only [Queue.isEmpty, beq_iff_eq]
  split <;> omega

theorem Queue.isFull_iff {q : Queue} (hh : q.head < q.size) (ht : q.tail < q.size) :
    q.isFull = true ↔ q.occ = q.size - 1 := by
  rw [Queue.occ_eq hh ht]
  simp only [Queue.isFull, beq_iff_eq, Queue.next_eq ht]
  split <;> split <;> omega

@[simp] theorem Queue.content_length (rtr : Fin 32) (q : Queue) : (q.content rtr).length = q.occ := by
  simp [Queue.content]

/-- A dequeue of a queue that is not empty takes one frame away. -/
theorem Queue.occ_pop {q : Queue} (hh : q.head < q.size) (ht : q.tail < q.size) (h : q.isEmpty = false) :
    q.occ = q.pop.occ + 1 := by
  have hn := Queue.next_lt hh
  have he : ¬ q.head = q.tail := by simpa [Queue.isEmpty] using h
  rw [Queue.occ_eq hh ht, Queue.occ_eq (q := q.pop) (by simpa using hn) (by simpa using ht)]
  simp only [Queue.pop_head, Queue.pop_tail, Queue.pop_size, Queue.next_eq hh]
  split <;> split <;> split <;> omega

/-- A publication in a queue that is not full adds one frame. -/
theorem Queue.occ_publish {q : Queue} (f : SigFrame) (hh : q.head < q.size) (ht : q.tail < q.size) (h : q.isFull = false) :
    (q.publish f).occ = q.occ + 1 := by
  have hn := Queue.next_lt ht
  have he : ¬ q.next q.tail = q.head := by simpa [Queue.isFull] using h
  rw [Queue.occ_eq hh ht, Queue.occ_eq (q := q.publish f) (by simpa using hh) (by simpa using hn)]
  simp only [Queue.publish_head, Queue.publish_tail, Queue.publish_size, Queue.next_eq ht] at he ⊢
  split at he <;> split <;> split <;> split <;> omega

/-- The index of a live slot is not that of the slot ENQ writes. -/
theorem Queue.live_ne_tail {q : Queue} (hh : q.head < q.size) (ht : q.tail < q.size) {k : Nat} (hk : k < q.occ) :
    (q.head + k) % q.size ≠ q.tail := by
  have := Queue.occ_lt hh ht
  rw [mod_small (by omega)]
  rw [Queue.occ_eq hh ht] at hk
  split at hk <;> split <;> omega

theorem Queue.head_add_occ {q : Queue} (hh : q.head < q.size) (ht : q.tail < q.size) :
    (q.head + q.occ) % q.size = q.tail := by
  have := Queue.occ_lt hh ht
  rw [mod_small (by omega), Queue.occ_eq hh ht]
  split <;> split <;> omega

theorem Queue.pop_index (q : Queue) (k : Nat) :
    (q.next q.head + k) % q.size = (q.head + (k + 1)) % q.size := by
  rw [Queue.next, Nat.mod_add_mod]
  congr 1; omega

/-- The content of a queue that is not empty is the frame at `head`, then the content after a dequeue. -/
theorem Queue.content_pop (rtr : Fin 32) {q : Queue} (hh : q.head < q.size) (ht : q.tail < q.size)
    (h : q.isEmpty = false) : q.content rtr = q.front rtr :: q.pop.content rtr := by
  unfold Queue.content
  rw [Queue.occ_pop hh ht h, List.range_succ_eq_map]
  simp only [List.map_cons, List.map_map, Nat.add_zero, Nat.mod_eq_of_lt hh, Queue.front, Queue.pop_head, Queue.pop_size]
  congr 1
  apply List.map_congr_left
  intro k _
  show q.slotAt rtr ((q.head + (k + 1)) % q.size) = q.pop.slotAt rtr ((q.next q.head + k) % q.size)
  rw [Queue.pop_index]
  rfl

/-- An empty queue has no content. -/
theorem Queue.content_empty (rtr : Fin 32) {q : Queue} (hh : q.head < q.size) (ht : q.tail < q.size)
    (h : q.isEmpty = true) : q.content rtr = [] := by
  simp [Queue.content, (Queue.isEmpty_iff hh ht).1 h]

/-- A publication appends to the content. -/
theorem Queue.content_publish (rtr : Fin 32) {q : Queue} (f : SigFrame) (hh : q.head < q.size) (ht : q.tail < q.size)
    (h : q.isFull = false) : (q.publish f).content rtr = q.content rtr ++ [f] := by
  unfold Queue.content
  rw [Queue.occ_publish f hh ht h, List.range_succ, List.map_append]
  simp only [Queue.publish_head, Queue.publish_size, List.map_cons, List.map_nil]
  congr 1
  · apply List.map_congr_left
    intro k hk
    simp only [Queue.slotAt, Queue.publish_slots,
      Memory.get_set_other _ _ (Queue.live_ne_tail hh ht (List.mem_range.1 hk))]
  · simp [Queue.slotAt, Queue.head_add_occ hh ht, Memory.get_set_same]

/-- The drop counter is not part of the content. -/
@[simp] theorem Queue.content_drop (rtr : Fin 32) (q : Queue) (d : Word32) :
    ({ q with drop := d } : Queue).content rtr = q.content rtr := rfl

/-- A frame in a live slot of a queue in order is well-formed. -/
theorem Queue.Ok.slotAt_ok {rtr : Fin 32} {q : Queue} (h : q.Ok rtr) {k : Nat} (hk : k < q.occ) :
    (q.slotAt rtr ((q.head + k) % q.size)).ok rtr = true := by
  obtain ⟨f, hf⟩ := Option.isSome_iff_exists.1 (h.live k hk)
  simp only [Queue.slotAt, hf, Option.getD_some]
  exact h.slots_ok _ (Memory.get_mem hf)

/-- Every frame in the content of a queue in order is well-formed (10_state.md R21). -/
theorem Queue.Ok.content_ok {rtr : Fin 32} {q : Queue} (h : q.Ok rtr) : ∀ f ∈ q.content rtr, f.ok rtr = true := by
  intro f hf
  obtain ⟨k, hk, rfl⟩ := List.mem_map.1 hf
  exact h.slotAt_ok (List.mem_range.1 hk)

theorem Queue.fresh_ok (rtr : Fin 32) {n : Nat} (h : 2 ≤ n) : (Queue.fresh n).Ok rtr where
  two_le := h
  head_lt := by simp only [Queue.fresh]; omega
  tail_lt := by simp only [Queue.fresh]; omega
  slots_wf := List.Pairwise.nil
  slots_lt := by simp [Queue.fresh]
  slots_ok := by simp [Queue.fresh]
  live := by simp [Queue.fresh, Queue.occ]

theorem Queue.Ok.dropped {rtr : Fin 32} {q : Queue} (h : q.Ok rtr) (d : Word32) : ({ q with drop := d } : Queue).Ok rtr :=
  ⟨h.1, h.2, h.3, h.4, h.5, h.6, h.7⟩

theorem Queue.Ok.pop {rtr : Fin 32} {q : Queue} (h : q.Ok rtr) (he : q.isEmpty = false) : q.pop.Ok rtr where
  two_le := h.two_le
  head_lt := Queue.next_lt h.head_lt
  tail_lt := h.tail_lt
  slots_wf := h.slots_wf
  slots_lt := h.slots_lt
  slots_ok := h.slots_ok
  live := by
    intro k hk
    have := Queue.occ_pop h.head_lt h.tail_lt he
    have := h.live (k + 1) (by omega)
    rwa [← Queue.pop_index] at this

theorem Queue.Ok.publish {rtr : Fin 32} {q : Queue} (h : q.Ok rtr) (hf : q.isFull = false) {f : SigFrame}
    (hok : f.ok rtr = true) : (q.publish f).Ok rtr where
  two_le := h.two_le
  head_lt := h.head_lt
  tail_lt := Queue.next_lt h.tail_lt
  slots_wf := Memory.set_wf _ _ h.slots_wf
  slots_lt := by
    intro p hp
    rcases Memory.mem_set hp with rfl | hp
    · exact h.tail_lt
    · exact h.slots_lt p hp
  slots_ok := by
    intro p hp
    rcases Memory.mem_set hp with rfl | hp
    · exact hok
    · exact h.slots_ok p hp
  live := by
    intro k hk
    rw [Queue.occ_publish f h.head_lt h.tail_lt hf] at hk
    simp only [Queue.publish_head, Queue.publish_size, Queue.publish_slots]
    by_cases hk' : k < q.occ
    · rw [Memory.get_set_other _ _ (Queue.live_ne_tail h.head_lt h.tail_lt hk')]
      exact h.live k hk'
    · have : k = q.occ := by omega
      subst this
      rw [Queue.head_add_occ h.head_lt h.tail_lt, Memory.get_set_same]; rfl

/-- What the room test of ENQ and DECODE can do: count a drop and change nothing else, or append. -/
theorem Queue.offer_cases (q : Queue) (f : SigFrame) :
    (q.isFull = true ∧ q.offer f = (.full, { q with drop := q.drop + 1 })) ∨
      (q.isFull = false ∧ q.offer f = (.ok, q.publish f)) := by
  unfold Queue.offer
  cases q.isFull <;> simp

theorem Queue.Ok.offer {rtr : Fin 32} {q : Queue} (h : q.Ok rtr) {f : SigFrame} (hf : f.ok rtr = true) :
    (q.offer f).2.Ok rtr := by
  rcases Queue.offer_cases q f with ⟨_, e⟩ | ⟨hfull, e⟩ <;> rw [e]
  · exact h.dropped _
  · exact h.publish hfull hf

@[simp] theorem Queue.offer_head (q : Queue) (f : SigFrame) : (q.offer f).2.head = q.head := by
  rcases Queue.offer_cases q f with ⟨_, e⟩ | ⟨_, e⟩ <;> rw [e]; rfl

@[simp] theorem Queue.offer_size (q : Queue) (f : SigFrame) : (q.offer f).2.size = q.size := by
  rcases Queue.offer_cases q f with ⟨_, e⟩ | ⟨_, e⟩ <;> rw [e]; rfl

end Sys2Proof.Machine
end

