-- ==== Sys2Proof/Laws/Codec.lean ====
section
/-! SUPPORT. What ENCODE and DECODE do, said once (42_encode.md, 43_decode.md). -/

namespace Sys2Proof.Machine

/-! ## ENCODE -/

/-- The sizes of some frames' records, added up. -/
def wireTotal (rtr : Fin 32) (fs : List SigFrame) : Nat := (fs.map (SigFrame.wireSize rtr)).sum

@[simp] theorem wireTotal_nil (rtr : Fin 32) : wireTotal rtr [] = 0 := rfl

@[simp] theorem wireTotal_cons (rtr : Fin 32) (f : SigFrame) (fs : List SigFrame) :
    wireTotal rtr (f :: fs) = f.wireSize rtr + wireTotal rtr fs := by
  simp [wireTotal]

theorem wireTotal_ge (rtr : Fin 32) (fs : List SigFrame) : 5 * fs.length ≤ wireTotal rtr fs := by
  induction fs with
  | nil => simp
  | cons f fs ih =>
    have := SigFrame.wireSize_ge rtr f
    simp only [wireTotal_cons, List.length_cons]; omega

theorem records_length {rtr : Fin 32} {fs : List SigFrame} (h : ∀ f ∈ fs, f.ok rtr = true) :
    (fs.flatMap SigFrame.record).length = wireTotal rtr fs := by
  induction fs with
  | nil => rfl
  | cons f fs ih =>
    rw [List.flatMap_cons, List.length_append, wireTotal_cons, ih fun g hg => h g (List.mem_cons_of_mem _ hg),
      SigFrame.record_length_ok (h f List.mem_cons_self)]

/-- What ENCODE's loop does: it takes the longest run of frames from the front whose records fit, in order, and leaves the
rest (42_encode.md R133 to R135). -/
structure Batch.Spec (rtr : Fin 32) (limit pos : Nat) (q : Queue) (b : Batch) : Prop where
  ok : b.queue.Ok rtr
  kept : b.queue = { q with head := b.queue.head }
  head_eq : b.queue.head = (q.head + b.count) % q.size
  content : q.content rtr = (q.content rtr).take b.count ++ b.queue.content rtr
  count_le : b.count ≤ q.occ
  records : b.records = ((q.content rtr).take b.count).flatMap SigFrame.record
  pos_eq : b.pos = pos + wireTotal rtr ((q.content rtr).take b.count)
  fits : b.count = 0 ∨ b.pos ≤ limit
  greedy : ∀ f fs, b.queue.content rtr = f :: fs → limit < b.pos + f.wireSize rtr

theorem batch_spec (rtr : Fin 32) (limit : Nat) : ∀ (fuel pos : Nat) (q : Queue), q.Ok rtr → q.occ ≤ fuel →
    Batch.Spec rtr limit pos q (batch rtr limit fuel pos q)
  | fuel, pos, q, hq, hf => by
    have stop : (∀ f fs, q.content rtr = f :: fs → limit < pos + f.wireSize rtr) →
        Batch.Spec rtr limit pos q ⟨q, pos, 0, []⟩ := fun h =>
      ⟨hq, rfl, (Nat.mod_eq_of_lt hq.head_lt).symm, by simp, Nat.zero_le _, by simp, by simp, .inl rfl, h⟩
    cases fuel with
    | zero =>
      apply stop
      intro f fs h
      have := congrArg List.length h
      simp at this; omega
    | succ fuel =>
      simp only [batch]
      split
      · rename_i he
        apply stop
        intro f fs h
        rw [Queue.content_empty rtr hq.head_lt hq.tail_lt he] at h
        cases h
      · rename_i he
        have he : q.isEmpty = false := by simpa using he
        have hc := Queue.content_pop rtr hq.head_lt hq.tail_lt he
        split
        · rename_i hl
          apply stop
          intro f fs h
          rw [hc] at h
          obtain ⟨rfl, -⟩ := List.cons.inj h
          exact hl
        · rename_i hl
          have ho := Queue.occ_pop hq.head_lt hq.tail_lt he
          have ih := batch_spec rtr limit fuel (pos + (q.front rtr).wireSize rtr) q.pop (hq.pop he) (by omega)
          generalize batch rtr limit fuel (pos + (q.front rtr).wireSize rtr) q.pop = b at ih
          refine ⟨ih.ok, ?_, ?_, ?_, ?_, ?_, ?_, ?_, ih.greedy⟩
          · have := ih.kept
            simp only [Queue.pop] at this
            simpa using this
          · have := ih.head_eq
            rw [Queue.pop_head, Queue.pop_size, Queue.pop_index] at this
            rw [this, Nat.add_comm b.count 1, Nat.add_comm 1 b.count]
          · rw [hc, List.take_succ_cons, List.cons_append]
            exact congrArg _ ih.content
          · have := ih.count_le
            show b.count + 1 ≤ q.occ
            omega
          · simp only [hc, List.take_succ_cons, List.flatMap_cons, ih.records]
          · simp only [hc, List.take_succ_cons, wireTotal_cons, ih.pos_eq]; omega
          · rcases ih.fits with h | h
            · right
              have := ih.pos_eq
              rw [h] at this
              simp only [List.take_zero, wireTotal_nil] at this
              show b.pos ≤ limit
              omega
            · exact .inr h

/-- The batch that an ENCODE of a queue in order takes. -/
theorem State.batchOf_spec {s : State} {id : QueueId} (h : (s.queue id).Ok s.settings.rtrBit) (limit : Nat) :
    Batch.Spec s.settings.rtrBit limit Config.hdrSize (s.queue id) (s.batchOf id limit) :=
  batch_spec _ _ _ _ _ h (Nat.le_refl _)

/-- What ENCODE can do: nothing at all, or take a batch and count it in `SEQ` (42_encode.md R133, R137, R138). -/
theorem State.encode_cases (s : State) (id : QueueId) (limit : Nat) :
    ((s.batchOf id limit).count = 0 ∧ s.encode id limit = (⟨0, 0, []⟩, s)) ∨
      ((s.batchOf id limit).count ≠ 0 ∧ s.encode id limit =
        (⟨(s.batchOf id limit).pos, (s.batchOf id limit).count, (s.batchOf id limit).datagram s.settings.version s.seq⟩,
          { s.setQueue id (s.batchOf id limit).queue with seq := s.seq + 1 })) := by
  unfold State.encode
  by_cases h : (s.batchOf id limit).count = 0 <;> simp [h]

/-! ## DECODE -/

/-- What DECODE's loop does: it reads records from the front of the bytes, appends their frames to the content, and ends for
one of three reasons (43_decode.md R151, R158 to R160). -/
theorem decodeRecords_spec (rtr : Fin 32) : ∀ (k : Nat) (bs : List Byte) (n : Nat) (q : Queue), q.Ok rtr →
    ∃ fs rest, (∀ f ∈ fs, f.ok rtr = true) ∧ bs = fs.flatMap SigFrame.record ++ rest ∧
      (decodeRecords rtr k bs n q).2.1 = n + fs.length ∧
      (decodeRecords rtr k bs n q).2.2.Ok rtr ∧
      (decodeRecords rtr k bs n q).2.2.head = q.head ∧
      (decodeRecords rtr k bs n q).2.2.size = q.size ∧
      (decodeRecords rtr k bs n q).2.2.content rtr = q.content rtr ++ fs ∧
      ((fs.length = k ∧ (decodeRecords rtr k bs n q).1 = .ok ∧ (decodeRecords rtr k bs n q).2.2.drop = q.drop) ∨
       (fs.length < k ∧ (∃ st, readRecord rtr rest = .error st ∧ (decodeRecords rtr k bs n q).1 = st) ∧
          (decodeRecords rtr k bs n q).2.2.drop = q.drop) ∨
       (fs.length < k ∧ (∃ r, readRecord rtr rest = .ok r) ∧ (decodeRecords rtr k bs n q).1 = .full ∧
          (decodeRecords rtr k bs n q).2.2.isFull = true ∧ (decodeRecords rtr k bs n q).2.2.drop = q.drop + 1))
  | 0, bs, n, q, hq => ⟨[], bs, by simp, rfl, rfl, hq, rfl, rfl, by simp [decodeRecords], .inl ⟨rfl, rfl, rfl⟩⟩
  | k + 1, bs, n, q, hq => by
    simp only [decodeRecords]
    cases e : readRecord rtr bs with
    | error st =>
      exact ⟨[], bs, by simp, by simp, by trivial, hq, by trivial, by trivial, by simp, .inr (.inl ⟨by simp, ⟨st, e, by trivial⟩, by trivial⟩)⟩
    | ok r =>
      obtain ⟨f, rest⟩ := r
      obtain ⟨hf, hbs⟩ := readRecord_ok e
      rcases Queue.offer_cases q f with ⟨hfull, ho⟩ | ⟨hfull, ho⟩
      · simp only [ho]
        exact ⟨[], bs, by simp, by simp, by trivial, hq.dropped _, by trivial, by trivial, by simp,
          .inr (.inr ⟨by simp, ⟨_, e⟩, by trivial, hfull, by trivial⟩)⟩
      · simp only [ho]
        obtain ⟨fs, rest', h1, h2, h3, h4, h5, h6, h7, h8⟩ :=
          decodeRecords_spec rtr k rest (n + 1) (q.publish f) (hq.publish hfull hf)
        refine ⟨f :: fs, rest', ?_, ?_, ?_, h4, h5, h6, ?_, ?_⟩
        · intro g hg
          rcases List.mem_cons.1 hg with rfl | hg
          · exact hf
          · exact h1 g hg
        · rw [hbs, h2, List.flatMap_cons, List.append_assoc]
        · rw [h3, List.length_cons]; omega
        · rw [h7, Queue.content_publish rtr f hq.head_lt hq.tail_lt hfull, List.append_assoc]; rfl
        · rcases h8 with ⟨a, b, c⟩ | ⟨a, b, c⟩ | ⟨a, b, c, d, e'⟩
          · exact .inl ⟨by simp [a], b, c⟩
          · exact .inr (.inl ⟨by simp; omega, b, c⟩)
          · exact .inr (.inr ⟨by simp; omega, b, c, d, e'⟩)

/-- One turn of DECODE's loop: the record fails its checks, or it meets a full queue, or its frame is published
(43_decode.md R151, R158). -/
theorem decodeRecords_succ (rtr : Fin 32) (k : Nat) (bs : List Byte) (n : Nat) (q : Queue) :
    (∃ st, readRecord rtr bs = .error st ∧ decodeRecords rtr (k + 1) bs n q = (st, n, q)) ∨
    (∃ f rest, readRecord rtr bs = .ok (f, rest) ∧ q.isFull = true ∧
      decodeRecords rtr (k + 1) bs n q = (.full, n, { q with drop := q.drop + 1 })) ∨
    (∃ f rest, readRecord rtr bs = .ok (f, rest) ∧ q.isFull = false ∧
      decodeRecords rtr (k + 1) bs n q = decodeRecords rtr k rest (n + 1) (q.publish f)) := by
  simp only [decodeRecords]
  cases e : readRecord rtr bs with
  | error st => exact .inl ⟨st, rfl, by trivial⟩
  | ok r =>
    obtain ⟨f, rest⟩ := r
    rcases Queue.offer_cases q f with ⟨hfull, ho⟩ | ⟨hfull, ho⟩ <;> simp only [ho]
    · exact .inr (.inl ⟨f, rest, rfl, hfull, by trivial⟩)
    · exact .inr (.inr ⟨f, rest, rfl, hfull, by trivial⟩)

/-- Decoding the records of frames that fit appends exactly them (30_encoding.md R79). -/
theorem decodeRecords_records (rtr : Fin 32) : ∀ (fs : List SigFrame) (rest : List Byte) (n : Nat) (q : Queue), q.Ok rtr →
    (∀ f ∈ fs, f.ok rtr = true) → q.occ + fs.length < q.size →
    (decodeRecords rtr fs.length (fs.flatMap SigFrame.record ++ rest) n q).1 = .ok ∧
    (decodeRecords rtr fs.length (fs.flatMap SigFrame.record ++ rest) n q).2.1 = n + fs.length ∧
    (decodeRecords rtr fs.length (fs.flatMap SigFrame.record ++ rest) n q).2.2.content rtr = q.content rtr ++ fs
  | [], rest, n, q, _, _, _ => ⟨rfl, rfl, by simp [decodeRecords]⟩
  | f :: fs, rest, n, q, hq, hfs, hroom => by
    have hf := hfs f List.mem_cons_self
    have hfull : q.isFull = false := by
      rw [← Bool.not_eq_true, Queue.isFull_iff hq.head_lt hq.tail_lt]
      simp at hroom; omega
    have hocc := Queue.occ_publish f hq.head_lt hq.tail_lt hfull
    have ih := decodeRecords_records rtr fs rest (n + 1) (q.publish f) (hq.publish hfull hf)
      (fun g hg => hfs g (List.mem_cons_of_mem _ hg)) (by simp at hroom ⊢; omega)
    simp only [List.length_cons, List.flatMap_cons, List.append_assoc, decodeRecords, readRecord_record hf, Queue.offer,
      hfull, Bool.false_eq_true, if_false]
    refine ⟨ih.1, by rw [ih.2.1]; omega, ?_⟩
    rw [ih.2.2, Queue.content_publish rtr f hq.head_lt hq.tail_lt hfull, List.append_assoc]; rfl

theorem checkHeader_cases (v : Byte) (h : Header) :
    checkHeader v h = some .versionMismatch ∨ checkHeader v h = some .unsupportedOpCode ∨
      checkHeader v h = some .malformed ∨ (checkHeader v h = none ∧ h.version = v ∧ h.opCode = 0 ∧ h.count ≠ 0) := by
  unfold checkHeader
  repeat' split
  all_goals simp_all [Config.opData]

/-- What DECODE leaves of a queue in order: a queue in order with the same `head` and capacity. -/
theorem decodeInput_ok {g : Settings} (input : List Byte) {q : Queue} (h : q.Ok g.rtrBit) :
    (decodeInput g input q).2.2.Ok g.rtrBit ∧ (decodeInput g input q).2.2.head = q.head ∧
      (decodeInput g input q).2.2.size = q.size ∧
      ∃ fs, (decodeInput g input q).2.2.content g.rtrBit = q.content g.rtrBit ++ fs := by
  unfold decodeInput
  cases readHeader input with
  | none => exact ⟨h, rfl, rfl, [], by simp⟩
  | some r =>
    obtain ⟨hd, rest⟩ := r
    rcases checkHeader_cases g.version hd with e | e | e | ⟨e, _⟩ <;> simp only [e]
    · exact ⟨h, by trivial, by trivial, [], by simp⟩
    · exact ⟨h, by trivial, by trivial, [], by simp⟩
    · exact ⟨h, by trivial, by trivial, [], by simp⟩
    · obtain ⟨fs, _, _, _, _, h4, h5, h6, h7, _⟩ := decodeRecords_spec g.rtrBit hd.count.toNat rest 0 q h
      exact ⟨h4, h5, h6, fs, h7⟩

/-- DECODE never moves `head` nor the capacity, whatever the queue (10_state.md R27). -/
theorem decodeRecords_head (rtr : Fin 32) : ∀ (k : Nat) (bs : List Byte) (n : Nat) (q : Queue),
    (decodeRecords rtr k bs n q).2.2.head = q.head ∧ (decodeRecords rtr k bs n q).2.2.size = q.size
  | 0, _, _, _ => ⟨rfl, rfl⟩
  | k + 1, bs, n, q => by
    simp only [decodeRecords]
    cases readRecord rtr bs with
    | error st => exact ⟨rfl, rfl⟩
    | ok r =>
      obtain ⟨f, rest⟩ := r
      rcases Queue.offer_cases q f with ⟨_, ho⟩ | ⟨_, ho⟩ <;> simp only [ho]
      · exact ⟨trivial, trivial⟩
      · exact decodeRecords_head rtr k rest (n + 1) (q.publish f)

theorem decodeInput_head (g : Settings) (input : List Byte) (q : Queue) :
    (decodeInput g input q).2.2.head = q.head ∧ (decodeInput g input q).2.2.size = q.size := by
  unfold decodeInput
  split
  · exact ⟨rfl, rfl⟩
  · split
    · exact ⟨rfl, rfl⟩
    · exact decodeRecords_head _ _ _ _ _

/-- The statuses a DECODE can end with (60_exceptions.md R201). -/
theorem decodeInput_status (g : Settings) (input : List Byte) {q : Queue} :
    (decodeInput g input q).1 ∈ [Status.ok, .malformed, .versionMismatch, .unsupportedOpCode, .truncated, .full] := by
  have loop : ∀ (k : Nat) (bs : List Byte) (n : Nat) (q : Queue), (decodeRecords g.rtrBit k bs n q).1 ∈
      [Status.ok, .malformed, .versionMismatch, .unsupportedOpCode, .truncated, .full] := by
    intro k
    induction k with
    | zero => intro _ _ _; simp [decodeRecords]
    | succ k ih =>
      intro bs n q
      simp only [decodeRecords]
      cases e : readRecord g.rtrBit bs with
      | error st => rcases readRecord_error e with rfl | rfl <;> simp
      | ok r =>
        obtain ⟨f, rest⟩ := r
        rcases Queue.offer_cases q f with ⟨_, ho⟩ | ⟨_, ho⟩ <;> simp only [ho]
        · simp
        · exact ih rest (n + 1) (q.publish f)
  unfold decodeInput
  split
  · simp
  · rename_i h rest _
    rcases checkHeader_cases g.version h with e | e | e | ⟨e, _⟩ <;> rw [e]
    · simp
    · simp
    · simp
    · exact loop _ _ _ _

end Sys2Proof.Machine
end

