-- ==== Sys2Proof/Laws/Scheduler.lean ====
section
/-! SUPPORT. What the scheduler does with the state, said once (20_memory.md R58 to R63, 44_scheduler.md). -/

namespace Sys2Proof.Machine

/-! ## The network-receive agent -/

/-- Some events among which every answer is that of a DECODE. -/
def OnlyDecodes (es : List Event) : Prop := ∀ r, Event.response r ∈ es → ∃ st n, r = .decoded st n

theorem OnlyDecodes.nil : OnlyDecodes [] := by intro r h; cases h

theorem OnlyDecodes.append {es es' : List Event} (h : OnlyDecodes es) (h' : OnlyDecodes es') : OnlyDecodes (es ++ es') := by
  intro r hr
  rcases List.mem_append.1 hr with hr | hr
  · exact h r hr
  · exact h' r hr

/-- `t` is `s` but for what the network-receive agent owns: the slots and `tail` of TXQ, `TXQ.DROP`, counters 2 to 5, its
ports and the events (20_memory.md R62; 10_state.md R27). -/
structure NetOnly (s t : State) : Prop where
  same : t = { s with
    txq := t.txq, cntMalformed := t.cntMalformed, cntVersion := t.cntVersion, cntOpcode := t.cntOpcode,
    cntTruncated := t.cntTruncated, inbound := t.inbound, turns := t.turns, events := t.events }
  head : t.txq.head = s.txq.head
  size : t.txq.size = s.txq.size
  events : ∃ es, t.events = s.events ++ es ∧ OnlyDecodes es
  ok : s.txq.Ok s.settings.rtrBit → t.txq.Ok s.settings.rtrBit
  content : s.txq.Ok s.settings.rtrBit →
    ∃ fs, t.txq.content s.settings.rtrBit = s.txq.content s.settings.rtrBit ++ fs

theorem NetOnly.refl (s : State) : NetOnly s s :=
  ⟨rfl, rfl, rfl, ⟨[], by simp, .nil⟩, id, fun _ => ⟨[], by simp⟩⟩

theorem NetOnly.settings {s t : State} (h : NetOnly s t) : t.settings = s.settings := by rw [h.same]

theorem NetOnly.trans {s t u : State} (h1 : NetOnly s t) (h2 : NetOnly t u) : NetOnly s u where
  same := by rw [h2.same, h1.same]
  head := by rw [h2.head, h1.head]
  size := by rw [h2.size, h1.size]
  events := by
    obtain ⟨e1, he1, ho1⟩ := h1.events
    obtain ⟨e2, he2, ho2⟩ := h2.events
    exact ⟨e1 ++ e2, by rw [he2, he1, List.append_assoc], ho1.append ho2⟩
  ok h := by
    have := h2.ok
    rw [h1.settings] at this
    exact this (h1.ok h)
  content h := by
    obtain ⟨f1, hf1⟩ := h1.content h
    have h3 := h2.content
    rw [h1.settings] at h3
    obtain ⟨f2, hf2⟩ := h3 (h1.ok h)
    exact ⟨f1 ++ f2, by rw [hf2, hf1, List.append_assoc]⟩

theorem NetOnly.ports (s : State) (ds : List (List Byte)) (ts : List Agent) :
    NetOnly s { s with inbound := ds, turns := ts } :=
  ⟨rfl, rfl, rfl, ⟨[], by simp, .nil⟩, id, fun _ => ⟨[], by simp⟩⟩

theorem State.count_same (s : State) (st : Status) : s.count st = { s with
    cntMalformed := (s.count st).cntMalformed, cntVersion := (s.count st).cntVersion,
    cntOpcode := (s.count st).cntOpcode, cntTruncated := (s.count st).cntTruncated, cntAlloc := (s.count st).cntAlloc } := by
  cases st <;> rfl

theorem State.count_alloc {s : State} {st : Status} (h : st ≠ .allocationFailure) : (s.count st).cntAlloc = s.cntAlloc := by
  cases st <;> first | rfl | exact absurd rfl h

/-- A DECODE of a datagram into TXQ is a step of the network-receive agent. -/
theorem State.decode_netOnly (s : State) (d : List Byte) : NetOnly s (s.decode .txq d) := by
  have hst := decodeInput_status s.settings d (q := s.txq)
  have hna : (decodeInput s.settings d s.txq).1 ≠ .allocationFailure := by
    intro h; rw [h] at hst; simp at hst
  have ha : (s.decode .txq d).cntAlloc = s.cntAlloc := by
    show (State.count _ _).cntAlloc = _
    exact State.count_alloc hna
  refine ⟨?_, ?_, ?_, ?_, ?_, ?_⟩
  · have hc := State.count_same (s.setQueue .txq (decodeInput s.settings d s.txq).2.2) (decodeInput s.settings d s.txq).1
    have ha' : ((s.setQueue .txq (decodeInput s.settings d s.txq).2.2).count (decodeInput s.settings d s.txq).1).cntAlloc
        = s.cntAlloc := State.count_alloc hna
    rw [ha'] at hc
    simp only [State.decode, State.endDecode, State.answer, State.emit, State.queue_txq]
    rw [hc]
    rfl
  · simpa [State.decode] using (decodeInput_head s.settings d s.txq).1
  · simpa [State.decode] using (decodeInput_head s.settings d s.txq).2
  · exact ⟨[.release, .response (.decoded (decodeInput s.settings d s.txq).1 (decodeInput s.settings d s.txq).2.1)],
      by simp only [State.decode, State.endDecode_events, State.setQueue_events, State.queue_txq],
      by intro r hr; simp at hr; exact ⟨_, _, hr⟩⟩
  · intro h
    simpa [State.decode] using (decodeInput_ok d h).1
  · intro h
    simpa [State.decode] using (decodeInput_ok d h).2.2.2

theorem State.netTurns_netOnly (s : State) (ts : List Agent) : NetOnly s (s.netTurns ts) := by
  induction ts generalizing s with
  | nil => exact NetOnly.ports s s.inbound []
  | cons a ts ih =>
    cases a with
    | tick => exact NetOnly.ports s s.inbound ts
    | net =>
      simp only [State.netTurns]
      split
      · exact ih s
      · split
        · rename_i ds _ _
          exact ((NetOnly.ports s ds s.turns).trans (State.decode_netOnly _ _)).trans (ih _)
        · exact NetOnly.ports s s.inbound ts

/-- What can happen at a boundary: only what the network-receive agent may do (20_memory.md R59). -/
theorem State.cutIn_netOnly (s : State) : NetOnly s s.cutIn := by
  unfold State.cutIn
  split
  · exact NetOnly.refl s
  · exact State.netTurns_netOnly s s.turns

@[simp] theorem State.cutIn_cooperative {s : State} (h : s.settings.discipline = .cooperative) : s.cutIn = s := by
  simp [State.cutIn, h]

theorem NetOnly.ready {s t : State} (h : NetOnly s t) : t.ready = s.ready := by rw [h.same]
theorem NetOnly.rxq {s t : State} (h : NetOnly s t) : t.rxq = s.rxq := by rw [h.same]
theorem NetOnly.seq {s t : State} (h : NetOnly s t) : t.seq = s.seq := by rw [h.same]
theorem NetOnly.session {s t : State} (h : NetOnly s t) : t.session = s.session := by rw [h.same]
theorem NetOnly.request {s t : State} (h : NetOnly s t) : t.request = s.request := by rw [h.same]
theorem NetOnly.phase {s t : State} (h : NetOnly s t) : t.phase = s.phase := by rw [h.same]

/-- What the network-receive agent does leaves room for anything in RXQ. -/
theorem NetOnly.withRxq {s t : State} (h : NetOnly s t) (q : Queue) : NetOnly { s with rxq := q } { t with rxq := q } :=
  ⟨by rw [h.same], h.head, h.size, h.events, h.ok, h.content⟩

/-! ## RXSTEP -/

/-- What RXSTEP's loop does, whatever the frames: only `tail`, the slots and the drop counter of RXQ move, and what the
network-receive agent may do (44_scheduler.md R187; 10_state.md R27). -/
structure EnqueueAll (s : State) (t : State) : Prop where
  net : NetOnly { s with rxq := t.rxq } t
  head : t.rxq.head = s.rxq.head
  size : t.rxq.size = s.rxq.size
  ok : s.rxq.Ok s.settings.rtrBit → t.rxq.Ok s.settings.rtrBit
  cooperative : s.settings.discipline = .cooperative → t = { s with rxq := t.rxq }

theorem Queue.enqueue_cases (rtr : Fin 32) (q : Queue) (f : Frame) :
    (f.wf = false ∧ q.enqueue rtr f = (.badFrame, q)) ∨ (f.wf = true ∧ q.enqueue rtr f = q.offer (f.sig rtr)) := by
  unfold Queue.enqueue
  cases f.wf <;> simp

theorem Queue.enqueue_kept (rtr : Fin 32) (q : Queue) (f : Frame) :
    (q.enqueue rtr f).2.head = q.head ∧ (q.enqueue rtr f).2.size = q.size ∧
      (q.Ok rtr → (q.enqueue rtr f).2.Ok rtr) := by
  rcases Queue.enqueue_cases rtr q f with ⟨_, e⟩ | ⟨hw, e⟩ <;> rw [e]
  · exact ⟨rfl, rfl, id⟩
  · exact ⟨Queue.offer_head _ _, Queue.offer_size _ _, fun h => h.offer (Frame.sig_ok rtr hw)⟩

theorem State.enqueueAll_spec (s : State) (fs : List Frame) : EnqueueAll s (s.enqueueAll fs) := by
  induction fs generalizing s with
  | nil => exact ⟨NetOnly.refl s, rfl, rfl, id, fun _ => rfl⟩
  | cons f fs ih =>
    have hq := Queue.enqueue_kept s.settings.rtrBit s.rxq f
    have hn := State.cutIn_netOnly { s with rxq := (s.rxq.enqueue s.settings.rtrBit f).2 }
    have ih := ih { s with rxq := (s.rxq.enqueue s.settings.rtrBit f).2 }.cutIn
    simp only [State.enqueueAll]
    refine ⟨(hn.withRxq _).trans ih.net, ?_, ?_, ?_, ?_⟩
    · rw [ih.head, hn.rxq]; exact hq.1
    · rw [ih.size, hn.rxq]; exact hq.2.1
    · intro h
      have := ih.ok
      rw [hn.rxq, hn.settings] at this
      exact this (hq.2.2 h)
    · intro h
      have hc := State.cutIn_cooperative (s := { s with rxq := (s.rxq.enqueue s.settings.rtrBit f).2 }) h
      have := ih.cooperative (by rw [hn.settings]; exact h)
      simp only [hc] at this ⊢
      exact this

/-- RXSTEP's loop over well-formed frames: RXQ takes as many as it has room for and each later one is a counted drop
(44_scheduler.md R187). -/
theorem State.enqueueAll_wf (fs : List Frame) : ∀ (s : State), s.rxq.Ok s.settings.rtrBit → (∀ f ∈ fs, f.wf = true) →
    (s.enqueueAll fs).rxq.content s.settings.rtrBit = s.rxq.content s.settings.rtrBit ++
      (fs.take (s.rxq.size - 1 - s.rxq.occ)).map (Frame.sig s.settings.rtrBit) ∧
    (s.enqueueAll fs).rxq.drop = s.rxq.drop + BitVec.ofNat 32 (fs.length - (s.rxq.size - 1 - s.rxq.occ)) := by
  induction fs with
  | nil => intro s _ _; simp [State.enqueueAll]
  | cons f fs ih =>
    intro s hok hwf
    have hf := hwf f List.mem_cons_self
    have hn := State.cutIn_netOnly { s with rxq := (s.rxq.enqueue s.settings.rtrBit f).2 }
    have ih := ih { s with rxq := (s.rxq.enqueue s.settings.rtrBit f).2 }.cutIn
    have hk := Queue.enqueue_kept s.settings.rtrBit s.rxq f
    rw [hn.rxq, hn.settings] at ih
    have ih := ih (hk.2.2 hok) fun g hg => hwf g (List.mem_cons_of_mem _ hg)
    simp only [State.enqueueAll]
    have hol := Queue.occ_lt hok.head_lt hok.tail_lt
    rcases Queue.enqueue_cases s.settings.rtrBit s.rxq f with ⟨hw, _⟩ | ⟨_, e⟩
    · rw [hf] at hw; cases hw
    · rcases Queue.offer_cases s.rxq (f.sig s.settings.rtrBit) with ⟨hfull, e'⟩ | ⟨hfull, e'⟩
      · have ho := (Queue.isFull_iff hok.head_lt hok.tail_lt).1 hfull
        have hocc : ({ s.rxq with drop := s.rxq.drop + 1 } : Queue).occ = s.rxq.occ := rfl
        rw [e, e'] at ih ⊢
        simp only [hocc, ho, Nat.sub_self, Nat.sub_zero, List.take_zero, List.map_nil, List.append_nil, List.length_cons,
          Queue.content_drop] at ih ⊢
        refine ⟨ih.1, ?_⟩
        rw [ih.2, BitVec.add_assoc]
        congr 1
        rw [show (1 : Word32) = BitVec.ofNat 32 1 from rfl, ← BitVec.ofNat_add, Nat.add_comm]
      · have ho := Queue.occ_publish (f.sig s.settings.rtrBit) hok.head_lt hok.tail_lt hfull
        have hc := Queue.content_publish s.settings.rtrBit (f.sig s.settings.rtrBit) hok.head_lt hok.tail_lt hfull
        have hne : s.rxq.occ ≠ s.rxq.size - 1 := fun h => by
          rw [(Queue.isFull_iff hok.head_lt hok.tail_lt).2 h] at hfull; cases hfull
        rw [e, e'] at ih ⊢
        simp only [Queue.publish_size, ho, hc, Queue.publish_drop] at ih ⊢
        obtain ⟨n, hn⟩ : ∃ n, s.rxq.size - 1 - s.rxq.occ = n + 1 := ⟨s.rxq.size - 1 - s.rxq.occ - 1, by omega⟩
        have hn' : s.rxq.size - 1 - (s.rxq.occ + 1) = n := by omega
        rw [hn'] at ih
        rw [hn]
        simp only [List.length_cons, Nat.add_sub_add_right, List.take_succ_cons, List.map_cons]
        exact ⟨by rw [ih.1, List.append_assoc]; rfl, ih.2⟩

/-! ## The draws -/

/-- A draw touches its own list and the count of free values (44_scheduler.md R183 to R185). -/
theorem State.drawAccepted_same (s : State) :
    s.drawAccepted.2 = { s with accepted := s.drawAccepted.2.accepted, draws := s.drawAccepted.2.draws } := by
  unfold State.drawAccepted; split <;> rfl

theorem State.drawBusFrames_same (s : State) :
    s.drawBusFrames.2 = { s with busFrames := s.drawBusFrames.2.busFrames, draws := s.drawBusFrames.2.draws } := by
  unfold State.drawBusFrames; split <;> rfl

theorem State.drawBufAvail_same (s : State) :
    s.drawBufAvail.2 = { s with bufAvail := s.drawBufAvail.2.bufAvail, draws := s.drawBufAvail.2.draws } := by
  unfold State.drawBufAvail; split <;> rfl

/-! ## The four steps -/

/-- What every step of the scheduler keeps: the configuration, the capacities, the ports it does not own, and the order of
both queues; it only appends events, and answers nothing: the only answers among the events are those of the DECODEs that
cut in (44_scheduler.md R186 to R189; 60_exceptions.md R201, R212). -/
structure Kept (s t : State) : Prop where
  ready : t.ready = s.ready
  settings : t.settings = s.settings
  session : t.session = s.session
  request : t.request = s.request
  rxq_size : t.rxq.size = s.rxq.size
  txq_size : t.txq.size = s.txq.size
  rxq_ok : s.rxq.Ok s.settings.rtrBit → t.rxq.Ok s.settings.rtrBit
  txq_ok : s.txq.Ok s.settings.rtrBit → t.txq.Ok s.settings.rtrBit
  events : ∃ es, t.events = s.events ++ es ∧ OnlyDecodes es ∧
    ∀ r, Event.response r ∈ es → s.settings.discipline = .interruptShared

theorem Kept.refl (s : State) : Kept s s := ⟨rfl, rfl, rfl, rfl, rfl, rfl, id, id, [], by simp, .nil, by simp⟩

theorem Kept.trans {s t u : State} (h1 : Kept s t) (h2 : Kept t u) : Kept s u where
  ready := h2.ready.trans h1.ready
  settings := h2.settings.trans h1.settings
  session := h2.session.trans h1.session
  request := h2.request.trans h1.request
  rxq_size := h2.rxq_size.trans h1.rxq_size
  txq_size := h2.txq_size.trans h1.txq_size
  rxq_ok h := by have := h2.rxq_ok; rw [h1.settings] at this; exact this (h1.rxq_ok h)
  txq_ok h := by have := h2.txq_ok; rw [h1.settings] at this; exact this (h1.txq_ok h)
  events := by
    obtain ⟨e1, he1, ho1, hd1⟩ := h1.events
    obtain ⟨e2, he2, ho2, hd2⟩ := h2.events
    rw [h1.settings] at hd2
    refine ⟨e1 ++ e2, by rw [he2, he1, List.append_assoc], ho1.append ho2, fun r hr => ?_⟩
    exact (List.mem_append.1 hr).elim (hd1 r) (hd2 r)

/-- What the network-receive agent puts out, under `cooperative` nothing. -/
theorem NetOnly.events_kept {s t : State} (h : NetOnly s t)
    (hc : s.settings.discipline = .cooperative → t.events = s.events) :
    ∃ es, t.events = s.events ++ es ∧ OnlyDecodes es ∧
      ∀ r, Event.response r ∈ es → s.settings.discipline = .interruptShared := by
  cases hd : s.settings.discipline
  · exact ⟨[], by rw [hc hd, List.append_nil], .nil, by simp⟩
  · obtain ⟨es, he, ho⟩ := h.events
    exact ⟨es, he, ho, fun _ _ => rfl⟩

theorem State.cutIn_kept (s : State) : Kept s s.cutIn :=
  have h := State.cutIn_netOnly s
  ⟨h.ready, h.settings, h.session, h.request, by rw [h.rxq], h.size, by rw [h.rxq]; exact id, h.ok,
    h.events_kept fun hc => by rw [State.cutIn_cooperative hc]⟩

theorem State.emit_kept (s : State) {e : Event} (he : ∀ r, e ≠ .response r) : Kept s (s.emit e) :=
  have hn : ∀ r, Event.response r ∉ [e] := fun r hr => he r (List.mem_singleton.1 hr).symm
  ⟨rfl, rfl, rfl, rfl, rfl, rfl, id, id, [e], rfl, fun r hr => (hn r hr).elim, fun r hr => (hn r hr).elim⟩

theorem State.advance_kept (s : State) : Kept s s.advance :=
  ⟨rfl, rfl, rfl, rfl, rfl, rfl, id, id, [], by simp, .nil, by simp⟩

theorem State.count_kept (s : State) (st : Status) : Kept s (s.count st) :=
  ⟨by simp, by simp, by simp, by simp, by simp, by simp, by simp, by simp, [], by simp, .nil, by simp⟩

theorem State.drawAccepted_kept (s : State) : Kept s s.drawAccepted.2 := by
  rw [State.drawAccepted_same]; exact ⟨rfl, rfl, rfl, rfl, rfl, rfl, id, id, [], by simp, .nil, by simp⟩

theorem State.drawBusFrames_kept (s : State) : Kept s s.drawBusFrames.2 := by
  rw [State.drawBusFrames_same]; exact ⟨rfl, rfl, rfl, rfl, rfl, rfl, id, id, [], by simp, .nil, by simp⟩

theorem State.drawBufAvail_kept (s : State) : Kept s s.drawBufAvail.2 := by
  rw [State.drawBufAvail_same]; exact ⟨rfl, rfl, rfl, rfl, rfl, rfl, id, id, [], by simp, .nil, by simp⟩

/-- ENCODE's loop moves `head` and nothing else of a queue, whatever the queue (10_state.md R27). -/
theorem batch_queue (rtr : Fin 32) (limit : Nat) : ∀ (fuel pos : Nat) (q : Queue),
    (batch rtr limit fuel pos q).queue = { q with head := (batch rtr limit fuel pos q).queue.head }
  | 0, _, _ => rfl
  | fuel + 1, pos, q => by
    simp only [batch]
    split
    · rfl
    · split
      · rfl
      · have := batch_queue rtr limit fuel (pos + (q.front rtr).wireSize rtr) q.pop
        simp only [Queue.pop] at this
        exact this

/-- What ENCODE from RXQ may change: `head` of RXQ and `SEQ` (10_state.md R27, R29). -/
theorem State.encode_rxq_same (s : State) (limit : Nat) : (s.encode .rxq limit).2 =
    { s with rxq := { s.rxq with head := (s.encode .rxq limit).2.rxq.head }, seq := (s.encode .rxq limit).2.seq } := by
  rcases State.encode_cases s .rxq limit with ⟨_, e⟩ | ⟨_, e⟩ <;> rw [e]
  have h := batch_queue s.settings.rtrBit limit s.rxq.occ Config.hdrSize s.rxq
  simp only [State.setQueue, State.batchOf, State.queue_rxq]
  rw [← h]

theorem State.encode_rxq_ok {s : State} (limit : Nat) (h : s.rxq.Ok s.settings.rtrBit) :
    (s.encode .rxq limit).2.rxq.Ok s.settings.rtrBit := by
  rcases State.encode_cases s .rxq limit with ⟨_, e⟩ | ⟨_, e⟩ <;> rw [e]
  · exact h
  · exact (State.batchOf_spec (id := .rxq) h limit).ok

theorem State.encode_kept (s : State) (limit : Nat) : Kept s (s.encode .rxq limit).2 where
  ready := by rw [State.encode_rxq_same]
  settings := by rw [State.encode_rxq_same]
  session := by rw [State.encode_rxq_same]
  request := by rw [State.encode_rxq_same]
  rxq_size := by rw [State.encode_rxq_same]
  txq_size := by rw [State.encode_rxq_same]
  rxq_ok := State.encode_rxq_ok limit
  txq_ok := by rw [State.encode_rxq_same]; exact id
  events := ⟨[], by rw [State.encode_rxq_same]; simp, .nil, by simp⟩

/-- TXSTEP goes through the offer, the boundary and the dequeue (44_scheduler.md R186). -/
theorem State.txStep_cases (s : State) :
    ((s.settings.busAttached = false ∨ s.txq.isEmpty = true) ∧ s.txStep = s) ∨
    (s.settings.busAttached = true ∧ s.txq.isEmpty = false ∧ s.txStep =
      ((s.drawn.drawAccepted.2.emit (.offer ((s.txq.front s.settings.rtrBit).toFrame s.freeFrame)
        s.drawn.drawAccepted.1)).cutIn).takeIf s.drawn.drawAccepted.1) := by
  unfold State.txStep
  cases s.settings.busAttached <;> cases s.txq.isEmpty <;> simp

theorem NetOnly.txq_isEmpty {s t : State} (h : NetOnly s t) (hok : s.txq.Ok s.settings.rtrBit)
    (he : s.txq.isEmpty = false) : t.txq.isEmpty = false := by
  have ho := h.ok hok
  obtain ⟨fs, hfs⟩ := h.content hok
  rw [← Bool.not_eq_true, Queue.isEmpty_iff ho.head_lt ho.tail_lt]
  rw [← Bool.not_eq_true, Queue.isEmpty_iff hok.head_lt hok.tail_lt] at he
  have := congrArg List.length hfs
  simp only [List.length_append, Queue.content_length] at this
  omega

theorem State.drawn_kept (s : State) : Kept s s.drawn := ⟨rfl, rfl, rfl, rfl, rfl, rfl, id, id, [], by simp, .nil, by simp⟩

/-- The dequeue at the end of TXSTEP finds the frame that was offered still there (20_memory.md R63). -/
theorem Kept.takeIf {s t : State} (h : Kept s t) (a : Bool)
    (he : s.txq.Ok s.settings.rtrBit → t.txq.isEmpty = false) : Kept s (t.takeIf a) := by
  unfold State.takeIf
  split
  · refine ⟨h.ready, h.settings, h.session, h.request, h.rxq_size, h.txq_size, h.rxq_ok, fun hok => ?_, h.events⟩
    exact (h.txq_ok hok).pop (he hok)
  · exact h

theorem State.txStep_kept (s : State) : Kept s s.txStep := by
  rcases State.txStep_cases s with ⟨_, e⟩ | ⟨_, he, e⟩ <;> rw [e]
  · exact Kept.refl s
  · have h1 := (State.drawn_kept s).trans (State.drawAccepted_kept _)
    have h2 := h1.trans (State.emit_kept _ (e := .offer ((s.txq.front s.settings.rtrBit).toFrame s.freeFrame)
      s.drawn.drawAccepted.1) (by intro r h; cases h))
    have hn := State.cutIn_netOnly (s.drawn.drawAccepted.2.emit (.offer ((s.txq.front s.settings.rtrBit).toFrame s.freeFrame)
      s.drawn.drawAccepted.1))
    have htx : s.drawn.drawAccepted.2.txq = s.txq := by rw [State.drawAccepted_same]; rfl
    refine (h2.trans (State.cutIn_kept _)).takeIf _ fun hok =>
      hn.txq_isEmpty (by rw [h2.settings]; exact h2.txq_ok hok) ?_
    rw [State.emit_txq, htx, he]

theorem State.rxStep_kept (s : State) : Kept s s.rxStep := by
  unfold State.rxStep
  split
  · exact Kept.refl s
  · have h := State.enqueueAll_spec (s.drawBusFrames.2.emit (.polled s.drawBusFrames.1)) s.drawBusFrames.1
    refine ((State.drawBusFrames_kept s).trans (State.emit_kept _ (by intro r h; cases h))).trans (t :=
      s.drawBusFrames.2.emit (.polled s.drawBusFrames.1)) ?_
    have hn := h.net
    exact ⟨hn.ready, hn.settings, hn.session, hn.request, h.size, hn.size, h.ok, hn.ok,
      hn.events_kept fun hc => by rw [h.cooperative hc]⟩

theorem State.flushLoop_kept : ∀ (fuel : Nat) (s : State), Kept s (s.flushLoop fuel)
  | 0, s => Kept.refl s
  | fuel + 1, s => by
    simp only [State.flushLoop]
    split
    · exact Kept.refl s
    · have hd := State.drawBufAvail_kept s
      split
      · exact hd.trans (State.count_kept _ _)
      · have he := hd.trans (State.encode_kept _ s.drawBufAvail.2.settings.mtuLimit.toNat)
        split
        · exact he
        · exact ((he.trans (State.emit_kept _ (by intro r h; cases h))).trans (State.cutIn_kept _)).trans (State.flushLoop_kept fuel _)

theorem State.flushStep_kept (s : State) : Kept s s.flushStep := State.flushLoop_kept _ s

theorem State.tickStep_kept (s : State) : Kept s s.tickStep := by
  have h1 := ((State.txStep_kept s).trans (State.cutIn_kept _)).trans (State.advance_kept _)
  have h2 := ((h1.trans (State.rxStep_kept _)).trans (State.cutIn_kept _)).trans (State.advance_kept _)
  exact (h2.trans (State.flushStep_kept _)).trans (State.advance_kept _)

/-! ## `PHASE` and the events are not read -/

theorem State.txStep_phase (s : State) : s.txStep.phase = s.phase := by
  rcases State.txStep_cases s with ⟨_, e⟩ | ⟨_, _, e⟩ <;> rw [e]
  have h : ∀ (t : State) (a : Bool), (t.takeIf a).phase = t.phase := by intro t a; cases a <;> rfl
  rw [h, (State.cutIn_netOnly _).phase, State.emit_phase, State.drawAccepted_same]; rfl

theorem State.rxStep_phase (s : State) : s.rxStep.phase = s.phase := by
  unfold State.rxStep
  split
  · rfl
  · rw [(State.enqueueAll_spec _ _).net.phase]
    show s.drawBusFrames.2.phase = _
    rw [State.drawBusFrames_same]

theorem State.flushLoop_phase : ∀ (fuel : Nat) (s : State), (s.flushLoop fuel).phase = s.phase
  | 0, _ => rfl
  | fuel + 1, s => by
    have hd : s.drawBufAvail.2.phase = s.phase := by rw [State.drawBufAvail_same]
    have he : ∀ m, (s.drawBufAvail.2.encode .rxq m).2.phase = s.phase := by
      intro m; rw [State.encode_rxq_same]; exact hd
    simp only [State.flushLoop]
    split
    · rfl
    · split
      · rw [State.count_phase, hd]
      · split
        · exact he _
        · rw [State.flushLoop_phase fuel, (State.cutIn_netOnly _).phase, State.emit_phase, he]

/-- A tick ends with `PHASE` where it stood (10_state.md R31). -/
theorem State.tickStep_phase (s : State) : s.tickStep.phase = s.phase := by
  simp only [State.tickStep, State.advance_phase, State.flushStep, State.flushLoop_phase, (State.cutIn_netOnly _).phase,
    State.rxStep_phase, State.txStep_phase]
  cases s.phase <;> rfl

/-- The state with these events put out before all others, and this `PHASE`. -/
def State.dress (s : State) (es : List Event) (p : Phase) : State := { s with events := es ++ s.events, phase := p }

theorem State.drawAccepted_dress (s : State) (es : List Event) (p : Phase) :
    (s.dress es p).drawAccepted = (s.drawAccepted.1, s.drawAccepted.2.dress es p) := by
  unfold State.drawAccepted
  simp only [State.dress, State.drawn]
  split <;> rfl

theorem State.drawBusFrames_dress (s : State) (es : List Event) (p : Phase) :
    (s.dress es p).drawBusFrames = (s.drawBusFrames.1, s.drawBusFrames.2.dress es p) := by
  unfold State.drawBusFrames
  simp only [State.dress, State.drawn]
  split <;> rfl

theorem State.drawBufAvail_dress (s : State) (es : List Event) (p : Phase) :
    (s.dress es p).drawBufAvail = (s.drawBufAvail.1, s.drawBufAvail.2.dress es p) := by
  unfold State.drawBufAvail
  simp only [State.dress, State.drawn]
  split <;> rfl

theorem State.emit_dress (s : State) (e : Event) (es : List Event) (p : Phase) :
    (s.dress es p).emit e = (s.emit e).dress es p := by
  simp [State.dress, State.emit]

theorem State.encode_dress (s : State) (limit : Nat) (es : List Event) (p : Phase) :
    (s.dress es p).encode .rxq limit = ((s.encode .rxq limit).1, (s.encode .rxq limit).2.dress es p) := by
  have hb : (s.dress es p).batchOf .rxq limit = s.batchOf .rxq limit := rfl
  simp only [State.encode, hb]
  split <;> rfl

/-- TXSTEP reads neither the events nor `PHASE`. -/
theorem State.txStep_dress {s : State} (h : s.settings.discipline = .cooperative) (es : List Event) (p : Phase) :
    (s.dress es p).txStep = s.txStep.dress es p := by
  have hc : ∀ (t : State) (e : Event), t.settings = s.settings → (t.emit e).cutIn = t.emit e := by
    intro t e ht; exact State.cutIn_cooperative (by rw [State.emit_settings, ht, h])
  have hs : s.drawn.drawAccepted.2.settings = s.settings := by rw [State.drawAccepted_same]; rfl
  have ht : ∀ (t : State) (a : Bool), (t.dress es p).takeIf a = (t.takeIf a).dress es p := by
    intro t a; cases a <;> rfl
  unfold State.txStep
  simp only [show (s.dress es p).settings = s.settings from rfl, show (s.dress es p).txq = s.txq from rfl,
    show (s.dress es p).freeFrame = s.freeFrame from rfl, show (s.dress es p).drawn = s.drawn.dress es p from rfl,
    State.drawAccepted_dress]
  split
  · rfl
  · rw [hc _ _ hs, hc _ _ (by exact hs), State.emit_dress, ht]

theorem State.enqueueAll_cons {s : State} (h : s.settings.discipline = .cooperative) (f : Frame) (fs : List Frame) :
    s.enqueueAll (f :: fs) = State.enqueueAll { s with rxq := (s.rxq.enqueue s.settings.rtrBit f).2 } fs := by
  have hc := State.cutIn_cooperative (s := { s with rxq := (s.rxq.enqueue s.settings.rtrBit f).2 }) h
  simp only [State.enqueueAll]
  rw [hc]

theorem State.enqueueAll_dress {s : State} (h : s.settings.discipline = .cooperative) (fs : List Frame)
    (es : List Event) (p : Phase) :
    (s.dress es p).enqueueAll fs = (s.enqueueAll fs).dress es p := by
  induction fs generalizing s with
  | nil => rfl
  | cons f fs ih =>
    rw [State.enqueueAll_cons h, State.enqueueAll_cons (s := s.dress es p) h]
    exact ih (s := { s with rxq := (s.rxq.enqueue s.settings.rtrBit f).2 }) h

/-- RXSTEP reads neither the events nor `PHASE`. -/
theorem State.rxStep_dress {s : State} (h : s.settings.discipline = .cooperative) (es : List Event) (p : Phase) :
    (s.dress es p).rxStep = s.rxStep.dress es p := by
  have hs : s.drawBusFrames.2.settings = s.settings := by rw [State.drawBusFrames_same]
  unfold State.rxStep
  simp only [show (s.dress es p).settings = s.settings from rfl, State.drawBusFrames_dress]
  split
  · rfl
  · rw [State.emit_dress, State.enqueueAll_dress (by rw [State.emit_settings, hs, h])]

theorem State.flushLoop_dress (es : List Event) (p : Phase) : ∀ (fuel : Nat) (s : State),
    s.settings.discipline = .cooperative → (s.dress es p).flushLoop fuel = (s.flushLoop fuel).dress es p
  | 0, _, _ => rfl
  | fuel + 1, s, h => by
    have hd : s.drawBufAvail.2.settings = s.settings := by rw [State.drawBufAvail_same]
    have he : ∀ m, (s.drawBufAvail.2.encode .rxq m).2.settings = s.settings := by
      intro m; rw [State.encode_rxq_same]; exact hd
    have hc : ∀ (t : State) (e : Event), t.settings = s.settings → (t.emit e).cutIn = t.emit e := by
      intro t e ht; exact State.cutIn_cooperative (by rw [State.emit_settings, ht, h])
    have hn : ∀ t : State, (t.dress es p).count .allocationFailure = (t.count .allocationFailure).dress es p :=
      fun _ => rfl
    simp only [State.flushLoop, State.drawBufAvail_dress, show (s.dress es p).rxq = s.rxq from rfl,
      show ∀ t : State, (t.dress es p).settings = t.settings from fun _ => rfl, State.encode_dress]
    split
    · rfl
    · split
      · exact hn _
      · split
        · rfl
        · rw [hc _ _ (he _), hc _ _ (by exact he _), State.emit_dress,
            State.flushLoop_dress es p fuel _ (by rw [State.emit_settings, he, h])]

/-- FLUSH reads neither the events nor `PHASE`. -/
theorem State.flushStep_dress {s : State} (h : s.settings.discipline = .cooperative) (es : List Event) (p : Phase) :
    (s.dress es p).flushStep = s.flushStep.dress es p := State.flushLoop_dress es p _ s h

end Sys2Proof.Machine
end

