-- ==== Sys2Proof/Tests/Slice0.lean ====
section
/-! SUPPORT. Tests: the ill-formed terms, words written out from the encodings, single steps of the vectors of
95_test_vectors.md, and for every statement with hypotheses values that meet them. -/

namespace Sys2Proof.Tests

open Sys2Proof Sys2Proof.Machine

/-! ## Well-formedness: each check refuses an ill-formed term -/

theorem test_wf_header_op2 : WellFormed 30 (.hdrReserved 2 2 0 1) = false := by decide
theorem test_wf_header_op3 : WellFormed 30 (.hdrReserved 3 2 0 1) = true := by decide
theorem test_wf_classic_data_rtr_bit : WellFormed 30 (.recClassicData 0x40000000 1 [0]) = false := by decide
theorem test_wf_classic_data_length : WellFormed 30 (.recClassicData 0x123 2 [0]) = false := by decide
theorem test_wf_classic_data_over64 : WellFormed 30 (.recClassicData 0x123 65 (List.replicate 65 0)) = false := by decide
theorem test_wf_classic_rtr_bit : WellFormed 30 (.recClassicRtr 0x123 1) = false := by decide
theorem test_wf_classic_rtr_over64 : WellFormed 30 (.recClassicRtr 0x40000000 65) = false := by decide
theorem test_wf_fd_data_rtr_bit : WellFormed 30 (.recFdData 0x40000000 1 0 [0]) = false := by decide
theorem test_wf_fd_data_length : WellFormed 30 (.recFdData 0x123 1 0 []) = false := by decide
theorem test_wf_fd_data_over64 : WellFormed 30 (.recFdData 0x123 65 0 (List.replicate 65 0)) = false := by decide
theorem test_wf_fd_rtr_bit : WellFormed 30 (.recFdRtr 0x123 1 0) = false := by decide
theorem test_wf_fd_rtr_over64 : WellFormed 30 (.recFdRtr 0x40000000 65 0) = false := by decide
theorem test_wf_decode_length : WellFormed 30 (.decode .txq (List.replicate 65536 0)) = false := by
  simp only [WellFormed, List.length_replicate]
  decide

/-! ## Words written out from 30_encoding.md R70, R73, R85, R86 -/

/-- A Frame with these data bytes and zeros after them. -/
def frame (id : Word32) (length flags : Byte) (data : List Byte) : Frame :=
  ⟨id, length, flags, Vector.ofFn fun k => data.getD k.val 0⟩

/-- What a command decodes to. -/
def commandOf (bs : List Byte) : Option Instr :=
  match decodeCommand bs with
  | .ok (i, []) => some i
  | _ => none

/-- What a record decodes to, with the default `RTR_BIT`. -/
def recordRow (bs : List Byte) : Option Instr :=
  match readRecord 30 bs with
  | .ok (f, []) => some (recordInstr 30 f)
  | _ => none

/-- Which header row five bytes decode to. -/
def headerRow (bs : List Byte) : Option Instr := (readHeader bs).map fun r => headerInstr r.1

theorem test_word_hdr_data : headerRow [0x02, 0x00, 0x07, 0x01, 0x03] = some (.hdrData 2 7 0x0103) := by decide
theorem test_word_hdr_ack : headerRow [0x02, 0x01, 0x07, 0x00, 0x03] = some (.hdrAck 2 7 3) := by decide
theorem test_word_hdr_nack : headerRow [0x02, 0x02, 0x07, 0x00, 0x03] = some (.hdrNack 2 7 3) := by decide
theorem test_word_hdr_reserved : headerRow [0x02, 0x03, 0x07, 0x00, 0x03] = some (.hdrReserved 3 2 7 3) := by decide
theorem test_word_rec_classic_data :
    recordRow [0x00, 0x00, 0x01, 0x23, 0b00000010, 0xDE, 0xAD] = some (.recClassicData 0x123 2 [0xDE, 0xAD]) := by decide
theorem test_word_rec_classic_rtr :
    recordRow [0b01000000, 0x00, 0x04, 0x56, 0b00001000] = some (.recClassicRtr 0x40000456 8) := by decide
theorem test_word_rec_fd_data :
    recordRow [0x9A, 0xBC, 0xDE, 0xF0, 0b10000001, 0x01, 0x55] = some (.recFdData 0x9ABCDEF0 1 1 [0x55]) := by decide
theorem test_word_rec_fd_rtr :
    recordRow [0b01000000, 0x00, 0x01, 0x00, 0b10000100, 0x03] = some (.recFdRtr 0x40000100 4 3) := by decide
theorem test_word_enq : commandOf ([0b00010000, 0x00, 0x00, 0x01, 0x23, 0x02, 0x09, 0xDE, 0xAD] ++ List.replicate 62 0) =
    some (.enq .rxq (frame 0x123 2 9 [0xDE, 0xAD])) := by decide
theorem test_word_deq : commandOf [0b00101000] = some (.deq .txq) := by decide
theorem test_word_peek : commandOf [0b00111000] = some (.peek .txq) := by decide
theorem test_word_stat : commandOf [0b01000000] = some (.stat .rxq) := by decide
theorem test_word_encode : commandOf [0b01010000, 0x05, 0xDC] = some (.encode .rxq 1500) := by decide
theorem test_word_decode : commandOf [0b01101000, 0x00, 0x03, 0x02, 0x00, 0x07] = some (.decode .txq [2, 0, 7]) := by decide
theorem test_word_txstep : commandOf [0b01110000] = some .txstep := by decide
theorem test_word_rxstep : commandOf [0b10000000] = some .rxstep := by decide
theorem test_word_flush : commandOf [0b10010000] = some .flush := by decide
theorem test_word_tick : commandOf [0b10100000] = some .tick := by decide
theorem test_word_rdcnt : commandOf [0b10110110] = some (.rdcnt 6) := by decide
theorem test_word_init : commandOf [0b11110000, 0, 0, 0, 4, 0, 0, 1, 0, 0x05, 0xDC, 2, 30, 0b00000010, 0, 0] =
    some (.init ⟨4, 256, 1500, 2, 30, .cooperative, true⟩) := by decide
theorem test_word_reserved_op0 : commandOf [0b00001011] = some (.reservedOp0 0b1011) := by decide
theorem test_word_reserved_opC : commandOf [0b11000001] = some (.reservedOpC 1) := by decide
theorem test_word_reserved_opD : commandOf [0b11011000] = some (.reservedOpD 8) := by decide
theorem test_word_reserved_opE : commandOf [0b11100111] = some (.reservedOpE 7) := by decide
theorem test_word_reserved_rdcnt7 : commandOf [0b10110111] = some .reservedRdcnt7 := by decide
theorem test_word_reserved_fields : ([0x11, 0x2C, 0x78, 0xA8, 0xB8, 0xF8].all fun w => match decodeCommand [w] with
    | .error .reserved => true
    | _ => false) = true := by decide
theorem test_table_word : decodeTableWord 8 0x58 = some (.encode .txq 0) ∧ decodeTableWord 32 0x02000000 = some (.hdrNack 0 0 0) ∧
    decodeTableWord 40 0x4000000080 = some (.recFdRtr 0x40000000 0 0) := by decide

/-! ## Single steps of the vectors -/

/-- Frame A of 95_test_vectors.md. -/
def frameA : Frame := frame 0x123 2 0 [0xDE, 0xAD]
/-- Frame C of 95_test_vectors.md: a classic RTR frame with declared length 8. -/
def frameC : Frame := frame 0x40000456 8 0 []
/-- Frame D of 95_test_vectors.md: an FD RTR frame with declared length 4. -/
def frameD : Frame := frame 0x40000100 0x84 0 []
/-- Frame E of 95_test_vectors.md: an empty classic frame. -/
def frameE : Frame := frame 0x7FF 0 0 []
/-- A Frame that is not well-formed: 65 bytes declared. -/
def frameBad : Frame := frame 0x123 65 0 []

/-- A queue of 4 slots that holds A and then C, its indices about to wrap. -/
def queueAC : Queue := ⟨4, 3, 1, 0, [(0, frameC.sig 30), (3, frameA.sig 30)]⟩
/-- A full queue of 4 slots that holds A, C, E. -/
def queueFull : Queue := ⟨4, 0, 3, 0, [(0, frameA.sig 30), (1, frameC.sig 30), (2, frameE.sig 30)]⟩

/-- A block whose two queues both hold A and C. -/
def busy : State := { State.reset with rxq := queueAC, txq := queueAC }
/-- A block with both queues full. -/
def crowded : State := { State.reset with rxq := queueFull, txq := queueFull }

/-- One component of the next state of an instruction. -/
def after {α : Type} (i : Instr) (s : State) (g : State → α) : Option α :=
  match exec i s with
  | .next t => some (g t)
  | _ => none

/-- What the last event shows of a queue, with the default `RTR_BIT`. -/
def lastShown (s : State) : Option (Status × Option SigFrame) := s.events.getLast?.bind (answerShown 30)

-- 40_frame.md, the table of 95_test_vectors.md: frame C
theorem test_accessors : frameC.effLen = 8 ∧ frameC.isFd = false ∧ frameC.isRtr 30 = true ∧ frameC.wireSize 30 = 5 ∧
    frameC.record 30 = [0x40, 0x00, 0x04, 0x56, 0x08] := by decide
theorem test_efflen : after (.efflen (frame 0 0xFF 0 [])) busy (·.events) = some [.response (.effLen 127)] := by decide
theorem test_isfd : after (.isfd (frame 0 0x8C 0 [])) busy (·.events) = some [.response (.bit true)] := by decide
theorem test_isrtr : after (.isrtr (frame 0x80000456 0 0 [])) busy (·.events) = some [.response (.bit false)] := by decide
theorem test_wiresize : after (.wiresize frameA) busy (·.events) = some [.response (.size 7)] := by decide
theorem test_record : after (.record frameD) busy (·.events) = some [.response (.bytes [0x40, 0, 1, 0, 0x84, 0])] := by decide
-- L1-1 steps 4 to 6: the fourth frame is refused and counted, the tail wraps
theorem test_enq_full : after (.enq .rxq frameD) crowded (fun t => (t.rxq.head, t.rxq.tail, t.rxq.drop)) = some (0, 3, 1) := by
  decide
theorem test_enq_wraps : after (.enq .txq frameD) { State.reset with txq := ⟨4, 1, 3, 1, queueFull.slots⟩ }
    (fun t => (t.txq.head, t.txq.tail, (t.txq.content 30).map (·.id))) = some (1, 0, [0x40000456, 0x7FF, 0x40000100]) := by
  decide
-- L1-1 steps 9, 11: head wraps, and an empty queue answers Empty
theorem test_deq : after (.deq .rxq) busy (fun t => (t.rxq.head, lastShown t)) = some (0, some (.ok, some (frameA.sig 30))) := by
  decide
theorem test_deq_empty : after (.deq .rxq) State.reset (fun t => (t.rxq, lastShown t)) =
    some (Queue.fresh 4, some (.empty, none)) := by decide
theorem test_peek : after (.peek .txq) busy (fun t => (t.txq, lastShown t)) =
    some (queueAC, some (.ok, some (frameA.sig 30))) := by decide
theorem test_stat : after (.stat .rxq) crowded (·.events) = some [.response (.flags false true 3)] := by decide
-- 42_encode.md: A then C, with the old SEQ in the header
theorem test_encode : after (.encode .rxq 1500) { busy with seq := 255 } (fun t => (t.events, t.seq, t.rxq.head)) =
    some ([.response (.encoded 17 2 [2, 0, 255, 0, 2, 0, 0, 1, 0x23, 2, 0xDE, 0xAD, 0x40, 0, 4, 0x56, 8])], 0, 1) := by decide
theorem test_encode_limit : after (.encode .rxq 16) busy (fun t => (t.events, t.rxq.head)) =
    some ([.response (.encoded 12 1 [2, 0, 0, 0, 1, 0, 0, 1, 0x23, 2, 0xDE, 0xAD])], 0) := by decide
-- DEC-8, and L1-7 with C cut short
theorem test_decode : after (.decode .txq [2, 0, 7, 0, 1, 0, 0, 1, 0x23, 2, 0xDE, 0xAD]) State.reset
    (fun t => (t.events, t.txq.content 30)) = some ([.release, .response (.decoded .ok 1)], [frameA.sig 30]) := by decide
theorem test_decode_truncated : after (.decode .txq [2, 0, 0, 0, 2, 0, 0, 1, 0x23, 2, 0xDE, 0xAD, 0x40, 0, 4]) State.reset
    (fun t => (t.events, t.cntTruncated)) = some ([.release, .response (.decoded .truncated 1)], 1) := by decide
theorem test_txstep : after .txstep { busy with accepted := [true] } (fun t => (t.txq.head, t.accepted)) = some (0, []) := by
  decide
-- 44_scheduler.md R187, its example: the fourth frame is dropped
theorem test_rxstep : after .rxstep { State.reset with busFrames := [[frameA, frameC, frameD, frameE]] }
    (fun t => (t.rxq.occ, t.rxq.drop, t.events)) =
      some (3, 1, [.polled [frameA, frameC, frameD, frameE], .response .done]) := by decide
theorem test_flush : after .flush { busy with bufAvail := [true, true], settings := { Settings.default with mtuLimit := 12 } }
    (fun t => (t.events, t.seq)) = some ([.send [2, 0, 0, 0, 1, 0, 0, 1, 0x23, 2, 0xDE, 0xAD],
      .send [2, 0, 1, 0, 1, 0x40, 0, 4, 0x56, 8], .response .done], 2) := by decide
-- a frame that the bus delivers in step 2 is sent in step 3 of the same tick (44_scheduler.md R189)
theorem test_tick : after .tick { State.reset with busFrames := [[frameE]], bufAvail := [true] } (fun t => (t.events, t.phase)) =
    some ([.polled [frameE], .send [2, 0, 0, 0, 1, 0, 0, 7, 0xFF, 0], .response .done], .tx) := by decide
-- P5: a DECODE cuts in between the offer and the dequeue, and the frame offered is the one that leaves
theorem test_cut_in : after .txstep { busy with
    settings := { Settings.default with discipline := .interruptShared }
    accepted := [true]
    turns := [.net, .tick]
    inbound := [[2, 0, 0, 0, 1, 0, 0, 7, 0xFF, 0]] } (fun t => (t.txq.content 30).map (·.id)) = some [0x40000456, 0x7FF] := by
  decide
theorem test_rdcnt : after (.rdcnt 3) { busy with cntVersion := 5 } (·.events) = some [.response (.counter 5)] := by decide
theorem test_init : after (.init ⟨2, 3, 75, 2, 30, .cooperative, false⟩) crowded
    (fun t => (t.rxq, t.txq, t.settings.mtuLimit)) = some (Queue.fresh 2, Queue.fresh 3, 75) := by decide
theorem test_reserved : after (.reservedOpC 1) busy (·.events) = some [.response (.status .illegalCommand)] := by decide
-- a header and a record as the items of an open DECODE
theorem test_hdr_data : after (.hdrData 2 7 1) { busy with session := some ⟨12, [], .header, 0⟩ } (·.session) =
    some (some ⟨12, [], .records 1 0, 0⟩) := by decide
theorem test_hdr_ack : after (.hdrAck 2 7 1) { busy with session := some ⟨12, [], .header, 0⟩ }
    (fun t => (t.session, t.cntOpcode, t.events)) = some (none, 1, [.release, .response (.decoded .unsupportedOpCode 0)]) := by
  decide
theorem test_hdr_nack : after (.hdrNack 3 7 1) { busy with session := some ⟨12, [], .header, 0⟩ }
    (fun t => (t.cntVersion, t.cntOpcode)) = some (1, 0) := by decide
theorem test_rec_classic_data : after (.recClassicData 0x123 2 [0xDE, 0xAD])
    { State.reset with session := some ⟨12, [], .records 1 0, 0⟩ } (fun t => (t.txq.content 30, t.events)) =
    some ([frameA.sig 30], [.release, .response (.decoded .ok 1)]) := by decide
theorem test_rec_classic_rtr : after (.recClassicRtr 0x40000456 8)
    { State.reset with session := some ⟨99, [], .records 2 0, 0⟩ } (fun t => (t.txq.content 30, t.session)) =
    some ([frameC.sig 30], some ⟨99, [], .records 2 1, 1⟩) := by decide
theorem test_rec_fd_rtr : after (.recFdRtr 0x40000100 4 0) { crowded with session := some ⟨99, [], .records 2 0, 0⟩ }
    (fun t => (t.txq.drop, t.events)) = some (1, [.release, .response (.decoded .full 0)]) := by decide
theorem test_fetch_word : (match step (State.reset.withFetchWord 8 0xB2) with
    | .next t => t.events
    | _ => []) = [.response (.counter 0)] := by decide

/-! ## Values that meet the hypotheses of the statements -/

theorem queueAC_ok : queueAC.Ok 30 :=
  ⟨by decide, by decide, by decide, by decide, by decide, by decide, by decide⟩

theorem queueFull_ok : queueFull.Ok 30 :=
  ⟨by decide, by decide, by decide, by decide, by decide, by decide, by decide⟩

theorem queueEmpty_ok : (Queue.fresh 4).Ok 30 := Queue.fresh_ok 30 (by decide)

theorem test_witness_CommandDecodesFromItsBytes :
    WellFormed 30 (.decode .txq (List.replicate 65535 0)) = true ∧
    instrFormat (.decode .txq (List.replicate 65535 0)) = .command := by
  constructor
  · simp only [WellFormed, List.length_replicate]; decide
  · rfl
theorem test_witness_CommandBytesHaveOneMeaning : decodeCommand [0xA0, 0x20] = .ok (.tick, [0x20]) := by rfl
theorem test_witness_HeaderDecodesFromItsBytes :
    WellFormed 30 (.hdrReserved 3 2 0 65535) = true ∧ instrFormat (.hdrReserved 3 2 0 65535) = .header := by decide
theorem test_witness_RecordDecodesFromItsBytes :
    WellFormed 30 (.recFdData 0x123 64 0 (List.replicate 64 0)) = true ∧
    instrFormat (.recFdData 0x123 64 0 (List.replicate 64 0)) = .record := by decide
theorem test_witness_RecordBytesHaveOneMeaning :
    readRecord 30 [0x40, 0, 4, 0x56, 8, 9] = .ok (frameC.sig 30, [9]) := by rfl
theorem test_witness_RecordChecksAreMadeInOrder :
    let r := fun bs : List Byte => match readRecord 30 bs with
      | .ok r => (Status.ok, r.2.length)
      | .error st => (st, 0)
    r [0, 0, 0, 0] = (.truncated, 0) ∧ r [0, 0, 0, 0, 65] = (.malformed, 0) ∧ r [0, 0, 0, 0, 0x80] = (.truncated, 0) ∧
    r [0, 0, 0, 0, 0x81, 0] = (.truncated, 0) ∧ r [0, 0, 0, 0, 0x81, 0, 7] = (.ok, 0) ∧
    r [0x40, 0, 0, 0, 0xC0, 0] = (.ok, 0) := by decide
theorem test_witness_RecordIsInjectiveUpToSigEq : frameA.wf = true ∧ frameC.wf = true ∧ frameA.sigEq 30 frameC = false := by
  decide
theorem test_witness_AccessorsAnswerTheirValue : busy.ready = true ∧ (64#8).toNat % 128 ≤ 64 := by decide
theorem test_witness_RecordOfIllFormedFrameIsFree : busy.ready = true ∧ frameBad.wf = false := by decide
theorem test_witness_WireSizeIsTheRecordLength : frameA.wf = true ∧ (frame 0 0xFF 0 []).wireSize 30 = 133 := by decide
theorem test_witness_FlagsTellTheOccupancy : queueFull.Ok 30 ∧ (Queue.fresh 4).Ok 30 := ⟨queueFull_ok, queueEmpty_ok⟩
theorem test_witness_EnqAppendsAtTail :
    busy.ready = true ∧ (busy.queue .rxq).Ok busy.settings.rtrBit ∧ frameD.wf = true ∧ (busy.queue .rxq).isFull = false :=
  ⟨rfl, queueAC_ok, by decide, by decide⟩
theorem test_witness_EnqRefusesFullAndBadFrame :
    crowded.ready = true ∧ frameA.wf = true ∧ (crowded.queue .txq).isFull = true ∧ frameBad.wf = false := by decide
theorem test_witness_DeqTakesTheOldest : busy.ready = true ∧ (busy.queue .rxq).Ok busy.settings.rtrBit ∧
    (busy.queue .rxq).content busy.settings.rtrBit = [frameA.sig 30, frameC.sig 30] := ⟨rfl, queueAC_ok, by decide⟩
theorem test_witness_PeekShowsTheOldest : crowded.ready = true ∧ (crowded.queue .txq).Ok crowded.settings.rtrBit ∧
    (crowded.queue .txq).content crowded.settings.rtrBit = [frameA.sig 30, frameC.sig 30, frameE.sig 30] :=
  ⟨rfl, queueFull_ok, by decide⟩
theorem test_witness_EmptyQueueAnswersEmpty : State.reset.ready = true ∧ (State.reset.queue .txq).isEmpty = true := by decide
theorem test_witness_StatReadsTheFlags : busy.ready = true ∧ (busy.queue .txq).Ok busy.settings.rtrBit := ⟨rfl, queueAC_ok⟩
theorem test_witness_QueueIsBoundedFifo : busy.ready = true ∧ (busy.queue .rxq).Ok busy.settings.rtrBit ∧
    ∀ m ∈ [QueueMove.enq frameD, .enq frameE, .deq, .peek], ∀ f, m = QueueMove.enq f → f.wf = true := by
  refine ⟨rfl, queueAC_ok, ?_⟩
  simp only [List.mem_cons, List.not_mem_nil, or_false]
  rintro m (rfl | rfl | rfl | rfl) f h <;> cases h <;> decide
theorem test_witness_PeekThenDeqIsStable :
    let s : State := { busy with bufAvail := [false] }
    s.ready = true ∧ (s.queue .txq).Ok s.settings.rtrBit ∧ (s.queue .txq).isEmpty = false ∧
    (∀ i ∈ [Instr.enq .txq frameE, .flush], dequeues .txq i = false) ∧
    (match exec (.peek .txq) s with
      | .next p => (execAll [.enq .txq frameE, .flush] p).isSome
      | _ => false) = true := ⟨rfl, queueAC_ok, by decide, by decide, by decide⟩
theorem test_witness_EncodeTakesTheLongestRunThatFits :
    busy.ready = true ∧ (busy.queue .rxq).Ok busy.settings.rtrBit ∧ after (.encode .rxq 11) busy (·.events) =
      some [.response (.encoded 0 0 [])] := ⟨rfl, queueAC_ok, by decide⟩
theorem test_witness_EncodeResultsAreBounded : (busy.queue .rxq).Ok busy.settings.rtrBit ∧
    after (.encode .rxq 12) busy (·.events) =
      some (busy.events ++ [.response (.encoded 12 1 [2, 0, 0, 0, 1, 0, 0, 1, 0x23, 2, 0xDE, 0xAD])]) := ⟨queueAC_ok, by decide⟩
theorem test_witness_NoEmptyDatagram : busy.ready = true ∧ (busy.queue .rxq).Ok busy.settings.rtrBit ∧
    (State.reset.queue .rxq).content State.reset.settings.rtrBit = [] ∧ (9#16).toNat < 10 ∧
    (busy.queue .rxq).content busy.settings.rtrBit = frameA.sig 30 :: [frameC.sig 30] ∧
    (11#16).toNat < 5 + (frameA.sig 30).record.length := ⟨rfl, queueAC_ok, by decide, by decide, by decide, by decide⟩
theorem test_witness_EncodeThenDecodeRoundTrip :
    let s : State := { State.reset with rxq := queueAC }
    s.ready = true ∧ s.rxq.Ok s.settings.rtrBit ∧ s.txq.Ok s.settings.rtrBit ∧ after (.encode .rxq 17) s (·.events) =
      some (s.events ++ [.response (.encoded 17 2 [2, 0, 0, 0, 2, 0, 0, 1, 0x23, 2, 0xDE, 0xAD, 0x40, 0, 4, 0x56, 8])]) ∧
    s.txq.occ + 2 < s.txq.size := ⟨rfl, queueAC_ok, queueEmpty_ok, by decide, by decide⟩
theorem test_witness_DecodeChecksTheHeaderInOrder :
    let st := fun bs => after (.decode .txq bs) busy (·.events)
    st [3, 1, 0, 0] = some [.release, .response (.decoded .malformed 0)] ∧
    st [3, 1, 0, 0, 0] = some [.release, .response (.decoded .versionMismatch 0)] ∧
    st [2, 1, 0, 0, 0] = some [.release, .response (.decoded .unsupportedOpCode 0)] ∧
    st [2, 0, 0, 0, 0] = some [.release, .response (.decoded .malformed 0)] := by decide
theorem test_witness_DecodeKeepsTheRecordsBeforeTheEnd :
    busy.ready = true ∧ (busy.queue .txq).Ok busy.settings.rtrBit ∧ be16 0 1 ≠ 0 ∧ ([] : List Byte).length ≤ 65530 :=
  ⟨rfl, queueAC_ok, by decide, by decide⟩
theorem test_witness_TruncatedDatagramKeepsWholeRecords :
    State.reset.ready = true ∧ (State.reset.queue .txq).Ok State.reset.settings.rtrBit ∧
    (∀ f ∈ [frameA.sig 30], f.ok State.reset.settings.rtrBit = true) ∧ (frameC.sig 30).ok State.reset.settings.rtrBit = true ∧
    4 < (frameC.sig 30).record.length ∧ [frameA.sig 30].length < 2 ∧ 2 ≤ 65535 ∧
    (State.reset.queue .txq).occ + [frameA.sig 30].length < (State.reset.queue .txq).size ∧
    5 + (recordsOf [frameA.sig 30]).length + 4 ≤ 65535 :=
  ⟨rfl, queueEmpty_ok, by decide, by decide, by decide, by decide, by decide, by decide, by decide⟩
theorem test_witness_OneCounterPerFailedDecode : busy.ready = true ∧ ([2, 0, 0] : List Byte).length ≤ 65535 := by decide
theorem test_witness_EveryDecodeReleasesOnce :
    (match step { State.reset with request := [0x68, 0, 1, 2] } with
      | .next t => (releaseCount t.events, decodedCount t.events)
      | _ => (0, 0)) = (1, 1) := by decide
theorem test_witness_HeaderRowsCheckTheOpenDecode :
    let s : State := { busy with session := some ⟨12, [], .header, 0⟩ }
    s.ready = true ∧ s.session = some ⟨12, [], .header, 0⟩ ∧ (3 : Byte) ≠ s.settings.version ∧
    (2 : Byte) = s.settings.version ∧ (1 : Byte) ≠ 0 ∧ (0 : Word16) = 0 ∧ (1 : Word16) ≠ 0 := by decide
theorem test_witness_RecordRowsFeedTheOpenDecode :
    let i : Instr := .recFdRtr 0x40000100 4 0
    let s : State := { busy with session := some ⟨99, [], .records 2 1, 1⟩ }
    let u : State := { crowded with session := some ⟨99, [], .records 2 0, 0⟩ }
    instrFormat i = .record ∧ WellFormed 30 i = true ∧ recordOf i = some (frameD.sig 30) ∧
    s.ready = true ∧ s.txq.Ok s.settings.rtrBit ∧ s.session = some ⟨99, [], .records 2 1, 1⟩ ∧ s.txq.isFull = false ∧
    u.ready = true ∧ u.txq.Ok u.settings.rtrBit ∧ u.session = some ⟨99, [], .records 2 0, 0⟩ ∧ u.txq.isFull = true :=
  ⟨rfl, by decide, by decide, rfl, queueAC_ok, rfl, by decide, rfl, queueFull_ok, rfl, by decide⟩
theorem test_witness_WireRowsOutsideADatagramAreRefused :
    busy.session = none ∧ instrFormat (.hdrData 2 0 1) = .header ∧ instrFormat (.recClassicRtr 0 0) = .record := by decide
theorem test_witness_InboundDatagramRunsAsDecode :
    let s : State := { busy with turns := [.net], inbound := [[2, 0, 0, 0, 1]] }
    s.ready = true ∧ s.session = none ∧ s.turns = .net :: [] ∧ s.inbound = [2, 0, 0, 0, 1] :: [] := by decide
theorem test_witness_TxStepDequeuesOnlyWhatIsAccepted :
    let s : State := { busy with accepted := [false] }
    s.ready = true ∧ s.settings.busAttached = true ∧ s.settings.discipline = .cooperative ∧ s.txq.Ok s.settings.rtrBit ∧
    s.txq.content s.settings.rtrBit = frameA.sig 30 :: [frameC.sig 30] ∧ s.accepted = false :: [] :=
  ⟨rfl, rfl, rfl, queueAC_ok, by decide, rfl⟩
theorem test_witness_TxStepTakesTheFrameItOffered :
    let s : State := { busy with settings := { Settings.default with discipline := .interruptShared } }
    s.ready = true ∧ s.settings.busAttached = true ∧ s.txq.Ok s.settings.rtrBit ∧
    s.txq.content s.settings.rtrBit = frameA.sig 30 :: [frameC.sig 30] := ⟨rfl, rfl, queueAC_ok, by decide⟩
theorem test_witness_IdleBusStepsChangeNothing : State.reset.ready = true ∧ State.reset.txq.isEmpty = true ∧
    ({ busy with settings := { Settings.default with busAttached := false } } : State).settings.busAttached = false := by decide
theorem test_witness_RxStepFillsThenDrops :
    let s : State := { busy with busFrames := [[frameD, frameE]] }
    s.ready = true ∧ s.settings.busAttached = true ∧ s.rxq.Ok s.settings.rtrBit ∧ s.busFrames = [frameD, frameE] :: [] ∧
    ∀ f ∈ [frameD, frameE], f.wf = true := ⟨rfl, rfl, queueAC_ok, rfl, by decide⟩
theorem test_witness_RxStepSkipsBadFrames :
    let s : State := { busy with busFrames := [[frameBad, frameE]] }
    s.ready = true ∧ s.settings.busAttached = true ∧ s.settings.discipline = .cooperative ∧
    s.busFrames = [frameBad, frameE] :: [] ∧ frameBad.wf = false := by decide
theorem test_witness_SchedulerCommandsAlwaysComplete : busy.ready = true ∧ Instr.tick ∈ [Instr.txstep, .rxstep, .flush, .tick] := by
  decide
theorem test_witness_TickStepsSurfaceNoStatus : busy.ready = true ∧ Instr.rxstep ∈ [Instr.txstep, .rxstep, .flush, .tick] := by
  decide
theorem test_witness_FlushSendsEverything :
    let s : State := { busy with bufAvail := [true, true], settings := { Settings.default with mtuLimit := 75 } }
    s.ready = true ∧ s.settings.discipline = .cooperative ∧ s.rxq.Ok s.settings.rtrBit ∧ 75 ≤ s.settings.mtuLimit.toNat ∧
    s.bufAvail = List.replicate 2 true ++ [] ∧ s.rxq.occ ≤ 2 := ⟨rfl, rfl, queueAC_ok, by decide, by decide, by decide⟩
theorem test_witness_FlushSkipsWithoutBuffer :
    State.reset.ready = true ∧ State.reset.rxq.isEmpty = true ∧
    (let s : State := { busy with bufAvail := [false] }
     s.ready = true ∧ s.rxq.isEmpty = false ∧ s.bufAvail = false :: []) := by decide
theorem test_witness_OversizeHeadBlocksFlush :
    let s : State := { busy with bufAvail := [true], settings := { Settings.default with mtuLimit := 11 } }
    s.ready = true ∧ s.rxq.Ok s.settings.rtrBit ∧ s.rxq.content s.settings.rtrBit = frameA.sig 30 :: [frameC.sig 30] ∧
    s.settings.mtuLimit.toNat < 5 + (frameA.sig 30).record.length ∧ s.bufAvail = true :: [] :=
  ⟨rfl, queueAC_ok, by decide, by decide, rfl⟩
theorem test_witness_TickIsItsThreeSteps : busy.ready = true ∧ busy.settings.discipline = .cooperative := by decide
theorem test_witness_RdcntReadsTheCounter : busy.ready = true := rfl
theorem test_witness_CutInIsOnlyTheOtherAgent : busy.txq.Ok busy.settings.rtrBit ∧ busy.settings.discipline = .cooperative :=
  ⟨queueAC_ok, rfl⟩
theorem test_witness_InitEstablishesReset :
    let c : InitOperand := ⟨2, 2, 0, 2, 31, .interruptShared, true⟩
    crowded.session = none ∧ 2 ≤ c.nRx.toNat ∧ 2 ≤ c.nTx.toNat := by decide
theorem test_witness_InitKeepsThePorts :
    let c : InitOperand := ⟨2, 3, 75, 2, 30, .cooperative, false⟩
    crowded.session = none ∧ 2 ≤ c.nRx.toNat ∧ 2 ≤ c.nTx.toNat := by decide
theorem test_witness_InitRefusesWhatTheSpecDoes :
    let c : InitOperand := ⟨1, 2, 0, 2, 31, .cooperative, true⟩
    ({ busy with session := some ⟨5, [], .header, 0⟩ } : State).session = some ⟨5, [], .header, 0⟩ ∧ busy.session = none ∧
    c.nRx.toNat < 2 := by decide
theorem test_witness_CommandsBeforeInitAreRefused :
    ({ busy with ready := false } : State).ready = false ∧ needsInit (.deq .rxq) = true := by decide
theorem test_witness_ReservedWordsAnswerIllegalCommand :
    let s : State := { busy with request := [0xB7, 0xA0] }
    s.session = none ∧ s.turns = [] ∧ s.request = 0xB7 :: [0xA0] ∧ isReservedWord 0xB7 = true := by decide
theorem test_witness_StepRunsTheDecodedCommand :
    let s : State := { busy with request := [0xA0], turns := [.tick, .net] }
    s.session = none ∧ s.turns.head? ≠ some .net ∧ decodeCommand s.request = .ok (.tick, []) := ⟨rfl, by decide, rfl⟩
theorem test_witness_StepRunsTheWireItemAtTheCursor :
    let s := fun (st : Stage) (bs : List Byte) => ({ busy with session := some ⟨99, bs, st, 0⟩ } : State)
    (s .header [2, 0]).ready = true ∧ (s .header [2, 0]).session = some ⟨99, [2, 0], .header, 0⟩ ∧
    ([2, 0] : List Byte).length < 5 ∧ readHeader [2, 0, 7, 0, 1] = some (⟨2, 0, 7, 1⟩, []) ∧
    (s (.records 1 0) [0]).session = some ⟨99, [0], .records 1 0, 0⟩ ∧
    readRecord busy.settings.rtrBit [0x40, 0, 4, 0x56, 8] = .ok (frameC.sig 30, []) ∧
    readRecord busy.settings.rtrBit [0] = .error .truncated ∧
    readRecord busy.settings.rtrBit [0, 0, 0, 0, 65] = .error .malformed :=
  ⟨rfl, rfl, by decide, by decide, rfl, by rfl, by rfl, by rfl⟩
theorem test_witness_StepOpensInboundOrWaits :
    let s : State := { busy with turns := [.net], inbound := [[2, 0, 0, 0, 1]] }
    s.session = none ∧ s.ready = true ∧ s.turns = .net :: [] ∧ s.inbound = [2, 0, 0, 0, 1] :: [] ∧
    busy.turns = [] ∧ busy.request = [] ∧ busy.inbound = [] := by decide
-- an ill-formed frame of the bus is a fault of the environment (60_exceptions.md R211), which the block does not surface
theorem test_rxstep_bad_frame :
    let s : State := { State.reset with request := [0x80], busFrames := [[frameBad, frameE]] }
    strictStep s = .fault .badFrame ∧
      after .rxstep s (·.events) = some [.polled [frameBad, frameE], .response .done] := ⟨rfl, by decide⟩
theorem test_witness_StrictStepClassesTheStatuses :
    let cls := fun w : Byte => match strictStep { busy with request := w :: frameBytes frameBad } with
      | .next _ => StatusClass.normal
      | .fault _ => .fault
      | .refused _ => .refusal
    cls 0x20 = .normal ∧ cls 0x10 = .fault ∧ cls 0xC0 = .refusal := by decide
theorem busy_inv : busy.Inv := fun _ => ⟨queueAC_ok, queueAC_ok, rfl, by intro d h; cases h⟩
theorem test_witness_StepKeepsTheBlockSound : busy.Inv ∧ ∃ t, step busy = .next t := ⟨busy_inv, _, rfl⟩
theorem test_witness_StepKeepsSlotArraysCanonical :
    busy.rxq.slots.wf ∧ busy.txq.slots.wf ∧ ∃ t, step busy = .next t := ⟨by decide, by decide, _, rfl⟩
theorem test_witness_OnlyTheListedInstructionsWriteARegister :
    (∃ t, exec (.deq .rxq) busy = .next t) ∧ ∀ c, Instr.deq .rxq ≠ .init c := ⟨⟨_, rfl⟩, by intro c h; cases h⟩

end Sys2Proof.Tests
end

section
/-! The flags of a queue (O12), the reset state (O56), INIT (O46), and the wire rows outside a datagram (O32). -/

namespace Sys2Proof.Machine

/-! ## Flags and occupancy -/

/-- An index in range fits the width of the index registers (10_state.md R24). -/
theorem lt_two_pow_idxWidth {i n : Nat} (h : i < n) : i < 2 ^ idxWidth n :=
  h.trans_le (Nat.le_pow_clog Nat.one_lt_two n)

theorem Queue.content_eq_nil_iff (rtr : Fin 32) (q : Queue) : q.content rtr = [] ↔ q.occ = 0 := by
  rw [← List.length_eq_zero_iff, Queue.content_length]

/-- Settles O12: both flags, read as statements about the occupancy, are `Queue.isFull_iff` and `Queue.isEmpty_iff`. -/
theorem flagsTellTheOccupancy : Obligations.FlagsTellTheOccupancy := by
  intro rtr q hq
  have hfull := Queue.isFull_iff hq.head_lt hq.tail_lt
  have hempty := Queue.isEmpty_iff hq.head_lt hq.tail_lt
  have hocc := Queue.occ_lt hq.head_lt hq.tail_lt
  have htwo := hq.two_le
  refine ⟨by rw [hfull, Queue.content_length], by rw [hempty, Queue.content_eq_nil_iff],
    by rw [Queue.content_length]; omega, ?_, lt_two_pow_idxWidth hq.head_lt, lt_two_pow_idxWidth hq.tail_lt⟩
  rw [hfull, hempty]
  omega

/-! ## Reset -/

/-- Settles O56: both queues of the reset state are fresh, and no DECODE is open. -/
theorem resetIsSound : Obligations.ResetIsSound := by
  have slots : 2 ≤ defaultSlots := by decide
  exact ⟨fun _ => ⟨Queue.fresh_ok _ slots, Queue.fresh_ok _ slots, rfl, fun _ h => nomatch h⟩, rfl⟩

/-! ## INIT -/

/-- INIT answers a next state exactly outside an operation and with legal capacities (70_reset_and_hazards.md R230, R231). -/
theorem exec_init_eq_next_iff {c : InitOperand} {s t : State} : exec (.init c) s = .next t ↔
    s.session = none ∧ 2 ≤ c.nRx.toNat ∧ 2 ≤ c.nTx.toNat ∧ t = (s.initWith c).answer .done := by
  show execInit c s = .next t ↔ _
  unfold execInit legalConfig
  cases s.session with
  | some d => simp
  | none =>
    simp only [Option.isSome_none, Bool.false_eq_true, if_false, Bool.and_eq_true, decide_eq_true_eq]
    split
    · rename_i legal
      simp [legal, eq_comm]
    · rename_i illegal
      simpa using fun h1 h2 => absurd ⟨h1, h2⟩ illegal

/-- A fresh queue of legal capacity is empty, not full, and holds no known slot (10_state.md R37). -/
theorem Queue.fresh_reset (rtr : Fin 32) {n : Nat} (h : 2 ≤ n) :
    (Queue.fresh n).head = 0 ∧ (Queue.fresh n).tail = 0 ∧ (Queue.fresh n).isEmpty = true ∧
      (Queue.fresh n).isFull = false ∧ (Queue.fresh n).content rtr = [] ∧ ∀ i, (Queue.fresh n).slots.get i = none := by
  have ok := Queue.fresh_ok rtr h
  have notFull : (Queue.fresh n).isFull = false := by
    simp [Queue.isFull, Queue.next, Queue.fresh, Nat.mod_eq_of_lt h]
  exact ⟨rfl, rfl, rfl, notFull, Queue.content_empty rtr ok.head_lt ok.tail_lt rfl, fun _ => rfl⟩

/-- Settles O46: the next state of INIT is `State.initWith`, and both its queues are fresh. -/
theorem initEstablishesReset : Obligations.InitEstablishesReset := by
  intro s c hs hrx htx
  refine ⟨_, exec_init_eq_next_iff.2 ⟨hs, hrx, htx, rfl⟩, rfl, rfl, rfl, rfl, ?queues, rfl, ?counters, rfl⟩
  case queues =>
    intro q
    cases q with
    | rxq => exact Queue.fresh_reset c.rtrBit hrx
    | txq => exact Queue.fresh_reset c.rtrBit htx
  case counters =>
    intro k
    fin_cases k <;> rfl

/-! ## The wire rows -/

/-- The four header rows are one operation (30_encoding.md R76). -/
theorem exec_of_header {i : Instr} (hi : instrFormat i = .header) : ∃ h, exec i = onHeader h := by
  cases i with
  | hdrData | hdrAck | hdrNack | hdrReserved => exact ⟨_, rfl⟩
  | _ => cases hi

/-- The four record rows are one operation (30_encoding.md R73). -/
theorem exec_of_record {i : Instr} (hi : instrFormat i = .record) : ∃ f, exec i = onRecord f := by
  cases i with
  | recClassicData | recClassicRtr | recFdData | recFdRtr => exact ⟨_, rfl⟩
  | _ => cases hi

/-- Settles O32: the eight rows are `onHeader` and `onRecord`, which ask for an open DECODE. -/
theorem wireRowsOutsideADatagramAreRefused : Obligations.WireRowsOutsideADatagramAreRefused := by
  intro s i hs hi
  rcases hi with hi | hi
  · obtain ⟨h, e⟩ := exec_of_header hi
    simp only [e, onHeader, hs]
  · obtain ⟨f, e⟩ := exec_of_record hi
    simp only [e, onRecord, hs]

end Sys2Proof.Machine
end

section
/-! Which registers an operation may move (10_state.md R27, R30, R32): the registers in groups, the relation "moves at most
these", that relation for each shared operation of the block, and for each instruction the row of the tables. -/

namespace Sys2Proof.Machine

/-! ## The groups -/

/-- The registers, in the groups in which the tables of 10_state.md name their writers. The configuration and the capacities
are in none: only INIT writes them (R36). -/
inductive Reg where
  /-- `Q.head`. -/
  | head (q : QueueId)
  /-- `Q.tail`, `Q.slot` and `Q.DROP`. -/
  | fill (q : QueueId)
  /-- `SEQ`. -/
  | seq
  /-- `CNT_ALLOC`. -/
  | alloc
  /-- Counters 2 to 5. -/
  | decodeCounters
  /-- `PHASE`. -/
  | phase
  /-- The DECODE in progress. -/
  | session
deriving DecidableEq

/-- Two states agree on a group of registers. -/
def Reg.Same : Reg → State → State → Prop
  | .head q, s, t => (t.queue q).head = (s.queue q).head
  | .fill q, s, t =>
    ((t.queue q).tail, (t.queue q).slots, (t.queue q).drop) = ((s.queue q).tail, (s.queue q).slots, (s.queue q).drop)
  | .seq, s, t => t.seq = s.seq
  | .alloc, s, t => t.cntAlloc = s.cntAlloc
  | .decodeCounters, s, t => (t.cntMalformed, t.cntVersion, t.cntOpcode, t.cntTruncated) =
      (s.cntMalformed, s.cntVersion, s.cntOpcode, s.cntTruncated)
  | .phase, s, t => t.phase = s.phase
  | .session, s, t => t.session = s.session

theorem Reg.Same.refl (r : Reg) (s : State) : r.Same s s := by
  cases r <;> rfl

theorem Reg.Same.trans {r : Reg} {s t u : State} (h1 : r.Same s t) (h2 : r.Same t u) : r.Same s u := by
  cases r <;> exact Eq.trans h2 h1

/-- From `s` to `t` at most the registers `W` have moved, and both slot arrays are as canonical as they were. -/
structure Moves (W : List Reg) (s t : State) : Prop where
  settings : t.settings = s.settings
  ready : t.ready = s.ready
  size : ∀ q, (t.queue q).size = (s.queue q).size
  slots_wf : ∀ q, (s.queue q).slots.wf → (t.queue q).slots.wf
  same : ∀ r ∉ W, r.Same s t

theorem Moves.refl (W : List Reg) (s : State) : Moves W s s :=
  ⟨rfl, rfl, fun _ => rfl, fun _ => id, fun r _ => .refl r s⟩

/-- Two operations, one after the other, where the second moves no register that the whole may not move. -/
theorem Moves.next {V W : List Reg} {s t u : State} (h1 : Moves W s t) (h2 : Moves V t u) (hVW : V ⊆ W) : Moves W s u where
  settings := h2.settings.trans h1.settings
  ready := h2.ready.trans h1.ready
  size q := (h2.size q).trans (h1.size q)
  slots_wf q h := h2.slots_wf q (h1.slots_wf q h)
  same r hr := (h1.same r hr).trans (h2.same r fun hv => hr (hVW hv))

theorem Moves.mono {V W : List Reg} {s t : State} (h : Moves V s t) (hVW : V ⊆ W) : Moves W s t :=
  (Moves.refl W s).next h hVW

/-- A register that ends as it began need not be listed. -/
theorem Moves.restored {W : List Reg} {r : Reg} {s t : State} (h : Moves (r :: W) s t) (hr : r.Same s t) : Moves W s t where
  __ := h
  same r' hr' := by
    by_cases e : r' = r
    · rw [e]; exact hr
    · exact h.same r' (by simp [e, hr'])

/-- A register that has moved is one of those that may. -/
theorem Moves.mem_of_not_same {W : List Reg} {r : Reg} {s t : State} (h : Moves W s t) (hr : ¬ r.Same s t) : r ∈ W :=
  not_imp_comm.1 (h.same r) hr

/-! ## Single updates -/

/-- The groups of registers outside the queues. -/
def Reg.outsideQueues : List Reg := [.seq, .alloc, .decodeCounters, .phase, .session]

/-- An update that leaves the configuration and both queues moves what it moves outside the queues. -/
theorem Moves.of_queues_kept {W : List Reg} {s t : State} (hset : t.settings = s.settings) (hready : t.ready = s.ready)
    (hrx : t.rxq = s.rxq) (htx : t.txq = s.txq) (h : ∀ r ∈ Reg.outsideQueues, r ∉ W → r.Same s t) : Moves W s t := by
  have hq : t.queue = s.queue := by
    funext q
    cases q with
    | rxq => exact hrx
    | txq => exact htx
  refine ⟨hset, hready, fun q => by rw [hq], fun q => by rw [hq]; exact id, fun r hr => ?_⟩
  cases r with
  | head q | fill q => simp only [Reg.Same, hq]
  | _ => exact h _ (by simp [Reg.outsideQueues]) hr

theorem State.emit_moves (s : State) (e : Event) : Moves [] s (s.emit e) :=
  .of_queues_kept rfl rfl rfl rfl (by simp [Reg.outsideQueues, Reg.Same])

theorem State.answer_moves (s : State) (r : Response) : Moves [] s (s.answer r) := s.emit_moves _

theorem State.drawn_moves (s : State) : Moves [] s s.drawn :=
  .of_queues_kept rfl rfl rfl rfl (by simp [Reg.outsideQueues, Reg.Same])

theorem State.drawAccepted_moves (s : State) : Moves [] s s.drawAccepted.2 := by
  rw [State.drawAccepted_same]
  exact .of_queues_kept rfl rfl rfl rfl (by simp [Reg.outsideQueues, Reg.Same])

theorem State.drawBusFrames_moves (s : State) : Moves [] s s.drawBusFrames.2 := by
  rw [State.drawBusFrames_same]
  exact .of_queues_kept rfl rfl rfl rfl (by simp [Reg.outsideQueues, Reg.Same])

theorem State.drawBufAvail_moves (s : State) : Moves [] s s.drawBufAvail.2 := by
  rw [State.drawBufAvail_same]
  exact .of_queues_kept rfl rfl rfl rfl (by simp [Reg.outsideQueues, Reg.Same])

theorem State.setSession_moves (s : State) (d : Option Session) : Moves [.session] s { s with session := d } :=
  .of_queues_kept rfl rfl rfl rfl (by simp [Reg.outsideQueues, Reg.Same])

theorem State.setPorts_moves (s : State) (bs : List Byte) (ds : List (List Byte)) (ts : List Agent) :
    Moves [] s { s with request := bs, inbound := ds, turns := ts } :=
  .of_queues_kept rfl rfl rfl rfl (by simp [Reg.outsideQueues, Reg.Same])

theorem State.setSeq_moves (s : State) (v : Byte) : Moves [.seq] s { s with seq := v } :=
  .of_queues_kept rfl rfl rfl rfl (by simp [Reg.outsideQueues, Reg.Same])

theorem State.advance_moves (s : State) : Moves [.phase] s s.advance :=
  .of_queues_kept rfl rfl rfl rfl (by simp [Reg.outsideQueues, Reg.Same])

/-- The counter that a status has is `CNT_ALLOC` or one of counters 2 to 5 (10_state.md R30). -/
theorem State.count_moves (s : State) (st : Status) :
    Moves [if st = .allocationFailure then .alloc else .decodeCounters] s (s.count st) :=
  .of_queues_kept (by simp) (by simp) (by simp) (by simp) (by cases st <;> simp [Reg.outsideQueues, Reg.Same, State.count])

/-- The end of a DECODE moves counters 2 to 5 at most, as no DECODE ends with `AllocationFailure` (43_decode.md R162). -/
theorem State.endDecode_moves (s : State) {st : Status} (hst : st ≠ .allocationFailure) (n : Nat) :
    Moves [.decodeCounters] s (s.endDecode st n) := by
  have counted := s.count_moves st
  rw [if_neg hst] at counted
  exact (counted.next (State.emit_moves _ _) (by simp)).next (State.answer_moves _ _) (by simp)

/-! ## Queues -/

/-- What an enqueue attempt can do to a queue: `head` and the capacity stay, the slot array stays canonical. -/
structure Queue.Fills (q q' : Queue) : Prop where
  head : q'.head = q.head
  size : q'.size = q.size
  slots_wf : q.slots.wf → q'.slots.wf

theorem Queue.Fills.refl (q : Queue) : q.Fills q := ⟨rfl, rfl, id⟩

theorem Queue.Fills.trans {q q' q'' : Queue} (h1 : q.Fills q') (h2 : q'.Fills q'') : q.Fills q'' :=
  ⟨h2.head.trans h1.head, h2.size.trans h1.size, fun h => h2.slots_wf (h1.slots_wf h)⟩

theorem Queue.publish_fills (q : Queue) (f : SigFrame) : q.Fills (q.publish f) :=
  ⟨rfl, rfl, Memory.set_wf q.tail f⟩

theorem Queue.drop_fills (q : Queue) (d : Word32) : q.Fills { q with drop := d } := ⟨rfl, rfl, id⟩

theorem Queue.offer_fills (q : Queue) (f : SigFrame) : q.Fills (q.offer f).2 := by
  rcases Queue.offer_cases q f with ⟨_, e⟩ | ⟨_, e⟩ <;> rw [e]
  · exact q.drop_fills _
  · exact q.publish_fills f

theorem Queue.enqueue_fills (rtr : Fin 32) (q : Queue) (f : Frame) : q.Fills (q.enqueue rtr f).2 := by
  rcases Queue.enqueue_cases rtr q f with ⟨_, e⟩ | ⟨_, e⟩ <;> rw [e]
  · exact .refl q
  · exact q.offer_fills _

theorem decodeRecords_fills (rtr : Fin 32) (k : Nat) (bs : List Byte) (n : Nat) (q : Queue) :
    q.Fills (decodeRecords rtr k bs n q).2.2 := by
  induction k generalizing bs n q with
  | zero => exact .refl q
  | succ k ih =>
    rcases decodeRecords_succ rtr k bs n q with ⟨_, _, e⟩ | ⟨_, _, _, _, e⟩ | ⟨f, rest, _, _, e⟩ <;> rw [e]
    · exact .refl q
    · exact q.drop_fills _
    · exact (q.publish_fills f).trans (ih rest (n + 1) (q.publish f))

theorem decodeInput_fills (g : Settings) (input : List Byte) (q : Queue) : q.Fills (decodeInput g input q).2.2 := by
  unfold decodeInput
  split
  · exact .refl q
  · split
    · exact .refl q
    · exact decodeRecords_fills _ _ _ _ _

/-- An update of a queue that keeps its capacity and its slot array canonical moves what it moves of that queue. -/
theorem State.setQueue_moves (s : State) (id : QueueId) {q : Queue} {W : List Reg} (hsize : q.size = (s.queue id).size)
    (hwf : (s.queue id).slots.wf → q.slots.wf)
    (hsame : ∀ r ∈ [Reg.head id, .fill id], r ∉ W → r.Same s (s.setQueue id q)) : Moves W s (s.setQueue id q) where
  settings := s.setQueue_settings id q
  ready := s.setQueue_ready id q
  size id' := by
    by_cases e : id' = id
    · rw [e, State.queue_setQueue_same, hsize]
    · rw [State.queue_setQueue_other s q e]
  slots_wf id' := by
    by_cases e : id' = id
    · rw [e, State.queue_setQueue_same]; exact hwf
    · rw [State.queue_setQueue_other s q e]; exact fun h => h
  same r hr := by
    cases r with
    | head id' | fill id' =>
      by_cases e : id' = id
      · exact hsame _ (by simp [e]) hr
      · simp only [Reg.Same, State.queue_setQueue_other s q e]
    | _ => simp [Reg.Same]

theorem State.setQueue_moves_fill (s : State) (id : QueueId) {q : Queue} (h : (s.queue id).Fills q) :
    Moves [.fill id] s (s.setQueue id q) :=
  s.setQueue_moves id h.size h.slots_wf (by simp [Reg.Same, h.head])

theorem State.setQueue_moves_head (s : State) (id : QueueId) {q : Queue} (h : q = { s.queue id with head := q.head }) :
    Moves [.head id] s (s.setQueue id q) := by
  rw [h]
  exact s.setQueue_moves id rfl (fun hw => hw) (by simp [Reg.Same])

/-! ## ENCODE, DECODE and the other agent -/

theorem State.encode_moves (s : State) (id : QueueId) (limit : Nat) :
    Moves [.head id, .seq] s (s.encode id limit).2 := by
  rcases State.encode_cases s id limit with ⟨_, e⟩ | ⟨_, e⟩ <;> rw [e]
  · exact .refl _ s
  · have taken := s.setQueue_moves_head id (batch_queue s.settings.rtrBit limit (s.queue id).occ Config.hdrSize _)
    exact (taken.mono (by simp)).next (State.setSeq_moves _ _) (by simp)

theorem State.decode_moves (s : State) (id : QueueId) (input : List Byte) :
    Moves [.fill id, .decodeCounters] s (s.decode id input) := by
  have notAlloc : (decodeInput s.settings input (s.queue id)).1 ≠ .allocationFailure := by
    intro h
    have := decodeInput_status s.settings input (q := s.queue id)
    simp [h] at this
  have filled := s.setQueue_moves_fill id (decodeInput_fills s.settings input (s.queue id))
  exact (filled.mono (by simp)).next (State.endDecode_moves _ notAlloc _) (by simp)

theorem State.netTurns_moves (s : State) (ts : List Agent) : Moves [.fill .txq, .decodeCounters] s (s.netTurns ts) := by
  have ports := fun (u : State) ds ts' => (Moves.refl [.fill .txq, .decodeCounters] u).next
    (u.setPorts_moves u.request ds ts') (by simp)
  induction ts generalizing s with
  | nil => exact ports s s.inbound []
  | cons a ts ih =>
    cases a with
    | tick => exact ports s s.inbound ts
    | net =>
      simp only [State.netTurns]
      split
      · exact ih s
      · split
        · rename_i d ds _ _
          have decoded := (ports s ds s.turns).next (State.decode_moves _ .txq d) (by simp)
          exact decoded.next (ih _) (by simp)
        · exact ports s s.inbound ts

/-- What a DECODE that cuts into a command of the scheduler moves: under `cooperative` none does (20_memory.md R59). -/
def cutRegs : Discipline → List Reg
  | .cooperative => []
  | .interruptShared => [.fill .txq, .decodeCounters]

theorem State.cutIn_moves (s : State) : Moves (cutRegs s.settings.discipline) s s.cutIn := by
  unfold State.cutIn
  cases s.settings.discipline with
  | cooperative => exact .refl _ s
  | interruptShared => exact s.netTurns_moves s.turns

/-- A boundary after an operation that may move what a DECODE there moves. -/
theorem Moves.cutIn {W : List Reg} {s t : State} (h : Moves W s t) (hW : cutRegs s.settings.discipline ⊆ W) :
    Moves W s t.cutIn :=
  h.next t.cutIn_moves (by rw [h.settings]; exact hW)

end Sys2Proof.Machine
end

section
/-! Which registers each instruction may move: the tables of 10_state.md R27, R30, R32 as a function, and O58. -/

namespace Sys2Proof.Machine

/-! ## The scheduler -/

theorem State.takeIf_moves (s : State) (accepted : Bool) : Moves [.head .txq] s (s.takeIf accepted) := by
  cases accepted with
  | false => exact .refl _ s
  | true => exact s.setQueue_moves_head .txq rfl

theorem State.txStep_moves (s : State) : Moves (.head .txq :: cutRegs s.settings.discipline) s s.txStep := by
  rcases State.txStep_cases s with ⟨_, e⟩ | ⟨_, _, e⟩ <;> rw [e]
  · exact .refl _ s
  · have drawn := ((Moves.refl (.head .txq :: cutRegs s.settings.discipline) s).next s.drawn_moves (by simp)).next
      s.drawn.drawAccepted_moves (by simp)
    have offered := drawn.next (State.emit_moves _ (.offer ((s.txq.front s.settings.rtrBit).toFrame s.freeFrame)
      s.drawn.drawAccepted.1)) (by simp)
    exact (offered.cutIn (by simp)).next (State.takeIf_moves _ _) (by simp)

theorem State.enqueueAll_moves (s : State) (fs : List Frame) :
    Moves (.fill .rxq :: cutRegs s.settings.discipline) s (s.enqueueAll fs) := by
  induction fs generalizing s with
  | nil => exact .refl _ s
  | cons f fs ih =>
    have filled := s.setQueue_moves_fill .rxq (s.rxq.enqueue_fills s.settings.rtrBit f)
    have bounded := (filled.mono (W := .fill .rxq :: cutRegs s.settings.discipline) (by simp)).cutIn (by simp)
    exact bounded.next (ih _) (by rw [bounded.settings]; exact List.Subset.refl _)

theorem State.rxStep_moves (s : State) : Moves (.fill .rxq :: cutRegs s.settings.discipline) s s.rxStep := by
  unfold State.rxStep
  split
  · exact .refl _ s
  · have polled := ((Moves.refl (.fill .rxq :: cutRegs s.settings.discipline) s).next s.drawBusFrames_moves
      (by simp)).next (State.emit_moves _ (.polled s.drawBusFrames.1)) (by simp)
    exact polled.next (State.enqueueAll_moves _ _) (by rw [polled.settings]; exact List.Subset.refl _)

/-- What FLUSH may move (44_scheduler.md R188). -/
def flushRegs (d : Discipline) : List Reg := .head .rxq :: .seq :: .alloc :: cutRegs d

theorem State.flushLoop_moves (s : State) (fuel : Nat) : Moves (flushRegs s.settings.discipline) s (s.flushLoop fuel) := by
  induction fuel generalizing s with
  | zero => exact .refl _ s
  | succ fuel ih =>
    have drawn := (Moves.refl (flushRegs s.settings.discipline) s).next s.drawBufAvail_moves (by simp)
    have encoded := drawn.next (State.encode_moves _ .rxq s.drawBufAvail.2.settings.mtuLimit.toNat) (by simp [flushRegs])
    have bounded := fun bs => (encoded.next (State.emit_moves _ (.send bs)) (by simp)).cutIn
      fun r hr => by simp [flushRegs, hr]
    simp only [State.flushLoop]
    split
    · exact .refl _ s
    · split
      · exact drawn.next (State.count_moves _ .allocationFailure) (by simp [flushRegs])
      · split
        · exact encoded
        · exact (bounded _).next (ih _) (by rw [(bounded _).settings]; exact List.Subset.refl _)

theorem State.flushStep_moves (s : State) : Moves (flushRegs s.settings.discipline) s s.flushStep :=
  s.flushLoop_moves _

/-- What TICK may move (44_scheduler.md R189). -/
def tickRegs (d : Discipline) : List Reg := .head .txq :: .fill .rxq :: flushRegs d

theorem State.tickStep_moves (s : State) : Moves (tickRegs s.settings.discipline) s s.tickStep := by
  have cut : cutRegs s.settings.discipline ⊆ .phase :: tickRegs s.settings.discipline :=
    fun r hr => by simp [tickRegs, flushRegs, hr]
  have tx : Moves (.phase :: tickRegs s.settings.discipline) s s.txStep.cutIn.advance :=
    ((s.txStep_moves.mono (by simpa [tickRegs, flushRegs] using cut)).cutIn cut).next (State.advance_moves _) (by simp)
  have rx := tx.next (State.rxStep_moves _) (by rw [tx.settings]; simpa [tickRegs, flushRegs] using cut)
  have rx := (rx.cutIn cut).next (State.advance_moves _) (by simp)
  have fl := rx.next (State.flushStep_moves _) (by rw [rx.settings]; exact fun r hr => by simp [tickRegs, hr])
  exact (fl.next (State.advance_moves _) (by simp)).restored s.tickStep_phase

/-! ## The wire rows -/

/-- What a header does to the DECODE that stands before it: end it with the status of the check that fails, or start the
loop (43_decode.md R151, R152). -/
theorem State.acceptHeader_cases (s : State) (d : Session) (h : Header) :
    (∃ st ≠ Status.allocationFailure, s.acceptHeader d h = { s with session := none }.endDecode st d.enqueued) ∨
    (h.count ≠ 0 ∧ s.acceptHeader d h = { s with session := some { d with stage := .records h.count.toNat 0 } }) := by
  unfold State.acceptHeader
  rcases checkHeader_cases s.settings.version h with e | e | e | ⟨e, _, _, hc⟩ <;> simp only [e]
  · exact .inl ⟨.versionMismatch, by decide, rfl⟩
  · exact .inl ⟨.unsupportedOpCode, by decide, rfl⟩
  · exact .inl ⟨.malformed, by decide, rfl⟩
  · exact .inr ⟨hc, by trivial⟩

/-- What a record does in the loop of a DECODE: its frame is offered to TXQ, and the loop goes on to the next record or the
DECODE ends (43_decode.md R151, R158 to R160). -/
theorem State.acceptRecord_cases (s : State) (d : Session) (count index : Nat) (f : SigFrame) :
    (∃ st ≠ Status.allocationFailure, ∃ n, s.acceptRecord d count index f =
      { s with txq := (s.txq.offer f).2, session := none }.endDecode st n) ∨
    (index + 1 < count ∧ s.acceptRecord d count index f = { s with
      txq := (s.txq.offer f).2,
      session := some { d with stage := .records count (index + 1), enqueued := d.enqueued + 1 } }) := by
  unfold State.acceptRecord
  rcases Queue.offer_cases s.txq f with ⟨_, e⟩ | ⟨_, e⟩ <;> simp only [e]
  · exact .inl ⟨.full, by decide, d.enqueued, rfl⟩
  · by_cases more : index + 1 < count
    · exact .inr ⟨more, if_pos more⟩
    · exact .inl ⟨.ok, by decide, d.enqueued + 1, if_neg more⟩

/-- A header runs only where a DECODE stands before its header. -/
theorem onHeader_next {h : Header} {s t : State} (e : onHeader h s = .next t) :
    ∃ d, s.session = some d ∧ d.stage = .header ∧ t = s.acceptHeader d h := by
  unfold onHeader at e
  split at e
  · rename_i total rest n hs
    obtain ⟨_, e⟩ := State.whenReady_next e
    cases e
    exact ⟨_, hs, rfl, rfl⟩
  · cases e

/-- A record runs only where a DECODE stands in its loop: it ends the DECODE where it declares more than 64 bytes, else it
is well-formed and the loop takes it (43_decode.md R156). -/
theorem onRecord_next {f : SigFrame} {s t : State} (e : onRecord f s = .next t) :
    ∃ d count index, s.session = some d ∧ d.stage = .records count index ∧
      (t = { s with session := none }.endDecode .malformed d.enqueued ∨
        f.ok s.settings.rtrBit = true ∧ t = s.acceptRecord d count index f) := by
  unfold onRecord at e
  split at e
  · rename_i total rest count index n hs
    obtain ⟨_, e⟩ := State.whenReady_next e
    refine ⟨_, count, index, hs, rfl, ?_⟩
    split at e
    · cases e
      exact .inl rfl
    · split at e
      · rename_i ok
        cases e
        exact .inr ⟨ok, rfl⟩
      · cases e
  · cases e

theorem onHeader_moves {h : Header} {s t : State} (e : onHeader h s = .next t) : Moves [.session, .decodeCounters] s t := by
  obtain ⟨d, _, _, rfl⟩ := onHeader_next e
  rcases s.acceptHeader_cases d h with ⟨st, hst, e⟩ | ⟨_, e⟩ <;> rw [e]
  · exact ((s.setSession_moves none).mono (by simp)).next (State.endDecode_moves _ hst _) (by simp)
  · exact (s.setSession_moves _).mono (by simp)

theorem onRecord_moves {f : SigFrame} {s t : State} (e : onRecord f s = .next t) :
    Moves [.session, .fill .txq, .decodeCounters] s t := by
  have offered : Moves [.session, .fill .txq, .decodeCounters] s (s.setQueue .txq (s.txq.offer f).2) :=
    (s.setQueue_moves_fill .txq (s.txq.offer_fills f)).mono (by simp)
  have after := fun d => offered.next (State.setSession_moves _ d) (by simp)
  obtain ⟨d, count, index, _, _, rfl | ⟨_, rfl⟩⟩ := onRecord_next e
  · exact ((s.setSession_moves none).mono (by simp)).next (State.endDecode_moves _ (by decide) _) (by simp)
  · rcases s.acceptRecord_cases d count index f with ⟨st, hst, n, e⟩ | ⟨_, e⟩ <;> rw [e]
    · exact (after none).next (State.endDecode_moves _ hst n) (by simp)
    · exact after _

/-! ## Every instruction -/

/-- The registers that an instruction other than INIT may move, as the tables of 10_state.md R27, R30, R32 list them. -/
def writes (d : Discipline) : Instr → List Reg
  | .hdrData _ _ _ | .hdrAck _ _ _ | .hdrNack _ _ _ | .hdrReserved _ _ _ _ => [.session, .decodeCounters]
  | .recClassicData _ _ _ | .recClassicRtr _ _ | .recFdData _ _ _ _ | .recFdRtr _ _ _ =>
    [.session, .fill .txq, .decodeCounters]
  | .enq q _ => [.fill q]
  | .deq q => [.head q]
  | .encode q _ => [.head q, .seq]
  | .decode q _ => [.fill q, .decodeCounters]
  | .txstep => .head .txq :: cutRegs d
  | .rxstep => .fill .rxq :: cutRegs d
  | .flush => flushRegs d
  | .tick => tickRegs d
  | .peek _ | .stat _ | .rdcnt _ | .reservedOp0 _ | .reservedOpC _ | .reservedOpD _ | .reservedOpE _ | .reservedRdcnt7
  | .efflen _ | .isfd _ | .isrtr _ | .wiresize _ | .record _ | .init _ => []

/-- An operation that runs where the block is initialised and answers moves what was moved before the answer. -/
theorem Moves.answered {W : List Reg} {s u t : State} {r : Response} (m : Moves W s u)
    (h : s.whenReady (.next (u.answer r)) = .next t) : Moves W s t := by
  obtain ⟨_, h⟩ := State.whenReady_next h
  cases h
  exact m.next (u.answer_moves r) (by simp)

/-- Every instruction other than INIT moves at most the registers of its row. -/
theorem exec_moves {i : Instr} {s t : State} (h : exec i s = .next t) (hi : ∀ c, i ≠ .init c) :
    Moves (writes s.settings.discipline i) s t := by
  have unmoved := Moves.refl (writes s.settings.discipline i) s
  have drawn := fun r => (unmoved.next s.drawn_moves (by simp)).next (State.answer_moves _ r) (by simp)
  cases i with
  | init c => exact absurd rfl (hi c)
  | hdrData | hdrAck | hdrNack | hdrReserved => exact onHeader_moves h
  | recClassicData | recClassicRtr | recFdData | recFdRtr => exact onRecord_moves h
  | reservedOp0 | reservedOpC | reservedOpD | reservedOpE | reservedRdcnt7 | efflen | isfd =>
    cases h
    exact unmoved.next (s.answer_moves _) (by simp)
  | isrtr | wiresize | stat | rdcnt => exact unmoved.answered h
  | record f =>
    obtain ⟨_, h⟩ := State.whenReady_next h
    split at h <;> cases h
    · exact unmoved.next (s.answer_moves _) (by simp)
    · exact drawn _
  | peek q =>
    obtain ⟨_, h⟩ := State.whenReady_next h
    split at h <;> cases h <;> exact drawn _
  | deq q =>
    obtain ⟨_, h⟩ := State.whenReady_next h
    split at h <;> cases h
    · exact drawn _
    · exact ((s.setQueue_moves_head q rfl).next (State.drawn_moves _) (by simp)).next (State.answer_moves _ _) (by simp)
  | enq q f => exact (s.setQueue_moves_fill q (Queue.enqueue_fills _ _ f)).answered h
  | encode q m => exact (s.encode_moves q m.toNat).answered h
  | decode q input =>
    obtain ⟨_, h⟩ := State.whenReady_next h
    split at h <;> cases h
    exact s.decode_moves q input
  | txstep => exact s.txStep_moves.answered h
  | rxstep => exact s.rxStep_moves.answered h
  | flush => exact s.flushStep_moves.answered h
  | tick => exact s.tickStep_moves.answered h

/-! ## The tables, read by register

Each lemma looks one register up in all rows of `writes`: the instructions whose row lists it. -/

theorem mem_cutRegs {d : Discipline} {r : Reg} :
    r ∈ cutRegs d ↔ d = .interruptShared ∧ (r = .fill .txq ∨ r = .decodeCounters) := by
  cases d <;> simp [cutRegs]

theorem head_mem_writes {d : Discipline} {q : QueueId} {i : Instr} (h : .head q ∈ writes d i) :
    i = .deq q ∨ (∃ m, i = .encode q m) ∨ (q = .rxq ∧ i = .flush) ∨ (q = .txq ∧ i = .txstep) ∨ i = .tick := by
  cases i <;> simp_all [writes, flushRegs, tickRegs, mem_cutRegs]

theorem fill_mem_writes {d : Discipline} {q : QueueId} {i : Instr} (h : .fill q ∈ writes d i) :
    (∃ f, i = .enq q f) ∨ (∃ input, i = .decode q input) ∨ (q = .rxq ∧ (i = .rxstep ∨ i = .tick)) ∨
      (q = .txq ∧ (instrFormat i = .record ∨
        d = .interruptShared ∧ i ∈ [Instr.txstep, .rxstep, .flush, .tick])) := by
  cases i <;> simp_all [writes, flushRegs, tickRegs, mem_cutRegs, instrFormat, and_comm]

theorem seq_mem_writes {d : Discipline} {i : Instr} (h : .seq ∈ writes d i) :
    (∃ q m, i = .encode q m) ∨ i = .flush ∨ i = .tick := by
  cases i <;> simp_all [writes, flushRegs, tickRegs, mem_cutRegs]

theorem alloc_mem_writes {d : Discipline} {i : Instr} (h : .alloc ∈ writes d i) : i = .flush ∨ i = .tick := by
  cases i <;> simp_all [writes, flushRegs, tickRegs, mem_cutRegs]

theorem decodeCounters_mem_writes {d : Discipline} {i : Instr} (h : .decodeCounters ∈ writes d i) :
    (∃ q input, i = .decode q input) ∨ instrFormat i = .header ∨ instrFormat i = .record ∨
      d = .interruptShared ∧ i ∈ [Instr.txstep, .rxstep, .flush, .tick] := by
  cases i <;> simp_all [writes, flushRegs, tickRegs, mem_cutRegs, instrFormat]

theorem session_mem_writes {d : Discipline} {i : Instr} (h : .session ∈ writes d i) :
    instrFormat i = .header ∨ instrFormat i = .record := by
  cases i <;> simp_all [writes, flushRegs, tickRegs, mem_cutRegs, instrFormat]

/-- Between instructions `PHASE` does not move (10_state.md R31). -/
theorem phase_not_mem_writes (d : Discipline) (i : Instr) : .phase ∉ writes d i := by
  cases i <;> simp [writes, flushRegs, tickRegs, mem_cutRegs]

/-- Settles O58: `exec_moves` bounds what an instruction moves by its row, and each register is read off the rows. -/
theorem onlyTheListedInstructionsWriteARegister : Obligations.OnlyTheListedInstructionsWriteARegister := by
  intro i s t h hi
  have moves := exec_moves h hi
  refine ⟨?rxHead, ?rxFill, ?txHead, ?txFill, fun hne => seq_mem_writes (moves.mem_of_not_same hne),
    fun hne => alloc_mem_writes (moves.mem_of_not_same hne),
    fun hne => decodeCounters_mem_writes (moves.mem_of_not_same hne), moves.settings, moves.ready,
    moves.same .phase (phase_not_mem_writes _ i), moves.size .rxq, moves.size .txq⟩
  case rxHead =>
    intro hne
    simpa using head_mem_writes (moves.mem_of_not_same (r := .head .rxq) hne)
  case txHead =>
    intro hne
    simpa using head_mem_writes (moves.mem_of_not_same (r := .head .txq) hne)
  case rxFill =>
    intro hne
    simpa using fill_mem_writes (moves.mem_of_not_same (r := .fill .rxq) hne)
  case txFill =>
    intro hne
    simpa using fill_mem_writes (moves.mem_of_not_same (r := .fill .txq) hne)

end Sys2Proof.Machine
end

section
/-! What a step keeps: O57, the slot arrays in canonical form, and O55, the soundness of the block. -/

namespace Sys2Proof.Machine

/-! ## The fetch and the step -/

/-- What a fetch does to the state: it consumes bytes, turns and datagrams of the ports and moves the cursor of the DECODE in
progress, or opens or closes one; a DECODE that was in order stays so (10_state.md R34). -/
structure Fetches (s u : State) : Prop where
  same : u = { s with session := u.session, request := u.request, inbound := u.inbound, turns := u.turns }
  session_ok : (∀ d, s.session = some d → d.Ok) → ∀ d, u.session = some d → d.Ok

theorem Fetches.refl (s : State) : Fetches s s := ⟨rfl, id⟩

theorem Fetches.trans {s t u : State} (h1 : Fetches s t) (h2 : Fetches t u) : Fetches s u :=
  ⟨by rw [h2.same, h1.same], fun h => h2.session_ok (h1.session_ok h)⟩

theorem Fetches.ports (s : State) (bs : List Byte) (ds : List (List Byte)) (ts : List Agent) :
    Fetches s { s with request := bs, inbound := ds, turns := ts } := ⟨rfl, id⟩

theorem Fetches.closed (s : State) : Fetches s { s with session := none } := ⟨rfl, fun _ _ h => nomatch h⟩

/-- The cursor of a DECODE in order moves forward over its input (43_decode.md R159). -/
theorem Session.Ok.advance {d : Session} (h : d.Ok) {rest : List Byte} (hr : rest.length ≤ d.rest.length) :
    { d with rest := rest }.Ok :=
  ⟨hr.trans h.1, h.2⟩

theorem Fetches.advanced {s : State} {d : Session} (hd : s.session = some d) {rest : List Byte}
    (hr : rest.length ≤ d.rest.length) : Fetches s { s with session := some { d with rest := rest } } :=
  ⟨rfl, fun h d' hd' => by cases hd'; exact (h d hd).advance hr⟩

/-- The state in which a fetch leaves the block, where it leaves one. -/
def Fetched.state? : Fetched → Option State
  | .run _ u | .fail _ _ u | .reserved u | .idle u => some u
  | .refuse _ => none

theorem State.fetchWire_fetches {s u : State} {d : Session} (hd : s.session = some d)
    (h : (s.fetchWire d).state? = some u) : Fetches s u := by
  unfold State.fetchWire at h
  split at h
  · split at h <;> cases h
    · rename_i e
      refine .advanced hd ?_
      rw [headerBytes_of_read e, List.length_append]
      omega
    · exact .closed s
  · split at h <;> cases h
    · rename_i e
      refine .advanced hd ?_
      rw [(readRecord_ok e).2, List.length_append]
      omega
    · exact .closed s

theorem State.fetchCommand_fetches {s u : State} (h : s.fetchCommand.state? = some u) : Fetches s u := by
  unfold State.fetchCommand at h
  split at h <;> cases h
  · exact .ports s _ s.inbound s.turns
  · exact .refl s
  · exact .ports s _ s.inbound s.turns

/-- A DECODE that has just been opened is in order: `MAX_DGRAM` was checked (43_decode.md R150). -/
theorem Session.opened_ok {input : List Byte} (h : input.length ≤ Config.maxDgram) :
    (⟨input.length, input, .header, 0⟩ : Session).Ok := ⟨Nat.le_refl _, h, rfl⟩

theorem State.fetchInbound_fetches {s u : State} (h : s.fetchInbound.state? = some u) : Fetches s u := by
  unfold State.fetchInbound at h
  split at h
  · cases h
    exact .refl s
  · split at h
    · cases h
    · split at h <;> cases h
      rename_i hlen
      exact ⟨rfl, fun _ d hd => by cases hd; exact Session.opened_ok hlen⟩

theorem State.fetchUnscheduled_fetches {s u : State} (h : s.fetchUnscheduled.state? = some u) : Fetches s u := by
  unfold State.fetchUnscheduled at h
  split at h
  · exact State.fetchInbound_fetches h
  · exact State.fetchCommand_fetches h

theorem State.fetch_fetches {s u : State} (h : s.fetch.state? = some u) : Fetches s u := by
  unfold State.fetch at h
  split at h
  · rename_i d hd
    split at h
    · exact State.fetchWire_fetches hd h
    · cases h
  · split at h
    · exact (Fetches.ports s s.request s.inbound _).trans (State.fetchCommand_fetches h)
    · exact (Fetches.ports s s.request s.inbound _).trans (State.fetchInbound_fetches h)
    · exact State.fetchUnscheduled_fetches h

/-- What a step can do: fetch, then run an instruction, end the DECODE in progress, answer a reserved word, or wait. -/
theorem step_cases {s t : State} (h : step s = .next t) : ∃ u, Fetches s u ∧
    ((∃ i, exec i u = .next t) ∨ (∃ st n, t = u.endDecode st n) ∨ t = u.answerIllegal ∨ t = u) := by
  unfold step at h
  split at h
  · rename_i i u e
    exact ⟨u, State.fetch_fetches (by rw [e]; rfl), .inl ⟨i, h⟩⟩
  · rename_i st n u e
    cases h
    exact ⟨u, State.fetch_fetches (by rw [e]; rfl), .inr (.inl ⟨st, n, rfl⟩)⟩
  · rename_i u e
    cases h
    exact ⟨u, State.fetch_fetches (by rw [e]; rfl), .inr (.inr (.inl rfl))⟩
  · rename_i e
    cases h
    exact ⟨t, State.fetch_fetches (by rw [e]; rfl), .inr (.inr (.inr rfl))⟩
  · cases h

@[simp] theorem State.endDecode_queue (s : State) (st : Status) (n : Nat) : (s.endDecode st n).queue = s.queue := by
  funext q
  cases q <;> simp

@[simp] theorem State.answer_queue (s : State) (r : Response) : (s.answer r).queue = s.queue := by
  funext q
  cases q <;> rfl

theorem Fetches.queue {s u : State} (h : Fetches s u) : u.queue = s.queue := by
  rw [h.same]
  funext q
  cases q <;> rfl

/-! ## The slot arrays -/

theorem exec_keeps_slots_wf {i : Instr} {s t : State} (h : exec i s = .next t) (hs : ∀ q, (s.queue q).slots.wf) :
    ∀ q, (t.queue q).slots.wf := by
  by_cases hi : ∃ c, i = .init c
  · obtain ⟨c, rfl⟩ := hi
    obtain ⟨_, _, _, rfl⟩ := exec_init_eq_next_iff.1 h
    intro q
    cases q <;> exact List.Pairwise.nil
  · have moves := exec_moves h fun c hc => hi ⟨c, hc⟩
    exact fun q => moves.slots_wf q (hs q)

/-- Settles O57: an instruction other than INIT keeps the canonical form by `exec_moves`, INIT lists no slot, and the rest of
a step touches no queue. -/
theorem stepKeepsSlotArraysCanonical : Obligations.StepKeepsSlotArraysCanonical := by
  intro s t hrx htx h
  obtain ⟨u, fetched, ran⟩ := step_cases h
  have hu : ∀ q, (u.queue q).slots.wf := by
    rw [fetched.queue]
    intro q
    cases q with
    | rxq => exact hrx
    | txq => exact htx
  have ht : ∀ q, (t.queue q).slots.wf := by
    rcases ran with ⟨i, e⟩ | ⟨st, n, rfl⟩ | rfl | rfl
    · exact exec_keeps_slots_wf e hu
    · rwa [State.endDecode_queue]
    · rwa [State.answerIllegal, State.answer_queue]
    · exact hu
  exact ⟨ht .rxq, ht .txq⟩

/-! ## The queues of a sound block -/

/-- Both queues are in order. -/
def State.QueuesOk (s : State) : Prop := ∀ q, (s.queue q).Ok s.settings.rtrBit

/-- The DECODE in progress, if there is one, is in order. -/
def State.SessionOk (s : State) : Prop := ∀ d, s.session = some d → d.Ok

theorem State.sound_iff {s : State} : s.Sound ↔ s.QueuesOk ∧ s.phase = .tx ∧ s.SessionOk := by
  constructor
  · rintro ⟨hrx, htx, hp, hd⟩
    refine ⟨fun q => ?_, hp, hd⟩
    cases q with
    | rxq => exact hrx
    | txq => exact htx
  · rintro ⟨hq, hp, hd⟩
    exact ⟨hq .rxq, hq .txq, hp, hd⟩

/-- A queue is in order in a state that has that queue and the same `RTR_BIT`. -/
theorem State.QueuesOk.of_queue_eq {s t : State} (h : s.QueuesOk) (hset : t.settings = s.settings)
    (hq : t.queue = s.queue) : t.QueuesOk := by
  unfold State.QueuesOk
  rw [hset, hq]
  exact h

theorem State.QueuesOk.setQueue {s : State} (h : s.QueuesOk) {id : QueueId} {q : Queue} (hq : q.Ok s.settings.rtrBit) :
    (s.setQueue id q).QueuesOk := by
  intro id'
  rw [State.setQueue_settings]
  by_cases e : id' = id
  · rw [e, State.queue_setQueue_same]; exact hq
  · rw [State.queue_setQueue_other s q e]; exact h id'

/-- An operation that runs where the block is initialised and answers keeps the order of the queues it answers with. -/
theorem State.QueuesOk.answered {s u t : State} {r : Response} (hu : u.QueuesOk)
    (e : s.whenReady (.next (u.answer r)) = .next t) : t.QueuesOk := by
  obtain ⟨_, e⟩ := State.whenReady_next e
  cases e
  exact hu.of_queue_eq rfl (u.answer_queue r)

theorem State.QueuesOk.endDecode {s : State} (h : s.QueuesOk) (st : Status) (n : Nat) : (s.endDecode st n).QueuesOk :=
  h.of_queue_eq (s.endDecode_settings st n) (s.endDecode_queue st n)

/-- Every step of the scheduler keeps both queues in order. -/
theorem Kept.queuesOk {s t : State} (k : Kept s t) (h : s.QueuesOk) : t.QueuesOk := by
  intro q
  rw [k.settings]
  cases q with
  | rxq => exact k.rxq_ok (h .rxq)
  | txq => exact k.txq_ok (h .txq)

/-- A queue none of whose registers may move stays as it is. -/
theorem Moves.queue_eq {W : List Reg} {s t : State} (h : Moves W s t) {q : QueueId} (hhead : .head q ∉ W)
    (hfill : .fill q ∉ W) : t.queue q = s.queue q := by
  have size := h.size q
  have head := h.same _ hhead
  have fill := h.same _ hfill
  simp only [Reg.Same, Prod.mk.injEq] at head fill
  obtain ⟨tail, slots, drop⟩ := fill
  show (⟨(t.queue q).size, (t.queue q).head, (t.queue q).tail, (t.queue q).drop, (t.queue q).slots⟩ : Queue) = _
  rw [size, head, tail, drop, slots]

theorem State.encode_queuesOk {s : State} (h : s.QueuesOk) (id : QueueId) (limit : Nat) :
    (s.encode id limit).2.QueuesOk := by
  rcases State.encode_cases s id limit with ⟨_, e⟩ | ⟨_, e⟩ <;> rw [e]
  · exact h
  · refine (h.setQueue (id := id) (State.batchOf_spec (h id) limit).ok).of_queue_eq rfl ?_
    funext q
    cases q <;> rfl

theorem State.decode_queuesOk {s : State} (h : s.QueuesOk) (id : QueueId) (input : List Byte) :
    (s.decode id input).QueuesOk :=
  (h.setQueue (decodeInput_ok input (h id)).1).endDecode _ _

theorem onRecord_queuesOk {f : SigFrame} {s t : State} (e : onRecord f s = .next t) (h : s.QueuesOk) : t.QueuesOk := by
  have withSession (d : Option Session) {u : State} (hu : u.QueuesOk) : ({ u with session := d } : State).QueuesOk :=
    hu.of_queue_eq rfl (by funext q; cases q <;> rfl)
  obtain ⟨d, count, index, _, _, rfl | ⟨ok, rfl⟩⟩ := onRecord_next e
  · exact (withSession none h).endDecode _ _
  · have offered : (s.setQueue .txq (s.txq.offer f).2).QueuesOk := h.setQueue ((h .txq).offer ok)
    rcases s.acceptRecord_cases d count index f with ⟨st, _, n, e⟩ | ⟨_, e⟩ <;> rw [e]
    · exact (withSession none offered).endDecode st n
    · exact withSession _ offered

/-- Every instruction other than INIT keeps both queues in order: those that fill or empty a queue keep it in order, and
the others touch none. -/
theorem exec_queuesOk {i : Instr} {s t : State} (e : exec i s = .next t) (hi : ∀ c, i ≠ .init c) (h : s.QueuesOk) :
    t.QueuesOk := by
  have moves := exec_moves e hi
  cases i with
  | init c => exact absurd rfl (hi c)
  | recClassicData | recClassicRtr | recFdData | recFdRtr => exact onRecord_queuesOk e h
  | enq q f => exact (h.setQueue ((Queue.enqueue_kept _ _ f).2.2 (h q))).answered e
  | deq q =>
    obtain ⟨_, e⟩ := State.whenReady_next e
    split at e <;> cases e
    · exact h.of_queue_eq rfl (State.answer_queue _ _)
    · rename_i nonempty
      exact (h.setQueue ((h q).pop (by simpa using nonempty))).of_queue_eq rfl (State.answer_queue _ _)
  | encode q m => exact (State.encode_queuesOk h q m.toNat).answered e
  | decode q input =>
    obtain ⟨_, e⟩ := State.whenReady_next e
    split at e <;> cases e
    exact State.decode_queuesOk h q input
  | txstep => exact (s.txStep_kept.queuesOk h).answered e
  | rxstep => exact (s.rxStep_kept.queuesOk h).answered e
  | flush => exact (s.flushStep_kept.queuesOk h).answered e
  | tick => exact (s.tickStep_kept.queuesOk h).answered e
  | _ => exact h.of_queue_eq moves.settings (funext fun q => moves.queue_eq (by simp [writes]) (by simp [writes]))

/-! ## The DECODE in progress -/

theorem State.endDecode_sessionOk {s : State} (h : s.session = none) (st : Status) (n : Nat) :
    (s.endDecode st n).SessionOk := by
  intro d hd
  simp [h] at hd

/-- A header starts the loop before its first record, of which there is one as `count` is not 0 (43_decode.md R151). -/
theorem onHeader_sessionOk {h : Header} {s t : State} (e : onHeader h s = .next t) (ok : s.SessionOk) : t.SessionOk := by
  obtain ⟨d, hd, stage, rfl⟩ := onHeader_next e
  rcases s.acceptHeader_cases d h with ⟨st, _, e⟩ | ⟨count, e⟩ <;> rw [e]
  · exact State.endDecode_sessionOk rfl _ _
  · rintro d' ⟨⟩
    obtain ⟨cursor, bounded, enqueued⟩ := ok d hd
    rw [stage] at enqueued
    have positive : 0 < h.count.toNat := Nat.pos_of_ne_zero fun z => count (BitVec.eq_of_toNat_eq (by simpa using z))
    exact ⟨cursor, bounded, positive, enqueued⟩

/-- A record that is not the last leaves the loop at the next one, with one more frame enqueued (43_decode.md R159). -/
theorem onRecord_sessionOk {f : SigFrame} {s t : State} (e : onRecord f s = .next t) (ok : s.SessionOk) : t.SessionOk := by
  obtain ⟨d, count, index, hd, stage, rfl | ⟨_, rfl⟩⟩ := onRecord_next e
  · exact State.endDecode_sessionOk rfl _ _
  · rcases s.acceptRecord_cases d count index f with ⟨st, _, n, e⟩ | ⟨more, e⟩ <;> rw [e]
    · exact State.endDecode_sessionOk rfl _ _
    · rintro d' ⟨⟩
      obtain ⟨cursor, bounded, loop⟩ := ok d hd
      rw [stage] at loop
      exact ⟨cursor, bounded, more, congrArg (· + 1) loop.2⟩

/-- Every instruction other than INIT keeps the DECODE in progress in order: only the wire rows touch it. -/
theorem exec_sessionOk {i : Instr} {s t : State} (e : exec i s = .next t) (hi : ∀ c, i ≠ .init c) (ok : s.SessionOk) :
    t.SessionOk := by
  have moves := exec_moves e hi
  by_cases hw : .session ∈ writes s.settings.discipline i
  · rcases session_mem_writes hw with format | format
    · obtain ⟨h, e'⟩ := exec_of_header format
      exact onHeader_sessionOk (e' ▸ e) ok
    · obtain ⟨f, e'⟩ := exec_of_record format
      exact onRecord_sessionOk (e' ▸ e) ok
  · intro d hd
    exact ok d ((moves.same .session hw).symm.trans hd)

/-! ## The invariant -/

theorem State.initWith_sound {s : State} {c : InitOperand} (hs : s.session = none) (hrx : 2 ≤ c.nRx.toNat)
    (htx : 2 ≤ c.nTx.toNat) : ((s.initWith c).answer .done).Sound :=
  ⟨Queue.fresh_ok _ hrx, Queue.fresh_ok _ htx, rfl, fun d hd => nomatch hs.symm.trans (show s.session = some d from hd)⟩

theorem exec_keeps_inv {i : Instr} {s t : State} (e : exec i s = .next t) (h : s.Inv) : t.Inv := by
  intro ready
  by_cases hi : ∃ c, i = .init c
  · obtain ⟨c, rfl⟩ := hi
    obtain ⟨hs, hrx, htx, rfl⟩ := exec_init_eq_next_iff.1 e
    exact State.initWith_sound hs hrx htx
  · have hi : ∀ c, i ≠ .init c := fun c hc => hi ⟨c, hc⟩
    have moves := exec_moves e hi
    obtain ⟨queues, phase, session⟩ := State.sound_iff.1 (h (moves.ready ▸ ready))
    exact State.sound_iff.2 ⟨exec_queuesOk e hi queues,
      Eq.trans (moves.same .phase (phase_not_mem_writes _ i)) phase, exec_sessionOk e hi session⟩

/-- What leaves the queues, the configuration and `PHASE` and keeps the DECODE in progress in order keeps the invariant. -/
theorem State.Inv.of_same {s t : State} (h : s.Inv) (hready : t.ready = s.ready) (hset : t.settings = s.settings)
    (hq : t.queue = s.queue) (hphase : t.phase = s.phase) (hsession : s.SessionOk → t.SessionOk) : t.Inv := by
  intro ready
  obtain ⟨queues, phase, session⟩ := State.sound_iff.1 (h (hready ▸ ready))
  exact State.sound_iff.2 ⟨queues.of_queue_eq hset hq, hphase.trans phase, hsession session⟩

theorem Fetches.inv {s u : State} (f : Fetches s u) (h : s.Inv) : u.Inv :=
  h.of_same (by rw [f.same]) (by rw [f.same]) f.queue (by rw [f.same]) f.session_ok

/-- Settles O55: the fetch keeps the invariant, every instruction does, and the rest of a step only answers. -/
theorem stepKeepsTheBlockSound : Obligations.StepKeepsTheBlockSound := by
  intro s t h e
  obtain ⟨u, fetched, ran⟩ := step_cases e
  have hu := fetched.inv h
  rcases ran with ⟨i, e⟩ | ⟨st, n, rfl⟩ | rfl | rfl
  · exact exec_keeps_inv e hu
  · exact hu.of_same (by simp) (by simp) (by simp) (by simp) fun ok d hd => ok d (by simpa using hd)
  · exact hu.of_same rfl rfl (State.answer_queue _ _) rfl id
  · exact hu

end Sys2Proof.Machine
end

section
/-! The network-receive agent at a boundary (O45), what only adds frames to a queue (O20), and the step that runs a command of
the request port (O51). -/

namespace Sys2Proof.Machine

/-! ## The boundary -/

/-- Settles O45: `State.cutIn_netOnly` is this frame, and under `cooperative` a boundary is no step at all. -/
theorem cutInIsOnlyTheOtherAgent : Obligations.CutInIsOnlyTheOtherAgent := by
  intro s ok
  have net := s.cutIn_netOnly
  exact ⟨net.same, net.head, net.size, net.content ok, State.cutIn_cooperative⟩

/-! ## Adding to a queue -/

/-- From `s` to `t` the queue `id`, if it was in order, has only gained frames at its end (20_memory.md R63): the content of
`t` begins with that of `s`. -/
structure Adds (id : QueueId) (s t : State) : Prop where
  settings : t.settings = s.settings
  ready : t.ready = s.ready
  ok : (s.queue id).Ok s.settings.rtrBit → (t.queue id).Ok s.settings.rtrBit
  content : (s.queue id).Ok s.settings.rtrBit →
    (s.queue id).content s.settings.rtrBit <+: (t.queue id).content s.settings.rtrBit

theorem Adds.trans {id : QueueId} {s t u : State} (h1 : Adds id s t) (h2 : Adds id t u) : Adds id s u where
  settings := h2.settings.trans h1.settings
  ready := h2.ready.trans h1.ready
  ok h := by
    have later := h2.ok
    rw [h1.settings] at later
    exact later (h1.ok h)
  content h := by
    have later := h2.content
    rw [h1.settings] at later
    exact (h1.content h).trans (later (h1.ok h))

theorem Adds.of_queue_eq {id : QueueId} {s t : State} (hset : t.settings = s.settings) (hready : t.ready = s.ready)
    (hq : t.queue id = s.queue id) : Adds id s t :=
  ⟨hset, hready, by rw [hq]; exact fun h => h, fun _ => by rw [hq]⟩

theorem Adds.refl (id : QueueId) (s : State) : Adds id s s := .of_queue_eq rfl rfl rfl

/-- What moves no register of a queue adds nothing to it. -/
theorem Moves.adds {W : List Reg} {s t : State} (h : Moves W s t) {id : QueueId} (hhead : .head id ∉ W)
    (hfill : .fill id ∉ W) : Adds id s t :=
  .of_queue_eq h.settings h.ready (h.queue_eq hhead hfill)

/-- Replacing one queue by itself with frames added at its end adds to either queue. -/
theorem State.setQueue_adds {s : State} {id' : QueueId} {q : Queue}
    (hok : (s.queue id').Ok s.settings.rtrBit → q.Ok s.settings.rtrBit)
    (hcontent : (s.queue id').Ok s.settings.rtrBit →
      (s.queue id').content s.settings.rtrBit <+: q.content s.settings.rtrBit) (id : QueueId) :
    Adds id s (s.setQueue id' q) := by
  by_cases same : id = id'
  · subst same
    exact ⟨s.setQueue_settings id q, s.setQueue_ready id q, by rwa [State.queue_setQueue_same],
      by rwa [State.queue_setQueue_same]⟩
  · exact .of_queue_eq (s.setQueue_settings id' q) (s.setQueue_ready id' q) (s.queue_setQueue_other q same)

/-! ## What adds -/

/-- A refused frame changes no content, a published one stands at the end (41_queue.md R111). -/
theorem Queue.Ok.content_prefix_offer {rtr : Fin 32} {q : Queue} (h : q.Ok rtr) (f : SigFrame) :
    q.content rtr <+: (q.offer f).2.content rtr := by
  rcases Queue.offer_cases q f with ⟨_, e⟩ | ⟨notFull, e⟩
  · rw [e]
    exact List.prefix_rfl
  · rw [e]
    exact ⟨[f], (Queue.content_publish rtr f h.head_lt h.tail_lt notFull).symm⟩

theorem Queue.Ok.content_prefix_enqueue {rtr : Fin 32} {q : Queue} (h : q.Ok rtr) (f : Frame) :
    q.content rtr <+: (q.enqueue rtr f).2.content rtr := by
  rcases Queue.enqueue_cases rtr q f with ⟨_, e⟩ | ⟨_, e⟩
  · rw [e]
  · rw [e]
    exact h.content_prefix_offer _

theorem State.enqueue_adds (s : State) (id' : QueueId) (f : Frame) (id : QueueId) :
    Adds id s (s.setQueue id' ((s.queue id').enqueue s.settings.rtrBit f).2) :=
  State.setQueue_adds (Queue.enqueue_kept _ _ f).2.2 (fun h => h.content_prefix_enqueue f) id

theorem State.decode_adds (s : State) (id' : QueueId) (input : List Byte) (id : QueueId) :
    Adds id s (s.decode id' input) := by
  have filled : Adds id s (s.setQueue id' (decodeInput s.settings input (s.queue id')).2.2) :=
    State.setQueue_adds (fun h => (decodeInput_ok input h).1) (fun h => by
      obtain ⟨_, _, _, fs, hfs⟩ := decodeInput_ok input h
      exact ⟨fs, hfs.symm⟩) id
  exact filled.trans (.of_queue_eq (by simp [State.decode]) (by simp [State.decode]) (by simp [State.decode]))

/-- The network-receive agent adds to TXQ and leaves RXQ alone (20_memory.md R62). -/
theorem NetOnly.adds {s t : State} (h : NetOnly s t) (id : QueueId) : Adds id s t := by
  cases id with
  | rxq => exact .of_queue_eq h.settings h.ready h.rxq
  | txq =>
    refine ⟨h.settings, h.ready, h.ok, fun ok => ?_⟩
    obtain ⟨fs, hfs⟩ := h.content ok
    exact ⟨fs, hfs.symm⟩

theorem State.enqueueAll_adds (s : State) (fs : List Frame) (id : QueueId) : Adds id s (s.enqueueAll fs) := by
  induction fs generalizing s with
  | nil => exact .refl id s
  | cons f fs ih => exact ((s.enqueue_adds .rxq f id).trans ((State.cutIn_netOnly _).adds id)).trans (ih _)

/-- RXSTEP is the producer of RXQ, and what cuts into it is that of TXQ (44_scheduler.md R187). -/
theorem State.rxStep_adds (s : State) (id : QueueId) : Adds id s s.rxStep := by
  unfold State.rxStep
  split
  · exact .refl id s
  · have drawn : Adds id s s.drawBusFrames.2 := s.drawBusFrames_moves.adds (by simp) (by simp)
    have polled := drawn.trans ((State.emit_moves _ (.polled s.drawBusFrames.1)).adds (by simp) (by simp))
    exact polled.trans (State.enqueueAll_adds _ _ id)

/-- FLUSH takes from RXQ only; what cuts into it adds to TXQ (44_scheduler.md R188). -/
theorem State.flushLoop_adds_txq (s : State) (fuel : Nat) : Adds .txq s (s.flushLoop fuel) := by
  induction fuel generalizing s with
  | zero => exact .refl .txq s
  | succ fuel ih =>
    have drawn : Adds .txq s s.drawBufAvail.2 := s.drawBufAvail_moves.adds (by simp) (by simp)
    have encoded := fun m => drawn.trans ((State.encode_moves _ .rxq m).adds (by simp) (by simp))
    have sent := fun m bs => (encoded m).trans ((State.emit_moves _ (.send bs)).adds (by simp) (by simp))
    simp only [State.flushLoop]
    split
    · exact .refl .txq s
    · split
      · exact drawn.trans ((State.count_moves _ .allocationFailure).adds (by simp) (by simp))
      · split
        · exact encoded _
        · exact ((sent _ _).trans ((State.cutIn_netOnly _).adds .txq)).trans (ih _)

/-- A record of the DECODE in progress is offered to TXQ (43_decode.md R158). -/
theorem onRecord_adds {f : SigFrame} {s t : State} (e : onRecord f s = .next t) (id : QueueId) : Adds id s t := by
  obtain ⟨d, count, index, _, _, rfl | ⟨ok, rfl⟩⟩ := onRecord_next e
  · exact ((s.setSession_moves none).adds (by simp) (by simp)).trans
      ((State.endDecode_moves _ (by decide) _).adds (by simp) (by simp))
  · have offered : Adds id s (s.setQueue .txq (s.txq.offer f).2) :=
      State.setQueue_adds (fun h => h.offer ok) (fun h => h.content_prefix_offer f) id
    have after := fun d => offered.trans ((State.setSession_moves _ d).adds (by simp) (by simp))
    rcases s.acceptRecord_cases d count index f with ⟨st, hst, n, e⟩ | ⟨_, e⟩ <;> rw [e]
    · exact (after none).trans ((State.endDecode_moves _ hst n).adds (by simp) (by simp))
    · exact after _

/-! ## Instructions that do not dequeue -/

theorem head_not_mem_writes {d : Discipline} {id : QueueId} {i : Instr} (h : dequeues id i = false) :
    .head id ∉ writes d i := by
  intro mem
  rcases head_mem_writes mem with rfl | ⟨m, rfl⟩ | ⟨rfl, rfl⟩ | ⟨rfl, rfl⟩ | rfl <;> simp [dequeues] at h

/-- An instruction that dequeues nothing from a queue adds to it: it is a producer of that queue, or touches none of its
registers (10_state.md R27). -/
theorem exec_adds {i : Instr} {s t : State} {id : QueueId} (e : exec i s = .next t) (h : dequeues id i = false) :
    Adds id s t := by
  have moves := exec_moves e (by rintro c rfl; cases h)
  by_cases fills : .fill id ∈ writes s.settings.discipline i
  case neg => exact moves.adds (head_not_mem_writes h) fills
  have answered {u : State} {r : Response} (hu : Adds id s u) (e : s.whenReady (.next (u.answer r)) = .next t) :
      Adds id s t := by
    obtain ⟨_, e⟩ := State.whenReady_next e
    cases e
    exact hu.trans ((u.answer_moves r).adds (by simp) (by simp))
  have rxstep (e : exec .rxstep s = .next t) : Adds id s t := answered (s.rxStep_adds id) e
  rcases fill_mem_writes fills with ⟨f, rfl⟩ | ⟨input, rfl⟩ | ⟨rfl, rfl | rfl⟩ | ⟨rfl, record | ⟨_, step⟩⟩
  · exact answered (s.enqueue_adds id f id) e
  · obtain ⟨_, e⟩ := State.whenReady_next e
    split at e <;> cases e
    exact s.decode_adds id input id
  · exact rxstep e
  · cases h
  · obtain ⟨f, onRec⟩ := exec_of_record record
    exact onRecord_adds (onRec ▸ e) .txq
  · simp only [List.mem_cons, List.not_mem_nil, or_false] at step
    rcases step with rfl | rfl | rfl | rfl
    · cases h
    · exact rxstep e
    · exact answered (s.flushLoop_adds_txq _) e
    · cases h

theorem execAll_cons {i : Instr} {is : List Instr} {s u : State} (h : execAll (i :: is) s = some u) :
    ∃ t, exec i s = .next t ∧ execAll is t = some u := by
  simp only [execAll] at h
  split at h
  · exact ⟨_, ‹_›, h⟩
  · cases h
  · cases h

/-- So does any run of such instructions. -/
theorem execAll_adds {is : List Instr} {s u : State} {id : QueueId} (h : execAll is s = some u)
    (hd : ∀ i ∈ is, dequeues id i = false) : Adds id s u := by
  induction is generalizing s with
  | nil => exact Option.some.inj h ▸ .refl id s
  | cons i is ih =>
    obtain ⟨t, first, later⟩ := execAll_cons h
    obtain ⟨hi, his⟩ := List.forall_mem_cons.1 hd
    exact (exec_adds first hi).trans (ih later his)

/-! ## PEEK, then DEQ -/

/-- The oldest frame stays the oldest while frames are only added (20_memory.md R63). -/
theorem Adds.front_eq {id : QueueId} {s t : State} (h : Adds id s t) (ok : (s.queue id).Ok s.settings.rtrBit)
    (nonempty : (s.queue id).isEmpty = false) :
    (t.queue id).isEmpty = false ∧ (t.queue id).front s.settings.rtrBit = (s.queue id).front s.settings.rtrBit := by
  have ok' := h.ok ok
  have pre := h.content ok
  rw [Queue.content_pop _ ok.head_lt ok.tail_lt nonempty] at pre
  cases empty : (t.queue id).isEmpty with
  | true =>
    rw [Queue.content_empty _ ok'.head_lt ok'.tail_lt empty] at pre
    exact absurd (List.prefix_nil.1 pre) (List.cons_ne_nil _ _)
  | false =>
    rw [Queue.content_pop _ ok'.head_lt ok'.tail_lt empty] at pre
    exact ⟨rfl, (List.cons_prefix_cons.1 pre).1.symm⟩

theorem Queue.Ok.front_ok {rtr : Fin 32} {q : Queue} (h : q.Ok rtr) (nonempty : q.isEmpty = false) :
    (q.front rtr).ok rtr = true :=
  h.content_ok _ (by rw [Queue.content_pop rtr h.head_lt h.tail_lt nonempty]; exact List.mem_cons_self)

/-- PEEK of a queue that is not empty answers the frame at `head` (41_queue.md R114). -/
theorem exec_peek_nonempty {id : QueueId} {s : State} (ready : s.ready = true) (nonempty : (s.queue id).isEmpty = false) :
    exec (.peek id) s = .next (s.drawn.answer
      (.frame .ok (((s.queue id).front s.settings.rtrBit).toFrame s.freeFrame))) := by
  show execPeek id s = _
  simp [execPeek, State.whenReady_ready ready, nonempty]

/-- DEQ of a queue that is not empty answers the frame at `head` and takes it (41_queue.md R113). -/
theorem exec_deq_nonempty {id : QueueId} {s : State} (ready : s.ready = true) (nonempty : (s.queue id).isEmpty = false) :
    ∃ t, exec (.deq id) s = .next t ∧ t.queue id = (s.queue id).pop ∧ t.events = s.events ++
      [.response (.frame .ok (((s.queue id).front s.settings.rtrBit).toFrame s.freeFrame))] := by
  have runs : exec (.deq id) s = .next ((s.setQueue id (s.queue id).pop).drawn.answer
      (.frame .ok (((s.queue id).front s.settings.rtrBit).toFrame s.freeFrame))) := by
    show execDeq id s = _
    simp [execDeq, State.whenReady_ready ready, nonempty]
  exact ⟨_, runs, State.queue_setQueue_same s id _, by simp⟩

/-- Settles O20: PEEK and the instructions after it only add to the queue, so PEEK and DEQ read one slot content, and both
Frames carry its significant fields. -/
theorem peekThenDeqIsStable : Obligations.PeekThenDeqIsStable := by
  intro s p u q is ready ok nonempty hd peek run
  have adds : Adds q s u := (exec_adds peek rfl).trans (execAll_adds run hd)
  obtain ⟨nonempty', front⟩ := adds.front_eq ok nonempty
  rw [exec_peek_nonempty ready nonempty] at peek
  cases peek
  obtain ⟨v, deq, _, answered⟩ := exec_deq_nonempty (adds.ready.trans ready) nonempty'
  refine ⟨_, _, v, rfl, deq, answered, ?_⟩
  have frontOk := ok.front_ok nonempty
  rw [adds.settings, front, Frame.sigEq_iff, SigFrame.toFrame_sig frontOk, SigFrame.toFrame_sig frontOk]

/-! ## A command of the request port -/

/-- A complete command of the request port is run at the state without its bytes (30_encoding.md R85). -/
theorem State.fetchCommand_of_decode {s : State} {i : Instr} {rest : List Byte}
    (h : decodeCommand s.request = .ok (i, rest)) : s.fetchCommand = .run i { s with request := rest } := by
  unfold State.fetchCommand
  rw [h]

/-- The turn of the tick agent is the request port's (60_exceptions.md R204; log 11). -/
theorem State.fetch_of_tick {s : State} {ts : List Agent} (closed : s.session = none) (turns : s.turns = .tick :: ts) :
    s.fetch = { s with turns := ts }.fetchCommand := by
  simp only [State.fetch, closed, turns]

/-- With no turn left the request port goes first (log 11). -/
theorem State.fetch_of_no_turn {s : State} (closed : s.session = none) (turns : s.turns = []) :
    s.fetch = s.fetchUnscheduled := by
  simp only [State.fetch, closed, turns]

/-- Where the turn is not the network-receive agent's, the fetch takes the command of the request port. -/
theorem State.fetch_of_command {s : State} {i : Instr} {rest : List Byte} (closed : s.session = none)
    (turn : s.turns.head? ≠ some .net) (h : decodeCommand s.request = .ok (i, rest)) :
    s.fetch = .run i { s with request := rest, turns := s.turns.tail } := by
  cases turns : s.turns with
  | nil =>
    rw [State.fetch_of_no_turn closed turns, State.fetchUnscheduled, State.fetchCommand_of_decode h]
    simp [turns]
  | cons a ts =>
    cases a with
    | net => simp [turns] at turn
    | tick =>
      rw [State.fetch_of_tick closed turns]
      exact State.fetchCommand_of_decode (s := { s with turns := ts }) h

/-- Settles O51: the step runs what the fetch finds. -/
theorem stepRunsTheDecodedCommand : Obligations.StepRunsTheDecodedCommand := by
  intro s i rest closed turn h
  unfold step
  rw [State.fetch_of_command closed turn h]

end Sys2Proof.Machine
end

section
/-! The header rows and the record rows: their bytes (O3, O4, O5) and what they do to an open DECODE (O30, O31). -/

namespace Sys2Proof

/-! ## Header rows -/

/-- The header that a header row stands for (30_encoding.md R76); nothing for another row. -/
def headerOf : Instr → Option Header
  | .hdrData v s c => some ⟨v, Config.opData, s, c⟩
  | .hdrAck v s c => some ⟨v, Config.opAck, s, c⟩
  | .hdrNack v s c => some ⟨v, Config.opNack, s, c⟩
  | .hdrReserved o v s c => some ⟨v, o, s, c⟩
  | _ => none

theorem exists_headerOf {i : Instr} (hi : instrFormat i = .header) : ∃ h, headerOf i = some h := by
  cases i with
  | hdrData | hdrAck | hdrNack | hdrReserved => exact ⟨_, rfl⟩
  | _ => cases hi

theorem encode_of_headerOf {i : Instr} {h : Header} (hi : headerOf i = some h) : encode i = headerBytes h := by
  cases i with
  | hdrData | hdrAck | hdrNack | hdrReserved => cases hi; rfl
  | _ => cases hi

/-- The `op_code` of a header says which of the four rows it is: the reserved row of 0, 1 or 2 is ill-formed
(30_encoding.md R76). -/
theorem headerInstr_of_headerOf {rtr : Fin 32} {i : Instr} {h : Header} (wf : WellFormed rtr i = true)
    (hi : headerOf i = some h) : headerInstr h = i := by
  cases i with
  | hdrData | hdrAck | hdrNack => cases hi; rfl
  | hdrReserved op v s c =>
    cases hi
    have three_le : 3 ≤ op.toNat := of_decide_eq_true wf
    have notData : op ≠ Config.opData := by rintro rfl; exact absurd three_le (by decide)
    have notAck : op ≠ Config.opAck := by rintro rfl; exact absurd three_le (by decide)
    have notNack : op ≠ Config.opNack := by rintro rfl; exact absurd three_le (by decide)
    simp only [headerInstr, if_neg notData, if_neg notAck, if_neg notNack]
  | _ => cases hi

/-- Settles O3: every header row has the bytes of its header, and the header names the row. -/
theorem headerDecodesFromItsBytes : Obligations.HeaderDecodesFromItsBytes := by
  intro rtr i rest wf format
  obtain ⟨h, hi⟩ := exists_headerOf format
  exact ⟨h, by rw [encode_of_headerOf hi, readHeader_bytes], headerInstr_of_headerOf wf hi⟩

/-! ## Record rows -/

theorem exists_recordOf {i : Instr} (hi : instrFormat i = .record) : ∃ f, recordOf i = some f := by
  cases i with
  | recClassicData | recClassicRtr | recFdData | recFdRtr => exact ⟨_, rfl⟩
  | _ => cases hi

theorem encode_of_recordOf {i : Instr} {f : SigFrame} (hi : recordOf i = some f) : encode i = f.record := by
  cases i with
  | recClassicData | recClassicRtr | recFdData | recFdRtr => cases hi; rfl
  | _ => cases hi

theorem getLsbD_eq_idRtr (rtr : Fin 32) (id : Word32) : id.getLsbD rtr = idRtr rtr id := rfl

/-- A record row is well-formed exactly where it carries the significant fields of a well-formed Frame and is the row that
their two selector bits name (30_encoding.md R73). -/
theorem wellFormed_iff_of_recordOf {rtr : Fin 32} {i : Instr} {f : SigFrame} (hi : recordOf i = some f) :
    WellFormed rtr i = true ↔ f.ok rtr = true ∧ recordInstr rtr f = i := by
  cases i with
  | recClassicData id eff | recFdData id eff | recClassicRtr id eff | recFdRtr id eff =>
    cases hi
    simp only [WellFormed, getLsbD_eq_idRtr, SigFrame.ok_iff, recordInstr, lengthEff_byte, lengthFd_byte]
    cases idRtr rtr id <;> simp
  | _ => cases hi

/-- The row of a record carries the record's significant fields. -/
theorem recordOf_recordInstr {rtr : Fin 32} {f : SigFrame} (ok : f.ok rtr = true) :
    recordOf (recordInstr rtr f) = some f := by
  obtain ⟨-, hflags, hpayload⟩ := SigFrame.ok_iff.1 ok
  obtain ⟨id, length, flags, payload⟩ := f
  have fields : lengthByte flags.isSome (lengthEff length) = length := by
    rw [show flags.isSome = lengthFd length from hflags, lengthByte_fields]
  have noData : idRtr rtr id = true → [] = payload := fun h =>
    (List.eq_nil_of_length_eq_zero (hpayload.trans (if_pos h))).symm
  unfold recordInstr
  cases flags <;> cases rtrBit : idRtr rtr id
  case none.false | some.false => simpa [recordOf] using fields
  case none.true | some.true => simpa [recordOf] using And.intro fields (noData rtrBit)

/-- Settles O4: every record row has the bytes of the record it carries, and reads back as in `readRecord_record`. -/
theorem recordDecodesFromItsBytes : Obligations.RecordDecodesFromItsBytes := by
  intro rtr i rest wf format
  obtain ⟨f, hi⟩ := exists_recordOf format
  obtain ⟨ok, row⟩ := (wellFormed_iff_of_recordOf hi).1 wf
  exact ⟨f, by rw [encode_of_recordOf hi, readRecord_record ok], row, hi⟩

/-- Settles O5: a record that was read is well-formed and stands at the front of the input (`readRecord_ok`), and its row
carries it. -/
theorem recordBytesHaveOneMeaning : Obligations.RecordBytesHaveOneMeaning := by
  intro rtr bs rest f read
  obtain ⟨ok, front⟩ := readRecord_ok read
  have row := recordOf_recordInstr ok
  exact ⟨(wellFormed_iff_of_recordOf row).2 ⟨ok, rfl⟩, by rw [encode_of_recordOf row, front]⟩

end Sys2Proof

namespace Sys2Proof.Machine

/-! ## The end of a DECODE -/

theorem State.endDecode_eq_plus (s : State) (st : Status) (n : Nat) :
    s.endDecode st n = (s.count st).plus (decodeEvents st n) := by
  simp [State.endDecode, State.answer, State.emit, State.plus, decodeEvents]

/-! ## The four header checks -/

theorem checkHeader_version {version : Byte} {h : Header} (wrong : h.version ≠ version) :
    checkHeader version h = some .versionMismatch :=
  if_pos wrong

theorem checkHeader_opCode {h : Header} (wrong : h.opCode ≠ 0) :
    checkHeader h.version h = some .unsupportedOpCode := by
  rw [checkHeader, if_neg (not_not.2 rfl), if_pos (by exact wrong)]

theorem checkHeader_noRecord {version seq : Byte} :
    checkHeader version ⟨version, Config.opData, seq, 0⟩ = some .malformed := by
  simp [checkHeader]

theorem checkHeader_good {version seq : Byte} {count : Word16} (good : count ≠ 0) :
    checkHeader version ⟨version, Config.opData, seq, count⟩ = none := by
  rw [checkHeader, if_neg (not_not.2 rfl), if_neg (not_not.2 rfl), if_neg good]

/-- A header with a failing check closes the DECODE that stands before it with the status of the check. -/
theorem onHeader_of_checkHeader_some {s : State} {total n : Nat} {rest : List Byte} {h : Header} {st : Status}
    (ready : s.ready = true) (atHeader : s.session = some ⟨total, rest, .header, n⟩)
    (fails : checkHeader s.settings.version h = some st) :
    onHeader h s = .next ({ s with session := none }.endDecode st n) := by
  simp only [onHeader, atHeader, State.whenReady_ready ready, State.acceptHeader, fails]

/-- A header that passes its checks opens the loop of the DECODE that stands before it. -/
theorem onHeader_of_checkHeader_none {s : State} {total n : Nat} {rest : List Byte} {h : Header} (ready : s.ready = true)
    (atHeader : s.session = some ⟨total, rest, .header, n⟩) (passes : checkHeader s.settings.version h = none) :
    onHeader h s = .next { s with session := some ⟨total, rest, .records h.count.toNat 0, n⟩ } := by
  simp only [onHeader, atHeader, State.whenReady_ready ready, State.acceptHeader, passes]

/-- Settles O30: the four rows are `onHeader` of their headers, and each clause is one outcome of `checkHeader`. -/
theorem headerRowsCheckTheOpenDecode : Obligations.HeaderRowsCheckTheOpenDecode := by
  intro s total n rest op v seq count ready atHeader closed wrongVersion wrongOpCode
  have version {h : Header} (wrong : h.version ≠ s.settings.version) : onHeader h s = .next wrongVersion := by
    rw [onHeader_of_checkHeader_some ready atHeader (checkHeader_version wrong), State.endDecode_eq_plus]
    rfl
  refine ⟨fun wrong => ⟨version wrong, version wrong, version wrong, version wrong⟩, ?_⟩
  rintro rfl
  have opCode {o : Byte} (wrong : o ≠ 0) : onHeader ⟨s.settings.version, o, seq, count⟩ s = .next wrongOpCode := by
    rw [onHeader_of_checkHeader_some ready atHeader (checkHeader_opCode wrong), State.endDecode_eq_plus]
    rfl
  refine ⟨opCode (by decide), opCode (by decide), fun wrong => opCode wrong, ?noRecord, fun good =>
    onHeader_of_checkHeader_none ready atHeader (checkHeader_good good)⟩
  case noRecord =>
    rintro rfl
    show onHeader _ s = _
    rw [onHeader_of_checkHeader_some ready atHeader checkHeader_noRecord, State.endDecode_eq_plus]
    rfl

/-! ## The records of an open DECODE -/

theorem exec_of_recordOf {i : Instr} {f : SigFrame} (hi : recordOf i = some f) : exec i = onRecord f := by
  cases i with
  | recClassicData | recClassicRtr | recFdData | recFdRtr => cases hi; rfl
  | _ => cases hi

/-- A well-formed record is one turn of the loop of the DECODE that stands at it. -/
theorem onRecord_of_ok {s : State} {total n count index : Nat} {rest : List Byte} {f : SigFrame} (ready : s.ready = true)
    (inLoop : s.session = some ⟨total, rest, .records count index, n⟩) (ok : f.ok s.settings.rtrBit = true) :
    onRecord f s = .next (s.acceptRecord ⟨total, rest, .records count index, n⟩ count index f) := by
  have short : ¬ Config.dataCap < (lengthEff f.length).toNat := Nat.not_lt.2 (SigFrame.ok_iff.1 ok).1
  simp only [onRecord, inLoop, State.whenReady_ready ready, if_neg short, if_pos ok]

theorem State.acceptRecord_full {s : State} {d : Session} {count index : Nat} {f : SigFrame}
    (full : s.txq.isFull = true) : s.acceptRecord d count index f =
      ({ s with session := none, txq := { s.txq with drop := s.txq.drop + 1 } }.plus (decodeEvents .full d.enqueued)) := by
  simp only [State.acceptRecord, Queue.offer, full, if_true, State.endDecode_eq_plus]
  rfl

/-- With room the loop goes on to the next record, or the DECODE ends after the last. -/
theorem State.acceptRecord_room {s : State} {d : Session} {count index : Nat} {f : SigFrame}
    (room : s.txq.isFull = false) : s.acceptRecord d count index f =
      if index + 1 < count then
        { s with txq := s.txq.publish f,
                 session := some { d with stage := .records count (index + 1), enqueued := d.enqueued + 1 } }
      else { s with txq := s.txq.publish f, session := none }.plus (decodeEvents .ok (d.enqueued + 1)) := by
  simp only [State.acceptRecord, Queue.offer, room, Bool.false_eq_true, if_false, State.endDecode_eq_plus]
  rfl

/-- Settles O31: the row is `onRecord` of the well-formed record it carries, and TXQ has room for it or has not. -/
theorem recordRowsFeedTheOpenDecode : Obligations.RecordRowsFeedTheOpenDecode := by
  intro s i f total n count index rest ready txqOk format wf hi inLoop
  have ok := ((wellFormed_iff_of_recordOf hi).1 wf).1
  rw [exec_of_recordOf hi, onRecord_of_ok ready inLoop ok]
  refine ⟨fun full => congrArg _ (State.acceptRecord_full full), fun room => ⟨_, rfl, ?_⟩⟩
  have appended := Queue.content_publish s.settings.rtrBit f txqOk.head_lt txqOk.tail_lt room
  rw [State.acceptRecord_room room]
  by_cases more : index + 1 < count
  · rw [if_pos more]
    exact ⟨appended, rfl, rfl, fun _ => rfl, fun last => absurd more (by omega)⟩
  · rw [if_neg more]
    exact ⟨appended, rfl, rfl, fun next => absurd next more, fun _ => rfl⟩

end Sys2Proof.Machine
end

section
/-! The command format: its operands, the round trip between commands and their bytes (O1, O2), words written out by hand
(O6), and the reserved words (O49, O50). -/

namespace Sys2Proof

/-! ## The operands of ENQ and INIT -/

theorem readFrame_bytes (f : Frame) (rest : List Byte) : readFrame (frameBytes f ++ rest) = some (f, rest) := by
  have enough : ¬ (f.data.toList ++ rest).length < Config.dataCap := by
    simp [Config.dataCap]
  have data : (Vector.ofFn fun k => (f.data.toList ++ rest).getD k.val 0) = f.data := by
    apply Vector.ext
    intro k hk
    rw [Vector.getElem_ofFn, List.getD_eq_getElem?_getD, List.getElem?_append_left (by simpa using hk)]
    simp [hk]
  have after : (f.data.toList ++ rest).drop Config.dataCap = rest := List.drop_left' (by simp [Config.dataCap])
  simp only [frameBytes, be32Bytes, List.cons_append, List.nil_append, readFrame, if_neg enough, data, after, be32_bytes]

theorem frameBytes_of_read {bs rest : List Byte} {f : Frame} (e : readFrame bs = some (f, rest)) :
    bs = frameBytes f ++ rest := by
  unfold readFrame at e
  split at e
  · split at e
    · cases e
    · rename_i b0 b1 b2 b3 len fl tail enough
      cases e
      have data : (Vector.ofFn fun k : Fin 64 => tail.getD k.val 0).toList = tail.take Config.dataCap := by
        simp only [Config.dataCap] at enough
        apply List.ext_getElem
        · simp [Config.dataCap]; omega
        · intro k hk _
          simp at hk
          simp [List.getD_eq_getElem?_getD, show k < tail.length by omega]
      simp only [frameBytes, byte_of_be32, List.cons_append, List.nil_append, data, List.take_append_drop]
  · cases e

theorem initFlags_getLsbD (c : InitOperand) (i : Nat) : (initFlags c).getLsbD i =
    if i = 0 then c.discipline == .interruptShared else (decide (i = 1) && c.busAttached) := by
  simp only [initFlags, BitVec.getLsbD_append, BitVec.getLsbD_ofBool]
  rcases i with _ | _ | i
  · rfl
  · rfl
  · simp

/-- The flag byte of INIT gives the two flags, and only the byte whose other bits are zero does (30_encoding.md R85). -/
theorem readInitFlags_eq_some_iff {b : Byte} {c : InitOperand} :
    readInitFlags b = some (c.discipline, c.busAttached) ↔ b = initFlags c := by
  unfold readInitFlags
  constructor
  · intro e
    split at e
    · rename_i high
      simp only [Option.some.injEq, Prod.mk.injEq] at e
      obtain ⟨shared, attached⟩ := e
      apply BitVec.eq_of_getLsbD_eq
      intro i hi
      rw [initFlags_getLsbD]
      rcases i with _ | _ | i
      · rw [← shared]
        cases b.getLsbD 0 <;> rfl
      · rw [← attached]
        rfl
      · have zero := congrArg (BitVec.getLsbD · i) high
        simpa [BitVec.getLsbD_extractLsb', Nat.add_comm 2 i, show i < 6 by omega] using zero
    · cases e
  · rintro rfl
    have high : (initFlags c).extractLsb' 2 6 = 0 := by
      apply BitVec.eq_of_getLsbD_eq
      intro i hi
      simp [initFlags_getLsbD, show 2 + i ≠ 1 by omega]
    rw [if_pos high, initFlags_getLsbD, initFlags_getLsbD]
    cases c.discipline <;> simp

theorem readInit_bytes (c : InitOperand) (rest : List Byte) : readInit (initBytes c ++ rest) = .ok (c, rest) := by
  have small : (BitVec.ofNat 8 c.rtrBit).toNat = c.rtrBit := by
    rw [BitVec.toNat_ofNat]; omega
  have flags := readInitFlags_eq_some_iff.2 (rfl : initFlags c = initFlags c)
  simp only [initBytes, be32Bytes, be16Bytes, List.cons_append, List.nil_append, readInit, small, c.rtrBit.isLt, dite_true,
    flags, and_self, if_true, be32_bytes, be16_bytes]

theorem initBytes_of_read {bs rest : List Byte} {c : InitOperand} (e : readInit bs = .ok (c, rest)) :
    bs = initBytes c ++ rest := by
  unfold readInit at e
  split at e
  · split at e
    · split at e
      · rename_i flags
        split at e
        · rename_i zeros
          obtain ⟨rfl, rfl⟩ := zeros
          cases e
          simp only [initBytes, byte_of_be32, byte_of_be16, BitVec.ofNat_toNat, BitVec.setWidth_eq, List.cons_append,
            List.nil_append, List.cons.injEq, true_and, and_true]
          exact readInitFlags_eq_some_iff.1 flags
        · cases e
      · cases e
    · cases e
  · cases e

/-! ## The command word -/

@[simp] theorem queueOfBit_bitOfQueue (q : QueueId) : queueOfBit (bitOfQueue q) = q := by
  cases q <;> rfl

@[simp] theorem bitOfQueue_queueOfBit (b : Bool) : bitOfQueue (queueOfBit b) = b := by
  cases b <;> rfl

/-- The command word as its `op` and its low four bits, which is how the reserved rows hold it (30_encoding.md R86). -/
theorem commandWord_eq_append (op : BitVec 4) (q : Bool) (k : BitVec 3) :
    commandWord op q k = op ++ (BitVec.ofBool q ++ k) :=
  BitVec.append_assoc

theorem exists_ofBool_append (x : BitVec 4) : ∃ (q : Bool) (k : BitVec 3), x = BitVec.ofBool q ++ k := by
  refine ⟨x.getLsbD 3, x.extractLsb' 0 3, ?_⟩
  apply BitVec.eq_of_getLsbD_eq
  intro i hi
  simp only [BitVec.getLsbD_append, BitVec.getLsbD_ofBool, BitVec.getLsbD_extractLsb']
  split
  · simp [*]
  · obtain rfl : i = 3 := by omega
    rfl

/-- The decoder takes the command word apart into its three fields. -/
theorem decodeCommand_word (op : BitVec 4) (q : Bool) (k : BitVec 3) (rest : List Byte) :
    decodeCommand (commandWord op q k :: rest) = readOperands op q k rest := by
  simp only [decodeCommand, commandWord_op, commandWord_q, commandWord_k]

/-- A word of the four reserved values of `op` is read as the row of that value, whatever its other bits. -/
theorem decodeCommand_append (op x : BitVec 4) (rest : List Byte) :
    ∃ q k, x = BitVec.ofBool q ++ k ∧ decodeCommand ((op ++ x) :: rest) = readOperands op q k rest := by
  obtain ⟨q, k, rfl⟩ := exists_ofBool_append x
  exact ⟨q, k, rfl, by rw [← commandWord_eq_append, decodeCommand_word]⟩

/-! ## From a command to its bytes and back -/

theorem readOperands_rdcnt (k : Fin 7) (rest : List Byte) :
    readOperands 0xB false (BitVec.ofNat 3 k) rest = .ok (.rdcnt k, rest) := by
  have number : (BitVec.ofNat 3 k).toNat = k := by
    rw [BitVec.toNat_ofNat]; omega
  show (if h : (BitVec.ofNat 3 k).toNat < 7 then Except.ok (Instr.rdcnt ⟨_, h⟩, rest) else _) = _
  simp only [number, k.isLt, dite_true]

theorem readOperands_decode {input : List Byte} (short : input.length ≤ 65535) (q : Bool) (rest : List Byte) :
    readOperands 0x6 q 0 (be16Bytes (BitVec.ofNat 16 input.length) ++ input ++ rest) =
      .ok (.decode (queueOfBit q) input, rest) := by
  have length : (BitVec.ofNat 16 input.length).toNat = input.length := by
    rw [BitVec.toNat_ofNat]; omega
  simp [readOperands, be16Bytes, be16_bytes, length]

/-- Settles O1, row by row: the three fields of the word come back (`decodeCommand_word`), then the operands. -/
theorem commandDecodesFromItsBytes : Obligations.CommandDecodesFromItsBytes := by
  intro rtr i rest wf format
  cases i with
  | hdrData | hdrAck | hdrNack | hdrReserved | recClassicData | recClassicRtr | recFdData | recFdRtr => cases format
  | efflen | isfd | isrtr | wiresize | record => cases format
  | deq q | peek q | stat q =>
    simp only [encode, List.cons_append, List.nil_append, decodeCommand_word]
    simp [readOperands]
  | enq q f =>
    simp only [encode, List.cons_append, decodeCommand_word]
    simp [readOperands, readFrame_bytes]
  | encode q m =>
    simp only [encode, List.cons_append, decodeCommand_word]
    simp [readOperands, be16Bytes, be16_bytes]
  | decode q input =>
    simp only [encode, List.cons_append, decodeCommand_word]
    rw [readOperands_decode (of_decide_eq_true wf), queueOfBit_bitOfQueue]
  | txstep | rxstep | flush | tick => exact decodeCommand_word _ _ _ _
  | rdcnt k => exact (decodeCommand_word _ _ _ _).trans (readOperands_rdcnt k rest)
  | init c =>
    simp only [encode, List.cons_append, decodeCommand_word]
    simp [readOperands, readInit_bytes]
  | reservedOp0 x | reservedOpC x | reservedOpD x | reservedOpE x =>
    obtain ⟨q, k, rfl, read⟩ := decodeCommand_append _ x rest
    exact read
  | reservedRdcnt7 => exact decodeCommand_word _ _ _ _

/-- The bytes are those of the command `i`, well-formed for every `RTR_BIT`, and then the rest. -/
structure IsCommand (bs : List Byte) (i : Instr) (rest : List Byte) : Prop where
  wf : ∀ rtr, WellFormed rtr i = true
  format : instrFormat i = .command
  bytes : bs = encode i ++ rest

/-- A check that must not fire: where the whole gives a result, it did not fire and what follows it gave the result. -/
theorem ok_of_check {ε α : Type} {c : Prop} [Decidable c] {e : ε} {r : Except ε α} {a : α}
    (h : (if c then .error e else r) = .ok a) : ¬ c ∧ r = .ok a := by
  split at h
  · cases h
  · exact ⟨‹_›, h⟩

/-- The check on a row that takes a queue: the `k` field is zero (30_encoding.md R86). -/
theorem ok_of_kCheck {α : Type} {k : BitVec 3} {r : Except CommandError α} {a : α}
    (h : (if k ≠ 0 then .error .reserved else r) = .ok a) : k = 0 ∧ r = .ok a :=
  (ok_of_check h).imp not_not.1 id

/-- The check on a row without operands in its word: the `q` and `k` fields are zero (30_encoding.md R86). -/
theorem ok_of_qkCheck {α : Type} {q : Bool} {k : BitVec 3} {r : Except CommandError α} {a : α}
    (h : (if q ∨ k ≠ 0 then .error .reserved else r) = .ok a) : q = false ∧ k = 0 ∧ r = .ok a := by
  obtain ⟨fields, h⟩ := ok_of_check h
  obtain ⟨q0, k0⟩ := not_or.1 fields
  exact ⟨Bool.eq_false_of_not_eq_true q0, not_not.1 k0, h⟩

theorem eq_ofNat_of_toNat {op : BitVec 4} {n : Nat} (h : op.toNat = n) : op = BitVec.ofNat 4 n := by
  rw [← h, BitVec.ofNat_toNat, BitVec.setWidth_eq]

/-- The row of DECODE: its length operand says how many of the bytes that follow are its input (43_decode.md R150). -/
theorem isCommand_decode {q : Bool} {l0 l1 : Byte} {bs : List Byte} (enough : ¬ bs.length < (be16 l0 l1).toNat) :
    IsCommand (commandWord 0x6 q 0 :: l0 :: l1 :: bs)
      (.decode (queueOfBit q) (bs.take (be16 l0 l1).toNat)) (bs.drop (be16 l0 l1).toNat) := by
  have length : (bs.take (be16 l0 l1).toNat).length = (be16 l0 l1).toNat := by
    rw [List.length_take]; omega
  refine ⟨fun _ => decide_eq_true ?_, rfl, ?_⟩
  · rw [length]; omega
  · simp only [encode, bitOfQueue_queueOfBit, length, BitVec.ofNat_toNat, BitVec.setWidth_eq, byte_of_be16,
      List.cons_append, List.nil_append, List.take_append_drop]

/-- The operands that `readOperands` reads are those whose bytes stand there, row by row: the arm `h_1` is `op` 0, the arm
`h_16` is `op` 15. -/
theorem isCommand_of_readOperands {op : BitVec 4} {q : Bool} {k : BitVec 3} {bs rest : List Byte} {i : Instr}
    (e : readOperands op q k bs = .ok (i, rest)) : IsCommand (commandWord op q k :: bs) i rest := by
  unfold readOperands at e
  split at e
  case h_1 row | h_13 row | h_14 row | h_15 row =>
    obtain rfl := eq_ofNat_of_toNat row
    cases e
    exact ⟨fun _ => rfl, rfl, by rw [commandWord_eq_append]; rfl⟩
  case h_2 row =>
    obtain rfl := eq_ofNat_of_toNat row
    obtain ⟨rfl, result⟩ := ok_of_kCheck e
    split at result <;> cases result
    rename_i read
    exact ⟨fun _ => rfl, rfl, by simp [encode, frameBytes_of_read read]⟩
  case h_3 row | h_4 row | h_5 row =>
    obtain rfl := eq_ofNat_of_toNat row
    obtain ⟨rfl, result⟩ := ok_of_kCheck e
    cases result
    exact ⟨fun _ => rfl, rfl, by simp [encode]⟩
  case h_6 row =>
    obtain rfl := eq_ofNat_of_toNat row
    obtain ⟨rfl, result⟩ := ok_of_kCheck e
    split at result <;> cases result
    exact ⟨fun _ => rfl, rfl, by simp [encode, byte_of_be16]⟩
  case h_7 row =>
    obtain rfl := eq_ofNat_of_toNat row
    obtain ⟨rfl, result⟩ := ok_of_kCheck e
    split at result
    · obtain ⟨enough, result⟩ := ok_of_check result
      cases result
      exact isCommand_decode enough
    · cases result
  case h_8 row | h_9 row | h_10 row | h_11 row =>
    obtain rfl := eq_ofNat_of_toNat row
    obtain ⟨rfl, rfl, result⟩ := ok_of_qkCheck e
    cases result
    exact ⟨fun _ => rfl, rfl, rfl⟩
  case h_12 row =>
    obtain rfl := eq_ofNat_of_toNat row
    obtain ⟨q0, result⟩ := ok_of_check e
    obtain rfl := Bool.eq_false_of_not_eq_true q0
    split at result <;> cases result
    · exact ⟨fun _ => rfl, rfl, by simp [encode]⟩
    · rename_i large
      obtain rfl : k = 7 := BitVec.eq_of_toNat_eq (by simp; omega)
      exact ⟨fun _ => rfl, rfl, rfl⟩
  case h_16 =>
    have row : op.toNat = 15 := by
      have bound := op.isLt
      clear e
      grind
    obtain rfl := eq_ofNat_of_toNat row
    obtain ⟨rfl, rfl, result⟩ := ok_of_qkCheck e
    split at result <;> cases result
    rename_i read
    exact ⟨fun _ => rfl, rfl, by simp [encode, initBytes_of_read read]⟩

theorem isCommand_of_decodeCommand {bs rest : List Byte} {i : Instr} (e : decodeCommand bs = .ok (i, rest)) :
    IsCommand bs i rest := by
  cases bs with
  | nil => cases e
  | cons w bs =>
    have row := isCommand_of_readOperands e
    rwa [commandWord_fields] at row

/-- Settles O2: a complete command says every bit of its word and every byte of its operands. -/
theorem commandBytesHaveOneMeaning : Obligations.CommandBytesHaveOneMeaning := by
  intro rtr bs rest i e
  have row := isCommand_of_decodeCommand e
  exact ⟨row.wf rtr, row.format, row.bytes⟩

/-! ## Words written out by hand -/

/-- Settles O6: each word, evaluated. -/
theorem writtenWordsDecode : Obligations.WrittenWordsDecode := by
  exact ⟨rfl, rfl, rfl, rfl, rfl, rfl⟩

/-! ## Reserved words -/

theorem toNat_commandWord (op : BitVec 4) (q : Bool) (k : BitVec 3) :
    (commandWord op q k).toNat = 16 * op.toNat + 8 * q.toNat + k.toNat := by
  have opq : (op ++ BitVec.ofBool q).toNat = 2 * op.toNat + q.toNat := by
    rw [BitVec.toNat_append, ← Nat.shiftLeft_add_eq_or_of_lt (BitVec.isLt _), Nat.shiftLeft_eq, BitVec.toNat_ofBool]
    omega
  rw [commandWord, BitVec.toNat_append, ← Nat.shiftLeft_add_eq_or_of_lt (BitVec.isLt _), Nat.shiftLeft_eq, opq]
  omega

end Sys2Proof

namespace Sys2Proof.Machine

/-- Which words are reserved, by their fields (30_encoding.md R86). -/
theorem isReservedWord_commandWord {op : BitVec 4} {q : Bool} {k : BitVec 3} :
    isReservedWord (commandWord op q k) = true ↔
      op.toNat = 0 ∨ op.toNat = 12 ∨ op.toNat = 13 ∨ op.toNat = 14 ∨ (7 ≤ op.toNat ∧ q = true) ∨
        (op.toNat ≠ 11 ∧ k ≠ 0) ∨ (op.toNat = 11 ∧ k = 7) := by
  have opField : (commandWord op q k).toNat / 16 = op.toNat := by
    rw [toNat_commandWord]; cases q <;> simp <;> omega
  have qField : (commandWord op q k).toNat / 8 % 2 = q.toNat := by
    rw [toNat_commandWord]; cases q <;> simp <;> omega
  have kField : (commandWord op q k).toNat % 8 = k.toNat := by
    rw [toNat_commandWord]; cases q <;> simp <;> omega
  simp only [isReservedWord, opField, qField, kField]
  simp [or_assoc, BitVec.toNat_eq]

/-- A reserved word has a row of its own, which answers `IllegalCommand`, or its `q` or `k` field is reserved
(30_encoding.md R86); the arms as in `isCommand_of_readOperands`. -/
theorem readOperands_of_isReservedWord {op : BitVec 4} {q : Bool} {k : BitVec 3}
    (reserved : isReservedWord (commandWord op q k) = true) (rest : List Byte) :
    readOperands op q k rest = .error .reserved ∨
      ∃ i, (∀ s, exec i s = .next s.answerIllegal) ∧ readOperands op q k rest = .ok (i, rest) := by
  rw [isReservedWord_commandWord] at reserved
  unfold readOperands
  split
  case h_1 | h_13 | h_14 | h_15 => exact .inr ⟨_, fun _ => rfl, rfl⟩
  case h_2 row | h_3 row | h_4 row | h_5 row | h_6 row | h_7 row =>
    have kField : k ≠ 0 := by simpa [row] using reserved
    exact .inl (if_pos kField)
  case h_8 row | h_9 row | h_10 row | h_11 row =>
    have fields : q = true ∨ k ≠ 0 := by simpa [row] using reserved
    exact .inl (if_pos fields)
  case h_12 row =>
    have fields : q = true ∨ k = 7 := by simpa [row] using reserved
    cases q with
    | true => exact .inl rfl
    | false =>
      obtain rfl : k = 7 := fields.resolve_left Bool.false_ne_true
      exact .inr ⟨.reservedRdcnt7, fun _ => rfl, rfl⟩
  case h_16 =>
    have fields : q = true ∨ k ≠ 0 := by grind
    exact .inl (if_pos fields)

theorem State.answerIllegal_eq_plus (s : State) : s.answerIllegal = s.plus [.response (.status .illegalCommand)] := rfl

/-- Settles O49: with a row of its own or without one, the word is answered and its one byte taken. -/
theorem reservedWordsAnswerIllegalCommand : Obligations.ReservedWordsAnswerIllegalCommand := by
  intro s w rest closed turns request reserved
  rw [← commandWord_fields w] at request reserved
  have fetched : s.fetch = s.fetchUnscheduled := State.fetch_of_no_turn closed turns
  rcases readOperands_of_isReservedWord reserved rest with e | ⟨i, illegal, e⟩
  · simp only [step, fetched, State.fetchUnscheduled, State.fetchCommand, request, decodeCommand_word, e,
      State.answerIllegal_eq_plus]
    rfl
  · simp only [step, fetched, State.fetchUnscheduled, State.fetchCommand, request, decodeCommand_word, e, illegal,
      State.answerIllegal_eq_plus]
    rfl

/-- Settles O50: the five rows are `State.answerIllegal`. -/
theorem reservedRowsAnswerIllegalCommand : Obligations.ReservedRowsAnswerIllegalCommand := by
  intro s x
  exact ⟨rfl, rfl, rfl, rfl, rfl⟩

end Sys2Proof.Machine
end

section
/-! What ENCODE writes, DECODE reads back (30_encoding.md R79): O24. -/

namespace Sys2Proof.Machine

/-! ## What ENCODE wrote -/

/-- A datagram in ENCODE's own terms: the header of a data datagram with the number of frames, then their records
(42_encode.md R133, R136). -/
def encodedDatagram (version seq : Byte) (fs : List SigFrame) : List Byte :=
  headerBytes ⟨version, Config.opData, seq, BitVec.ofNat 16 fs.length⟩ ++ recordsOf fs

theorem encodedDatagram_length (version seq : Byte) {rtr : Fin 32} {fs : List SigFrame} (ok : ∀ f ∈ fs, f.ok rtr = true) :
    (encodedDatagram version seq fs).length = Config.hdrSize + wireTotal rtr fs := by
  simp only [encodedDatagram, recordsOf, List.length_append, records_length ok]
  rfl

/-- The frames that a batch takes are the first ones of the queue (42_encode.md R135). -/
theorem Batch.Spec.length_taken {rtr : Fin 32} {limit pos : Nat} {q : Queue} {b : Batch} (spec : b.Spec rtr limit pos q) :
    ((q.content rtr).take b.count).length = b.count := by
  rw [List.length_take, Queue.content_length]
  exact Nat.min_eq_left spec.count_le

/-- The datagram of a batch carries the frames taken. -/
theorem Batch.Spec.datagram_eq {rtr : Fin 32} {limit pos : Nat} {q : Queue} {b : Batch} (spec : b.Spec rtr limit pos q)
    (version seq : Byte) : b.datagram version seq = encodedDatagram version seq ((q.content rtr).take b.count) := by
  rw [Batch.datagram, encodedDatagram, spec.length_taken, spec.records, recordsOf]

/-- An ENCODE that answers a datagram wrote the first frames of the queue into it, within the limit, and took them from the
queue (42_encode.md R133 to R137). -/
theorem exec_encode_wrote {s t : State} {q : QueueId} {m : Word16} {b n : Nat} {out : List Byte}
    (ok : (s.queue q).Ok s.settings.rtrBit) (e : exec (.encode q m) s = .next t)
    (answered : t.events = s.events ++ [.response (.encoded b n out)]) (wrote : 0 < n) :
    n ≤ (s.queue q).occ ∧ out.length ≤ m.toNat ∧
      out = encodedDatagram s.settings.version s.seq (((s.queue q).content s.settings.rtrBit).take n) ∧
      ∃ head, t = { s.setQueue q { s.queue q with head := head } with seq := s.seq + 1 }.answer (.encoded b n out) := by
  obtain ⟨-, e⟩ := State.whenReady_next e
  have spec := State.batchOf_spec ok m.toNat
  cases e
  rcases s.encode_cases q m.toNat with ⟨-, e⟩ | ⟨taken, e⟩
  · simp [e] at answered
    omega
  · simp only [e, State.answer_events, State.setQueue_events, List.append_cancel_left_eq, List.cons.injEq,
      Event.response.injEq, Response.encoded.injEq, and_true] at answered
    obtain ⟨rfl, rfl, rfl⟩ := answered
    have okFrames : ∀ f ∈ ((s.queue q).content s.settings.rtrBit).take (s.batchOf q m.toNat).count,
        f.ok s.settings.rtrBit = true := fun f hf => ok.content_ok f (List.mem_of_mem_take hf)
    refine ⟨spec.count_le, ?_, spec.datagram_eq _ _, (s.batchOf q m.toNat).queue.head, ?_⟩
    · rw [spec.datagram_eq, encodedDatagram_length _ _ okFrames, ← spec.pos_eq]
      exact spec.fits.resolve_left taken
    · rw [e, ← spec.kept]

/-! ## What DECODE reads -/

/-- A DECODE loop that ends `Ok` dropped no frame (43_decode.md R158). -/
theorem decodeRecords_drop_of_ok {rtr : Fin 32} {k n : Nat} {bs : List Byte} {q : Queue} (ok : q.Ok rtr)
    (done : (decodeRecords rtr k bs n q).1 = .ok) : (decodeRecords rtr k bs n q).2.2.drop = q.drop := by
  obtain ⟨fs, rest, -, -, -, -, -, -, -, ⟨-, -, same⟩ | ⟨-, -, same⟩ | ⟨-, -, full, -⟩⟩ :=
    decodeRecords_spec rtr k bs n q ok
  · exact same
  · exact same
  · rw [full] at done
    cases done

/-- DECODE of a datagram with ENCODE's layout, into a queue with room for its frames, appends them (30_encoding.md R79). -/
theorem decodeInput_encodedDatagram {g : Settings} {q : Queue} {fs : List SigFrame} (seq : Byte) (ok : q.Ok g.rtrBit)
    (okFrames : ∀ f ∈ fs, f.ok g.rtrBit = true) (nonempty : 0 < fs.length) (counted : fs.length < 65536)
    (room : q.occ + fs.length < q.size) :
    ∃ q', decodeInput g (encodedDatagram g.version seq fs) q = (.ok, fs.length, q') ∧
      q'.content g.rtrBit = q.content g.rtrBit ++ fs ∧ q'.drop = q.drop := by
  have count : (BitVec.ofNat 16 fs.length).toNat = fs.length := by
    rw [BitVec.toNat_ofNat]; omega
  have some_count : BitVec.ofNat 16 fs.length ≠ 0 := by
    intro zero
    rw [zero] at count
    exact absurd count (by simpa using nonempty.ne)
  obtain ⟨done, number, content⟩ := decodeRecords_records g.rtrBit fs [] 0 q ok okFrames room
  simp only [List.append_nil, Nat.zero_add] at done number content
  refine ⟨_, ?_, content, decodeRecords_drop_of_ok ok done⟩
  simp only [decodeInput, encodedDatagram, readHeader_bytes, checkHeader_good some_count, count, recordsOf]
  exact Prod.ext done (Prod.ext number rfl)

theorem exec_decode {s : State} {q : QueueId} {input : List Byte} (ready : s.ready = true)
    (short : input.length ≤ Config.maxDgram) : exec (.decode q input) s = .next (s.decode q input) := by
  show execDecode q input s = _
  rw [execDecode, State.whenReady_ready ready, if_pos short]

theorem State.decode_of_decodeInput {s : State} {id : QueueId} {input : List Byte} {st : Status} {n : Nat} {q : Queue}
    (h : decodeInput s.settings input (s.queue id) = (st, n, q)) :
    s.decode id input = ((s.setQueue id q).count st).plus (decodeEvents st n) := by
  simp only [State.decode, h, State.endDecode_eq_plus]

/-- Settles O24: what ENCODE wrote (`exec_encode_wrote`) is what DECODE reads (`decodeInput_encodedDatagram`); the limit of
ENCODE has 16 bits, so the datagram is within `MAX_DGRAM` and its count fits the header. -/
theorem encodeThenDecodeRoundTrip : Obligations.EncodeThenDecodeRoundTrip := by
  intro s t m b n out ready rxqOk txqOk encoded answered wrote room
  obtain ⟨held, fits, rfl, head, rfl⟩ := exec_encode_wrote (q := .rxq) rxqOk encoded answered wrote
  have length : ((s.rxq.content s.settings.rtrBit).take n).length = n := by
    rw [List.length_take, Queue.content_length]
    exact Nat.min_eq_left held
  have okFrames : ∀ f ∈ (s.rxq.content s.settings.rtrBit).take n, f.ok s.settings.rtrBit = true :=
    fun f hf => rxqOk.content_ok f (List.mem_of_mem_take hf)
  have short : (encodedDatagram s.settings.version s.seq ((s.rxq.content s.settings.rtrBit).take n)).length ≤ 65535 := by
    have := m.isLt
    exact fits.trans (by omega)
  have counted : n < 65536 := by
    have := wireTotal_ge s.settings.rtrBit ((s.rxq.content s.settings.rtrBit).take n)
    rw [encodedDatagram_length _ _ okFrames] at short
    omega
  obtain ⟨q', read, content, drop⟩ := decodeInput_encodedDatagram (g := s.settings) s.seq txqOk okFrames
    (by omega) (by omega) (by omega)
  rw [length] at read
  refine ⟨_, exec_decode ready short, ?_⟩
  rw [State.decode_of_decodeInput (by exact read)]
  refine ⟨rfl, content, fun k => ?_⟩
  match k with
  | 1 => exact drop
  | 0 | 2 | 3 | 4 | 5 | 6 => rfl

end Sys2Proof.Machine
end

section
/-! The Frame accessors (40_frame.md): the record spelled out and injective up to `sig_eq` (O8), its length (O11), and the rows
that answer the accessors' values (O9, O10). -/

namespace Sys2Proof

/-! ## The bit fields in plain arithmetic -/

/-- `EFFLEN` is the `length` byte modulo 128 (40_frame.md R100). -/
theorem toNat_lengthEff (length : Byte) : (lengthEff length).toNat = length.toNat % 128 := by
  simp [lengthEff]

theorem lengthEff_eq_ofNat (length : Byte) : lengthEff length = BitVec.ofNat 7 length.toNat :=
  BitVec.eq_of_toNat_eq (toNat_lengthEff length)

/-- The FD marker is the quotient of the `length` byte by 128 (40_frame.md R101). -/
theorem toNat_lengthFd (length : Byte) : (lengthFd length).toNat = length.toNat / 128 := by
  have bound := length.isLt
  rw [lengthFd, BitVec.getLsbD, Nat.toNat_testBit]
  omega

theorem lengthFd_eq_decide (length : Byte) : lengthFd length = decide (128 ≤ length.toNat) := by
  have quotient := toNat_lengthFd length
  cases marker : lengthFd length <;> simp only [marker, Bool.toNat_false, Bool.toNat_true] at quotient
  · exact (decide_eq_false (by omega)).symm
  · exact (decide_eq_true (by omega)).symm

/-! ## The record of a Frame -/

/-- `RECORD` spelled out (40_frame.md R105). -/
theorem Frame.record_eq (rtr : Fin 32) (f : Frame) :
    f.record rtr = be32Bytes f.id ++ [f.length] ++ (if lengthFd f.length then [f.fdFlags] else []) ++
      (if idRtr rtr f.id then [] else f.data.toList.take (f.length.toNat % 128)) := by
  simp only [Frame.record, SigFrame.record, Frame.sig, Frame.isFd, Frame.isRtr, Frame.effLen, toNat_lengthEff]
  by_cases marker : lengthFd f.length = true <;> simp [marker]

theorem Frame.wireSize_sig (rtr : Fin 32) (f : Frame) : (f.sig rtr).wireSize rtr = f.wireSize rtr := rfl

theorem Frame.record_length {rtr : Fin 32} {f : Frame} (wf : f.wf = true) : (f.record rtr).length = f.wireSize rtr :=
  SigFrame.record_length_ok (f.sig_ok rtr wf)

/-- `RECORD` is injective up to `sig_eq`, because a record reads back to its significant fields (40_frame.md R105). -/
theorem Frame.record_eq_iff_sigEq {rtr : Fin 32} {f g : Frame} (hf : f.wf = true) (hg : g.wf = true) :
    f.record rtr = g.record rtr ↔ f.sigEq rtr g = true := by
  rw [Frame.sigEq_iff]
  exact ⟨SigFrame.record_inj (f.sig_ok rtr hf) (g.sig_ok rtr hg), congrArg SigFrame.record⟩

/-- Settles O8: the bytes, their number, and the Frames that share them. -/
theorem recordIsInjectiveUpToSigEq : Obligations.RecordIsInjectiveUpToSigEq := by
  intro rtr f g hf hg
  exact ⟨f.record_eq rtr, Frame.record_length hf, Frame.record_eq_iff_sigEq hf hg⟩

/-! ## The size of a Frame -/

/-- `WIRESIZE` in plain arithmetic on the Frame's fields (40_frame.md R104). -/
theorem Frame.wireSize_eq (rtr : Fin 32) (f : Frame) :
    f.wireSize rtr = 5 + f.length.toNat / 128 + if idRtr rtr f.id then 0 else f.length.toNat % 128 := by
  rw [Frame.wireSize, wireSizeOf, toNat_lengthFd, toNat_lengthEff]

/-- The most that 4 bytes of id, the length, the flags and 127 declared bytes can be. -/
theorem Frame.wireSize_le (rtr : Fin 32) (f : Frame) : f.wireSize rtr ≤ 133 := by
  have bound := f.length.isLt
  rw [Frame.wireSize_eq]
  split <;> omega

theorem Frame.wireSize_le_of_wf {rtr : Fin 32} {f : Frame} (wf : f.wf = true) : f.wireSize rtr ≤ 70 := by
  rw [← Frame.wireSize_sig]
  exact SigFrame.wireSize_le (f.sig_ok rtr wf)

/-- Settles O11: the formula is the definition of `WIRESIZE`; the bounds and the length are lemmas of their own. -/
theorem wireSizeIsTheRecordLength : Obligations.WireSizeIsTheRecordLength := by
  intro rtr f
  exact ⟨rfl, SigFrame.wireSize_ge rtr (f.sig rtr), f.wireSize_le rtr,
    fun wf => ⟨Frame.wireSize_le_of_wf wf, Frame.record_length wf⟩⟩

end Sys2Proof

namespace Sys2Proof.Machine

/-! ## The rows of the accessors -/

section
variable {s : State} (ready : s.ready = true)
include ready

theorem exec_isrtr (f : Frame) : exec (.isrtr f) s = .next (s.plus [.response (.bit (f.isRtr s.settings.rtrBit))]) :=
  State.whenReady_ready ready _

theorem exec_wiresize (f : Frame) :
    exec (.wiresize f) s = .next (s.plus [.response (.size (f.wireSize s.settings.rtrBit))]) :=
  State.whenReady_ready ready _

theorem exec_record_of_wf {f : Frame} (wf : f.wf = true) :
    exec (.record f) s = .next (s.plus [.response (.bytes (f.record s.settings.rtrBit))]) :=
  (State.whenReady_ready ready _).trans (if_pos wf)

/-- What RECORD of an ill-formed Frame answers is a free value (log 14). -/
theorem exec_record_of_not_wf {f : Frame} (bad : f.wf = false) :
    exec (.record f) s = .next (s.drawn.plus [.response (.bytes (Config.freeBytes s.draws))]) :=
  (State.whenReady_ready ready _).trans (if_neg (Bool.not_eq_true _ ▸ bad))

end

/-- Settles O9: each row answers its accessor, whose value is arithmetic on the Frame's fields. -/
theorem accessorsAnswerTheirValue : Obligations.AccessorsAnswerTheirValue := by
  intro s f
  refine ⟨?efflen, ?isfd, fun ready => ⟨exec_isrtr ready f, ?wiresize, fun short => ?record⟩⟩
  case efflen =>
    rw [← lengthEff_eq_ofNat]
    rfl
  case isfd =>
    rw [← lengthFd_eq_decide]
    rfl
  case wiresize =>
    rw [exec_wiresize ready f, Frame.wireSize_eq]
    rfl
  case record =>
    have wf : f.wf = true := Frame.wf_iff.2 ((toNat_lengthEff f.length).trans_le short)
    rw [exec_record_of_wf ready wf, Frame.record_eq]
    simp only [lengthFd_eq_decide, decide_eq_true_eq]
    rfl

/-- Settles O10: the byte string is the free one. -/
theorem recordOfIllFormedFrameIsFree : Obligations.RecordOfIllFormedFrameIsFree := by
  intro s f ready bad
  exact ⟨_, exec_record_of_not_wf ready bad⟩

end Sys2Proof.Machine
end

section
/-! The direct moves on a queue, told by its content (41_queue.md R111 to R118): O13 to O19. -/

namespace Sys2Proof.Machine

/-! ## The flags of a queue in order, and its content -/

section
variable {rtr : Fin 32} {q : Queue} (ok : q.Ok rtr)
include ok

theorem Queue.Ok.isEmpty_eq : q.isEmpty = decide (q.content rtr = []) :=
  Bool.eq_iff_iff.2 <| by
    rw [decide_eq_true_iff, Queue.isEmpty_iff ok.head_lt ok.tail_lt, Queue.content_eq_nil_iff]

theorem Queue.Ok.isFull_eq : q.isFull = decide ((q.content rtr).length = q.size - 1) :=
  Bool.eq_iff_iff.2 <| by
    rw [decide_eq_true_iff, Queue.isFull_iff ok.head_lt ok.tail_lt, Queue.content_length]

theorem Queue.Ok.content_length_le : (q.content rtr).length ≤ q.size - 1 := by
  rw [Queue.content_length]
  exact Nat.le_sub_one_of_lt (Queue.occ_lt ok.head_lt ok.tail_lt)

/-- Where the content has a first frame, that is the frame at `head`, and a dequeue leaves the others (10_state.md R25). -/
theorem Queue.Ok.of_content_cons {g : SigFrame} {rest : List SigFrame} (held : q.content rtr = g :: rest) :
    q.isEmpty = false ∧ q.front rtr = g ∧ q.pop.content rtr = rest := by
  have nonempty : q.isEmpty = false := by simp [ok.isEmpty_eq, held]
  rw [Queue.content_pop rtr ok.head_lt ok.tail_lt nonempty, List.cons.injEq] at held
  exact ⟨nonempty, held⟩

end

/-! ## What each command answers, and the state it leaves -/

@[simp] theorem State.plus_queue (s : State) (es : List Event) : (s.plus es).queue = s.queue := by
  funext q
  cases q <;> rfl

section
variable {s : State} {q : QueueId} (ready : s.ready = true)
include ready

/-- ENQ is the enqueue of the shared operations and an answer of its status (41_queue.md R111, R112). -/
theorem exec_enq (f : Frame) : exec (.enq q f) s =
    .next ((s.setQueue q ((s.queue q).enqueue s.settings.rtrBit f).2).plus
      [.response (.status ((s.queue q).enqueue s.settings.rtrBit f).1)]) :=
  State.whenReady_ready ready _

theorem exec_enq_of_not_wf {f : Frame} (bad : f.wf = false) :
    exec (.enq q f) s = .next (s.plus [.response (.status .badFrame)]) := by
  have refused : (s.queue q).enqueue s.settings.rtrBit f = (.badFrame, s.queue q) := by simp [Queue.enqueue, bad]
  rw [exec_enq ready, refused, State.setQueue_queue]

theorem exec_enq_full {f : Frame} (wf : f.wf = true) (full : (s.queue q).isFull = true) : exec (.enq q f) s =
    .next ((s.setQueue q { s.queue q with drop := (s.queue q).drop + 1 }).plus [.response (.status .full)]) := by
  rw [exec_enq ready, Queue.enqueue, if_pos wf, Queue.offer, if_pos full]

theorem exec_enq_room {f : Frame} (wf : f.wf = true) (room : (s.queue q).isFull = false) : exec (.enq q f) s =
    .next ((s.setQueue q ((s.queue q).publish (f.sig s.settings.rtrBit))).plus [.response (.status .ok)]) := by
  rw [exec_enq ready, Queue.enqueue, if_pos wf, Queue.offer, if_neg (Bool.eq_false_iff.1 room)]

theorem exec_deq_empty (empty : (s.queue q).isEmpty = true) :
    exec (.deq q) s = .next { s.plus [.response (.frame .empty s.freeFrame)] with draws := s.draws + 1 } :=
  (State.whenReady_ready ready _).trans (if_pos empty)

theorem exec_peek_empty (empty : (s.queue q).isEmpty = true) :
    exec (.peek q) s = .next { s.plus [.response (.frame .empty s.freeFrame)] with draws := s.draws + 1 } :=
  (State.whenReady_ready ready _).trans (if_pos empty)

theorem exec_stat : exec (.stat q) s =
    .next (s.plus [.response (.flags (s.queue q).isEmpty (s.queue q).isFull (s.queue q).occ)]) :=
  State.whenReady_ready ready _

section
variable {g : SigFrame} {rest : List SigFrame} (ok : (s.queue q).Ok s.settings.rtrBit)
  (held : (s.queue q).content s.settings.rtrBit = g :: rest)
include ok held

theorem exec_deq_cons : ∃ f, f.sig s.settings.rtrBit = g ∧ exec (.deq q) s =
    .next { (s.setQueue q (s.queue q).pop).plus [.response (.frame .ok f)] with draws := s.draws + 1 } := by
  obtain ⟨nonempty, rfl, -⟩ := ok.of_content_cons held
  refine ⟨_, SigFrame.toFrame_sig (ok.front_ok nonempty) s.freeFrame, ?_⟩
  rw [← State.setQueue_draws s q (s.queue q).pop]
  exact (State.whenReady_ready ready _).trans (if_neg (Bool.eq_false_iff.1 nonempty))

theorem exec_peek_cons : ∃ f, f.sig s.settings.rtrBit = g ∧ exec (.peek q) s =
    .next { s.plus [.response (.frame .ok f)] with draws := s.draws + 1 } := by
  obtain ⟨nonempty, rfl, -⟩ := ok.of_content_cons held
  exact ⟨_, SigFrame.toFrame_sig (ok.front_ok nonempty) s.freeFrame, exec_peek_nonempty ready nonempty⟩

end

end

/-! ## The bounded FIFO -/

/-- From `s` to `t` queue `q` came to hold `c`, with these answers shown on the way: the relation between a run of moves and
one of the bounded FIFO. What the next move needs of the state is kept (41_queue.md R118). -/
structure Simulates (q : QueueId) (s t : State) (c : List SigFrame) (answers : List (Status × Option SigFrame)) : Prop where
  ready : t.ready = s.ready
  settings : t.settings = s.settings
  size : (t.queue q).size = (s.queue q).size
  ok : (t.queue q).Ok s.settings.rtrBit
  content : (t.queue q).content s.settings.rtrBit = c
  events : ∃ es, t.events = s.events ++ es ∧ es.filterMap (answerShown s.settings.rtrBit) = answers

theorem Simulates.refl {q : QueueId} {s : State} (ok : (s.queue q).Ok s.settings.rtrBit) :
    Simulates q s s ((s.queue q).content s.settings.rtrBit) [] :=
  ⟨rfl, rfl, rfl, ok, rfl, [], (List.append_nil _).symm, rfl⟩

theorem Simulates.trans {q : QueueId} {s t u : State} {c c' : List SigFrame}
    {as bs : List (Status × Option SigFrame)} (h1 : Simulates q s t c as) (h2 : Simulates q t u c' bs) :
    Simulates q s u c' (as ++ bs) := by
  obtain ⟨es, put, shown⟩ := h1.events
  obtain ⟨es', put', shown'⟩ := h2.events
  have same := h1.settings
  exact {
    ready := h2.ready.trans h1.ready
    settings := h2.settings.trans same
    size := h2.size.trans h1.size
    ok := same ▸ h2.ok
    content := same ▸ h2.content
    events := ⟨es ++ es', by rw [put', put, List.append_assoc], by
      rw [List.filterMap_append, shown, ← same, shown']⟩ }

/-- One answered move: it leaves queue `q` as `Q`, which holds `c`, and shows one answer. -/
theorem Simulates.answered {q : QueueId} {s : State} {c : List SigFrame} (Q : Queue) (e : Event)
    {a : Status × Option SigFrame} (size : Q.size = (s.queue q).size) (ok : Q.Ok s.settings.rtrBit)
    (content : Q.content s.settings.rtrBit = c) (shown : answerShown s.settings.rtrBit e = some a) :
    Simulates q s ((s.setQueue q Q).plus [e]) c [a] := by
  have queue : ((s.setQueue q Q).plus [e]).queue q = Q := by simp
  exact {
    ready := State.setQueue_ready s q Q
    settings := State.setQueue_settings s q Q
    size := by rw [queue, size]
    ok := queue.symm ▸ ok
    content := by rw [queue, content]
    events := ⟨[e], congrArg (· ++ [e]) (State.setQueue_events s q Q), by simp [shown]⟩ }

theorem Simulates.answered_kept {q : QueueId} {s : State} {c : List SigFrame} (e : Event) {a : Status × Option SigFrame}
    (ok : (s.queue q).Ok s.settings.rtrBit) (content : (s.queue q).content s.settings.rtrBit = c)
    (shown : answerShown s.settings.rtrBit e = some a) : Simulates q s (s.plus [e]) c [a] := by
  have sim := Simulates.answered (s.queue q) e rfl ok content shown
  rwa [State.setQueue_queue] at sim

/-- The count of free values is no part of a queue (log 6). -/
theorem Simulates.withDraws {q : QueueId} {s t : State} {c : List SigFrame} {answers : List (Status × Option SigFrame)}
    (h : Simulates q s t c answers) (d : Nat) : Simulates q s { t with draws := d } c answers := by
  cases q <;> exact ⟨h.ready, h.settings, h.size, h.ok, h.content, h.events⟩

/-- The move `m` on queue `q` does and answers what it does and answers on the FIFO of capacity `N-1`. -/
def SimulatesMove (q : QueueId) (m : QueueMove) (s t : State) : Prop :=
  Simulates q s t (fifoMove s.settings.rtrBit ((s.queue q).size - 1) ((s.queue q).content s.settings.rtrBit) m).1
    [(fifoMove s.settings.rtrBit ((s.queue q).size - 1) ((s.queue q).content s.settings.rtrBit) m).2]

theorem fifoMove_enq_full {rtr : Fin 32} {cap : Nat} {c : List SigFrame} (full : c.length = cap) (f : Frame) :
    fifoMove rtr cap c (.enq f) = (c, .full, none) :=
  if_pos full

theorem fifoMove_enq_room {rtr : Fin 32} {cap : Nat} {c : List SigFrame} (room : c.length ≠ cap) (f : Frame) :
    fifoMove rtr cap c (.enq f) = (c ++ [f.sig rtr], .ok, none) :=
  if_neg room

section
variable {s : State} {q : QueueId} (ready : s.ready = true) (ok : (s.queue q).Ok s.settings.rtrBit)
include ready ok

/-- ENQ appends, or is refused where `N-1` frames are held. -/
theorem exec_enq_simulates {f : Frame} (wf : f.wf = true) :
    ∃ t, exec (.enq q f) s = .next t ∧ SimulatesMove q (.enq f) s t := by
  by_cases held : ((s.queue q).content s.settings.rtrBit).length = (s.queue q).size - 1
  case pos =>
    refine ⟨_, exec_enq_full ready wf (ok.isFull_eq.trans (decide_eq_true held)), ?_⟩
    rw [SimulatesMove, fifoMove_enq_full held]
    exact .answered { s.queue q with drop := (s.queue q).drop + 1 } _ rfl (ok.dropped _) (Queue.content_drop _ _ _) rfl
  case neg =>
    have room := ok.isFull_eq.trans (decide_eq_false held)
    refine ⟨_, exec_enq_room ready wf room, ?_⟩
    rw [SimulatesMove, fifoMove_enq_room held]
    exact .answered ((s.queue q).publish _) _ rfl (ok.publish room (Frame.sig_ok _ wf))
      (Queue.content_publish _ _ ok.head_lt ok.tail_lt room) rfl

/-- DEQ takes the first frame, or finds none. -/
theorem exec_deq_simulates : ∃ t, exec (.deq q) s = .next t ∧ SimulatesMove q .deq s t := by
  unfold SimulatesMove
  cases held : (s.queue q).content s.settings.rtrBit with
  | nil =>
    refine ⟨_, exec_deq_empty ready (ok.isEmpty_eq.trans (decide_eq_true held)), .withDraws ?_ _⟩
    exact .answered_kept _ ok held rfl
  | cons g rest =>
    obtain ⟨f, rfl, runs⟩ := exec_deq_cons ready ok held
    obtain ⟨nonempty, -, left⟩ := ok.of_content_cons held
    refine ⟨_, runs, .withDraws ?_ _⟩
    exact .answered (s.queue q).pop _ rfl (ok.pop nonempty) left rfl

/-- PEEK shows the first frame, or finds none. -/
theorem exec_peek_simulates : ∃ t, exec (.peek q) s = .next t ∧ SimulatesMove q .peek s t := by
  unfold SimulatesMove
  cases held : (s.queue q).content s.settings.rtrBit with
  | nil =>
    refine ⟨_, exec_peek_empty ready (ok.isEmpty_eq.trans (decide_eq_true held)), .withDraws ?_ _⟩
    exact .answered_kept _ ok held rfl
  | cons g rest =>
    obtain ⟨f, rfl, runs⟩ := exec_peek_cons ready ok held
    refine ⟨_, runs, .withDraws ?_ _⟩
    exact .answered_kept _ ok held rfl

theorem exec_move_simulates (m : QueueMove) (wf : ∀ f, m = .enq f → f.wf = true) :
    ∃ t, exec (m.instr q) s = .next t ∧ SimulatesMove q m s t := by
  cases m with
  | enq f => exact exec_enq_simulates ready ok (wf f rfl)
  | deq => exact exec_deq_simulates ready ok
  | peek => exact exec_peek_simulates ready ok

end

/-- The simulation along a run, move by move. -/
theorem execAll_moves_simulate {q : QueueId} (ms : List QueueMove) {s : State} (ready : s.ready = true)
    (ok : (s.queue q).Ok s.settings.rtrBit) (wf : ∀ f, QueueMove.enq f ∈ ms → f.wf = true) :
    let r := fifoMoves s.settings.rtrBit ((s.queue q).size - 1) ((s.queue q).content s.settings.rtrBit) ms
    ∃ t, execAll (ms.map (QueueMove.instr q)) s = some t ∧ Simulates q s t r.1 r.2 := by
  induction ms generalizing s with
  | nil => exact ⟨s, rfl, .refl ok⟩
  | cons m ms ih =>
    obtain ⟨t, first, sim⟩ := exec_move_simulates ready ok m fun f h => wf f (h ▸ List.mem_cons_self)
    obtain ⟨u, later, sim'⟩ := ih (sim.ready.trans ready) (sim.settings ▸ sim.ok)
      fun f h => wf f (List.mem_cons_of_mem m h)
    rw [sim.settings, sim.size, sim.content] at sim'
    refine ⟨u, ?_, sim.trans sim'⟩
    rw [List.map_cons, execAll, first]
    exact later

/-! ## The statements -/

/-- Settles O19: the run simulates the FIFO's, and a queue in order holds at most `N-1` frames. -/
theorem queueIsBoundedFifo : Obligations.QueueIsBoundedFifo := by
  intro s q ms ready ok wf
  obtain ⟨t, runs, sim⟩ := execAll_moves_simulate ms ready ok wf
  obtain ⟨es, put, shown⟩ := sim.events
  refine ⟨t, runs, sim.content, ?bound, ?answers⟩
  case bound =>
    rw [← sim.content, ← sim.size]
    exact sim.ok.content_length_le
  case answers => rw [put, List.drop_left, shown]

/-- Settles O13: the next state publishes the frame, and a publication moves `tail` and the slot it named. -/
theorem enqAppendsAtTail : Obligations.EnqAppendsAtTail := by
  intro s q f ready ok wf room
  refine ⟨_, exec_enq_room ready wf room, ?_⟩
  rw [State.plus_queue, State.queue_setQueue_same]
  exact ⟨rfl, Queue.content_publish _ _ ok.head_lt ok.tail_lt room, rfl, rfl, rfl, rfl,
    fun i other => Memory.get_set_other _ _ other⟩

/-- Settles O15: the frame at `head` is the first of the content, and advancing `head` leaves the rest. -/
theorem deqTakesTheOldest : Obligations.DeqTakesTheOldest := by
  intro s q g rest ready ok held
  obtain ⟨f, sig, runs⟩ := exec_deq_cons ready ok held
  refine ⟨_, f, runs, sig, rfl, ?_⟩
  obtain ⟨-, -, left⟩ := ok.of_content_cons held
  cases q <;> exact left

/-- Settles O16: the Frame answered carries the significant fields of the slot at `head`, the first of the content. -/
theorem peekShowsTheOldest : Obligations.PeekShowsTheOldest := by
  intro s q g rest ready ok held
  exact exec_peek_cons ready ok held

/-- Settles O18: the flags, read as statements about the content. -/
theorem statReadsTheFlags : Obligations.StatReadsTheFlags := by
  intro s q ready ok
  dsimp only
  rw [exec_stat ready, ok.isEmpty_eq, ok.isFull_eq, Queue.content_length]

/-- Settles O14: the well-formedness test comes before the room test. -/
theorem enqRefusesFullAndBadFrame : Obligations.EnqRefusesFullAndBadFrame := by
  intro s q f ready
  exact ⟨exec_enq_full ready, exec_enq_of_not_wf ready⟩

/-- Settles O17: both answer the same free Frame. -/
theorem emptyQueueAnswersEmpty : Obligations.EmptyQueueAnswersEmpty := by
  intro s q ready empty
  exact ⟨_, exec_deq_empty ready empty, exec_peek_empty ready empty⟩

end Sys2Proof.Machine
end

section
/-! ENCODE on a queue in order, told by its content (42_encode.md R133 to R139): O21, O22, O23. -/

namespace Sys2Proof.Machine

/-! ## The bytes of a datagram -/

/-- The two count bytes of a header, the most significant first (30_encoding.md R70). -/
theorem be16Bytes_ofNat (n : Nat) : be16Bytes (BitVec.ofNat 16 n) = [BitVec.ofNat 8 (n / 256), BitVec.ofNat 8 n] := by
  have high : (BitVec.ofNat 16 n).extractLsb' 8 8 = BitVec.ofNat 8 (n / 256) := by
    apply BitVec.eq_of_toNat_eq
    simp only [BitVec.extractLsb'_toNat, BitVec.toNat_ofNat, Nat.shiftRight_eq_div_pow]
    omega
  have low : (BitVec.ofNat 16 n).extractLsb' 0 8 = BitVec.ofNat 8 n := by
    apply BitVec.eq_of_toNat_eq
    simp only [BitVec.extractLsb'_toNat, BitVec.toNat_ofNat, Nat.shiftRight_zero]
    omega
  rw [be16Bytes, high, low]

/-- ENCODE's layout is the datagram of 30_encoding.md R75. -/
theorem encodedDatagram_eq_datagramOf (version seq : Byte) (fs : List SigFrame) :
    encodedDatagram version seq fs = datagramOf version seq fs := by
  simp only [encodedDatagram, headerBytes, be16Bytes_ofNat]
  rfl

theorem datagramOf_length (version seq : Byte) (fs : List SigFrame) :
    (datagramOf version seq fs).length = 5 + (recordsOf fs).length := by
  rw [datagramOf, List.length_append]
  rfl

/-- Every record has at least 5 bytes (42_encode.md R139). -/
theorem recordsOf_length_ge (fs : List SigFrame) : 5 * fs.length ≤ (recordsOf fs).length := by
  induction fs with
  | nil => exact Nat.le_refl 0
  | cons f fs ih =>
    have record := f.record_length
    simp only [recordsOf, List.flatMap_cons, List.length_append, List.length_cons] at ih ⊢
    omega

/-- A datagram of `n` frames has at least `5 + 5 n` bytes (42_encode.md R139). -/
theorem datagramOf_take_length_ge (version seq : Byte) {fs : List SigFrame} {n : Nat} (held : n ≤ fs.length) :
    5 + 5 * n ≤ (datagramOf version seq (fs.take n)).length := by
  have records := recordsOf_length_ge (fs.take n)
  rw [List.length_take_of_le held] at records
  rw [datagramOf_length]
  exact Nat.add_le_add_left records 5

/-! ## The batch that ENCODE takes -/

section
variable {rtr : Fin 32} {limit pos : Nat} {q : Queue} {b : Batch} (spec : b.Spec rtr limit pos q)
include spec

/-- The loop advances `head` once for each frame taken, and moves nothing else of the queue (42_encode.md R135). -/
theorem Batch.Spec.queue_eq : b.queue = { q with head := (q.head + b.count) % q.size } := by
  rw [← spec.head_eq]
  exact spec.kept

/-- The frames that a batch leaves are those behind the ones it takes. -/
theorem Batch.Spec.content_eq_drop : b.queue.content rtr = (q.content rtr).drop b.count :=
  List.append_cancel_left (spec.content.symm.trans (List.take_append_drop b.count _).symm)

/-- `pos` counts the bytes put out (42_encode.md R133). -/
theorem Batch.Spec.pos_eq_length (ok : q.Ok rtr) :
    b.pos = pos + (recordsOf ((q.content rtr).take b.count)).length := by
  rw [spec.pos_eq, recordsOf, records_length fun f hf => ok.content_ok f (List.mem_of_mem_take hf)]

/-- The first frame left does not fit behind the ones taken (42_encode.md R134). -/
theorem Batch.Spec.next_does_not_fit (ok : q.Ok rtr) {f : SigFrame} {rest : List SigFrame}
    (left : (q.content rtr).drop b.count = f :: rest) :
    limit < pos + (recordsOf ((q.content rtr).take b.count)).length + f.record.length := by
  have held : f ∈ q.content rtr := List.mem_of_mem_drop (left ▸ List.mem_cons_self)
  rw [← spec.pos_eq_length ok, SigFrame.record_length_ok (ok.content_ok f held)]
  exact spec.greedy f rest (spec.content_eq_drop.trans left)

end

/-! ## What ENCODE answers, and the state it leaves -/

section
variable {s : State} {q : QueueId} {m : Word16} (ready : s.ready = true)
include ready

theorem exec_encode : exec (.encode q m) s = .next ((s.encode q m.toNat).2.answer
    (.encoded (s.encode q m.toNat).1.bytesWritten (s.encode q m.toNat).1.framesConsumed (s.encode q m.toNat).1.out)) :=
  State.whenReady_ready ready _

/-- A batch of no frames is answered (0, 0) and changes nothing (42_encode.md R138). -/
theorem exec_encode_none (empty : (s.batchOf q m.toNat).count = 0) :
    exec (.encode q m) s = .next (s.plus [.response (.encoded 0 0 [])]) := by
  obtain ⟨-, same⟩ := (s.encode_cases q m.toNat).resolve_right fun h => h.1 empty
  rw [exec_encode ready, same]
  rfl

/-- A batch of some frames is answered with their datagram, `head` moves past them and `SEQ` by one
(42_encode.md R133, R136, R137). -/
theorem exec_encode_some (ok : (s.queue q).Ok s.settings.rtrBit) {n : Nat} (count : (s.batchOf q m.toNat).count = n)
    (taken : n ≠ 0) :
    let out := datagramOf s.settings.version s.seq (((s.queue q).content s.settings.rtrBit).take n)
    out.length ≤ m.toNat ∧ exec (.encode q m) s =
      .next { (s.setQueue q { s.queue q with head := ((s.queue q).head + n) % (s.queue q).size }).plus
        [.response (.encoded out.length n out)] with seq := s.seq + 1 } := by
  subst count
  have spec := State.batchOf_spec ok m.toNat
  have length := (datagramOf_length s.settings.version s.seq _).trans (spec.pos_eq_length ok).symm
  refine ⟨length.trans_le (spec.fits.resolve_left taken), ?_⟩
  obtain ⟨-, moved⟩ := (s.encode_cases q m.toNat).resolve_left fun h => taken h.1
  rw [exec_encode ready, moved, spec.queue_eq, spec.datagram_eq, encodedDatagram_eq_datagramOf, length]
  cases q <;> rfl

end

/-- The last event of a run tells what ENCODE answered. -/
theorem encoded_inj {es : List Event} {b b' n n' : Nat} {out out' : List Byte}
    (h : es ++ [.response (.encoded b n out)] = es ++ [.response (.encoded b' n' out')]) : b = b' ∧ n = n' ∧ out = out' := by
  simpa using h

/-! ## The statements -/

/-- Settles O21: the batch of ENCODE's loop (`State.batchOf_spec`, by induction on the turns) is the run, and whether it is
empty decides between the two answers. -/
theorem encodeTakesTheLongestRunThatFits : Obligations.EncodeTakesTheLongestRunThatFits := by
  intro s q m ready ok
  have spec := State.batchOf_spec ok m.toNat
  have held := spec.count_le.trans_eq (Queue.content_length s.settings.rtrBit (s.queue q)).symm
  have greedy := fun f rest => spec.next_does_not_fit ok (f := f) (rest := rest)
  have left := spec.content_eq_drop
  by_cases count : (s.batchOf q m.toNat).count = 0
  case pos =>
    refine ⟨_, _, exec_encode_none ready count, held, ?_, fun _ => rfl, fun taken => absurd count taken.ne', greedy⟩
    rw [State.plus_queue, count, List.drop_zero]
  case neg =>
    obtain ⟨fits, runs⟩ := exec_encode_some ready ok rfl count
    refine ⟨_, _, runs, held, ?_, fun empty => absurd empty count, fun _ => ⟨fits, rfl⟩, greedy⟩
    rw [spec.queue_eq] at left
    cases q <;> exact left

/-- Settles O22: the datagram is within the limit, and each of its records has at least 5 bytes. -/
theorem encodeResultsAreBounded : Obligations.EncodeResultsAreBounded := by
  intro s t q m b n out ok runs answered
  obtain ⟨ready, -⟩ := State.whenReady_next runs
  obtain ⟨t', k, runs', held, -, unchanged, datagram, -⟩ := encodeTakesTheLongestRunThatFits s q m ready ok
  obtain rfl : t = t' := Host.Outcome.next.inj (runs.symm.trans runs')
  have capacity := ok.content_length_le
  have limit := m.isLt
  rcases Nat.eq_zero_or_pos k with empty | taken
  case inl =>
    rw [unchanged empty] at answered
    obtain ⟨rfl, rfl, rfl⟩ := encoded_inj answered
    exact ⟨Nat.zero_le _, rfl, Nat.zero_le _, Nat.zero_le _, Nat.zero_le _, Nat.zero_le _⟩
  case inr =>
    obtain ⟨fits, rfl⟩ := datagram taken
    obtain ⟨rfl, rfl, rfl⟩ := encoded_inj ((congrArg (· ++ _) (State.setQueue_events s q _)).symm.trans answered)
    have least := datagramOf_take_length_ge s.settings.version s.seq held
    rw [Queue.content_length] at held capacity
    exact ⟨fits, rfl, held, held.trans capacity, by omega, by omega⟩

/-- Settles O23: a datagram would hold the head frame, whose record has at least 5 bytes. -/
theorem noEmptyDatagram : Obligations.NoEmptyDatagram := by
  intro s q m ready ok small
  obtain ⟨t, n, runs, held, -, unchanged, datagram, -⟩ := encodeTakesTheLongestRunThatFits s q m ready ok
  suffices n = 0 by rw [runs, unchanged this]
  by_contra taken
  obtain ⟨fits, -⟩ := datagram (Nat.pos_of_ne_zero taken)
  rcases small with empty | short | ⟨f, rest, front, long⟩
  · rw [empty] at held
    exact taken (Nat.le_zero.1 held)
  · have least := datagramOf_take_length_ge s.settings.version s.seq held
    omega
  · obtain ⟨k, rfl⟩ := Nat.exists_eq_succ_of_ne_zero taken
    rw [front, List.take_succ_cons, datagramOf_length, recordsOf, List.flatMap_cons, List.length_append] at fits
    omega

end Sys2Proof.Machine
end

section
/-! A record read with the checks (a), (a'), (b), (c) of 43_decode.md R153 in plain arithmetic: O7, and what bytes that end
inside a record read as. -/

namespace Sys2Proof

/-! ## The checks of a record -/

/-- Check (c): the data bytes that a frame has on the wire, none where its RTR bit is set (43_decode.md R153, R157). -/
theorem readPayload_eq (rtr : Fin 32) (id : Word32) (length : Byte) (flags : Option Byte) (bs : List Byte) :
    let data := if idRtr rtr id then 0 else length.toNat % 128
    readPayload rtr id length flags bs =
      if bs.length < data then .error .truncated else .ok (⟨id, length, flags, bs.take data⟩, bs.drop data) := by
  rw [← toNat_lengthEff, readPayload]
  cases idRtr rtr id <;> simp

/-- Checks (a') and (b) where the base of the record is there: the declared length, then the flags byte
(43_decode.md R153, R156). -/
theorem readRecord_cons (rtr : Fin 32) (b0 b1 b2 b3 length : Byte) (bs : List Byte) :
    let fd := length.toNat / 128
    readRecord rtr (b0 :: b1 :: b2 :: b3 :: length :: bs) =
      if 64 < length.toNat % 128 then .error .malformed
      else if bs.length < fd then .error .truncated
      else readPayload rtr (be32 b0 b1 b2 b3) length (if fd = 1 then some (bs.getD 0 0) else none) (bs.drop fd) := by
  rw [← toNat_lengthEff, ← toNat_lengthFd]
  cases marker : lengthFd length with
  | false => simp [readRecord, marker, Config.dataCap]
  | true => cases bs <;> simp [readRecord, marker, Config.dataCap]

/-- Check (a): a record has at least its base of 5 bytes (43_decode.md R153). -/
theorem readRecord_of_length_lt {rtr : Fin 32} {bs : List Byte} (short : bs.length < 5) :
    readRecord rtr bs = .error .truncated := by
  unfold readRecord
  split
  · simp only [List.length_cons] at short
    omega
  · rfl

/-- Bytes that are no shorter than a header or the base of a record, by their first five. -/
theorem exists_cons_of_five_le_length {bs : List Byte} (long : 5 ≤ bs.length) :
    ∃ b0 b1 b2 b3 b4 rest, bs = b0 :: b1 :: b2 :: b3 :: b4 :: rest := by
  match bs, long with
  | b0 :: b1 :: b2 :: b3 :: b4 :: rest, _ => exact ⟨b0, b1, b2, b3, b4, rest, rfl⟩

/-- Settles O7: without the base check (a) fails; with it `readRecord_cons` and `readPayload_eq` make the other checks. -/
theorem recordChecksAreMadeInOrder : Obligations.RecordChecksAreMadeInOrder := by
  intro rtr bs
  refine ⟨readRecord_of_length_lt, ?_⟩
  by_cases short : bs.length < 5
  · have base : ¬ 5 ≤ bs.length := Nat.not_le.2 short
    exact ⟨fun h => absurd h base, fun h => absurd h base, fun h => absurd h base, fun h => absurd h base⟩
  · obtain ⟨b0, b1, b2, b3, length, rest, rfl⟩ := exists_cons_of_five_le_length (Nat.not_lt.1 short)
    simp only [List.length_cons, List.getD_cons_zero, List.getD_cons_succ, getLsbD_eq_idRtr, readRecord_cons,
      readPayload_eq, List.length_drop]
    refine ⟨fun _ big => if_pos big, fun _ fits noFlags => ?flags, fun _ fits flags noData => ?data,
      fun _ fits all => ?good⟩
    case flags => rw [if_neg (Nat.not_lt.2 fits), if_pos (by omega)]
    case data => rw [if_neg (Nat.not_lt.2 fits), if_neg (by omega), if_pos (by omega)]
    case good =>
      have base (k : Nat) : (b0 :: b1 :: b2 :: b3 :: length :: rest).drop (5 + k) = rest.drop k := by
        rw [Nat.add_comm]
        rfl
      rw [if_neg (Nat.not_lt.2 fits), if_neg (by omega), if_neg (by omega), List.drop_drop, Nat.add_assoc, base, base]

/-! ## A record cut short -/

/-- A record that declares too many bytes does so whatever follows it (43_decode.md R156). -/
theorem readRecord_append_of_malformed {rtr : Fin 32} {bs : List Byte} (read : readRecord rtr bs = .error .malformed)
    (more : List Byte) : readRecord rtr (bs ++ more) = .error .malformed := by
  by_cases short : bs.length < 5
  · rw [readRecord_of_length_lt short] at read
    cases read
  · obtain ⟨b0, b1, b2, b3, length, rest, rfl⟩ := exists_cons_of_five_le_length (Nat.not_lt.1 short)
    simp only [readRecord_cons, readPayload_eq] at read
    have big : 64 < length.toNat % 128 := by
      by_contra fits
      rw [if_neg fits] at read
      repeat' split at read
      all_goals cases read
    simp only [List.cons_append, readRecord_cons, if_pos big]

/-- The bytes of a record that lack its end read as `Truncated`: if they read as a record, or as one that declares too many
bytes, then so did the whole record (43_decode.md R159). -/
theorem readRecord_take_record {rtr : Fin 32} {f : SigFrame} {k : Nat} (ok : f.ok rtr = true) (cut : k < f.record.length) :
    readRecord rtr (f.record.take k) = .error .truncated := by
  have whole : readRecord rtr (f.record.take k ++ f.record.drop k) = .ok (f, []) := by
    rw [List.take_append_drop]
    simpa using readRecord_record ok []
  match read : readRecord rtr (f.record.take k) with
  | .error st =>
    rcases readRecord_error read with rfl | rfl
    · rfl
    · rw [readRecord_append_of_malformed read] at whole
      cases whole
  | .ok (g, rest) =>
    obtain ⟨okG, front⟩ := readRecord_ok read
    rw [front, List.append_assoc, readRecord_record okG] at whole
    have missing : f.record.drop k = [] := by simp_all
    exact absurd (List.drop_eq_nil_iff.1 missing) (Nat.not_le.2 cut)

end Sys2Proof
end

section
/-! DECODE of a whole datagram (43_decode.md R151, R152, R158 to R162): the header checks (O25), the records before the end
(O26), a datagram cut short (O27), and the counters (O28). -/

namespace Sys2Proof.Machine

/-! ## The header -/

/-- A header with a failing check ends DECODE before its loop (43_decode.md R151, R152). -/
theorem decodeInput_of_checkHeader_some {g : Settings} {h : Header} {st : Status}
    (fails : checkHeader g.version h = some st) (rest : List Byte) (q : Queue) :
    decodeInput g (headerBytes h ++ rest) q = (st, 0, q) := by
  simp only [decodeInput, readHeader_bytes, fails]

/-- A header that passes its checks starts DECODE's loop (43_decode.md R151). -/
theorem decodeInput_of_checkHeader_none {g : Settings} {h : Header} (passes : checkHeader g.version h = none)
    (rest : List Byte) (q : Queue) :
    decodeInput g (headerBytes h ++ rest) q = decodeRecords g.rtrBit h.count.toNat rest 0 q := by
  simp only [decodeInput, readHeader_bytes, passes]

theorem decodeInput_of_length_lt {g : Settings} {input : List Byte} (short : input.length < 5) (q : Queue) :
    decodeInput g input q = (.malformed, 0, q) := by
  simp only [decodeInput, readHeader_none.2 short]

/-- A DECODE that ends at its header counts the status and answers, and nothing else (43_decode.md R152, R162, R163). -/
theorem exec_decode_of_header_failed {s : State} {q : QueueId} {input : List Byte} {st : Status} (ready : s.ready = true)
    (short : input.length ≤ 65535) (failed : decodeInput s.settings input (s.queue q) = (st, 0, s.queue q)) :
    exec (.decode q input) s = .next ((s.count st).plus (decodeEvents st 0)) := by
  rw [exec_decode ready short, State.decode_of_decodeInput failed, State.setQueue_queue]

/-- Settles O25: the input is too short for a header, or its first five bytes are one and the clauses are the outcomes of
`checkHeader`. -/
theorem decodeChecksTheHeaderInOrder : Obligations.DecodeChecksTheHeaderInOrder := by
  intro s q input ready short
  refine ⟨fun noHeader => exec_decode_of_header_failed ready short (decodeInput_of_length_lt noHeader _), ?_⟩
  by_cases header : 5 ≤ input.length
  case neg => exact ⟨fun h => absurd h header, fun h => absurd h header, fun h => absurd h header⟩
  case pos =>
    obtain ⟨v, o, seq, c0, c1, rest, rfl⟩ := exists_cons_of_five_le_length header
    have bytes : v :: o :: seq :: c0 :: c1 :: rest = headerBytes ⟨v, o, seq, be16 c0 c1⟩ ++ rest :=
      headerBytes_of_read rfl
    have failed {st : Status} (fails : checkHeader s.settings.version ⟨v, o, seq, be16 c0 c1⟩ = some st) :
        exec (.decode q (v :: o :: seq :: c0 :: c1 :: rest)) s = .next ((s.count st).plus (decodeEvents st 0)) :=
      exec_decode_of_header_failed ready short (by rw [bytes, decodeInput_of_checkHeader_some fails])
    refine ⟨fun _ version => failed (checkHeader_version version), ?_, ?_⟩
    · rintro - rfl opCode
      exact failed (checkHeader_opCode opCode)
    · rintro - rfl rfl count
      refine failed (st := .malformed) ?_
      rw [show be16 c0 c1 = 0 from count]
      exact checkHeader_noRecord

/-! ## The records before the end -/

/-- The loop of DECODE ends with a status that has no counter in the state or counts in `CNT_MALFORMED` or `CNT_TRUNCATED`
(43_decode.md R162). -/
theorem State.count_of_loop_status (s : State) {st : Status} (loop : st ∈ [Status.ok, .malformed, .truncated, .full]) :
    s.count st = { s with cntMalformed := (s.count st).cntMalformed, cntTruncated := (s.count st).cntTruncated } := by
  simp only [List.mem_cons, List.not_mem_nil, or_false] at loop
  rcases loop with rfl | rfl | rfl | rfl <;> rfl

/-- DECODE leaves in its queue what its loop leaves there. -/
theorem State.decode_queue_same (s : State) (id : QueueId) (input : List Byte) :
    (s.decode id input).queue id = (decodeInput s.settings input (s.queue id)).2.2 := by
  simp [State.decode]

/-- Settles O26: behind a good header DECODE is its loop, of which `decodeRecords_spec` says, by induction on the records to
come, what it appends and why it ends. -/
theorem decodeKeepsTheRecordsBeforeTheEnd : Obligations.DecodeKeepsTheRecordsBeforeTheEnd := by
  intro s q seq c0 c1 bs ready ok count short
  have bytes : s.settings.version :: 0 :: seq :: c0 :: c1 :: bs =
      headerBytes ⟨s.settings.version, Config.opData, seq, be16 c0 c1⟩ ++ bs :=
    headerBytes_of_read rfl
  obtain ⟨fs, rest, -, split, number, -, head, -, content, ending⟩ :=
    decodeRecords_spec s.settings.rtrBit (be16 c0 c1).toNat bs 0 (s.queue q) ok
  have read := decodeInput_of_checkHeader_none (g := s.settings) (checkHeader_good (seq := seq) count) bs (s.queue q)
  rw [← bytes] at read
  generalize decodeRecords s.settings.rtrBit (be16 c0 c1).toNat bs 0 (s.queue q) = r at *
  obtain ⟨st, n, q'⟩ := r
  simp only [Nat.zero_add] at number head content ending
  subst number
  have loop : st ∈ [Status.ok, .malformed, .truncated, .full] := by
    rcases ending with ⟨-, rfl, -⟩ | ⟨-, ⟨_, fails, rfl⟩, -⟩ | ⟨-, -, rfl, -⟩
    · simp
    · rcases readRecord_error fails with rfl | rfl <;> simp
    · simp
  refine ⟨_, fs, rest, st, exec_decode ready (show bs.length + 5 ≤ 65535 by omega), split, ?_⟩
  rw [State.decode_queue_same, read]
  refine ⟨content, head, ?frame, ?ending⟩
  case frame =>
    rw [State.decode_of_decodeInput read]
    exact congrArg (·.plus (decodeEvents st fs.length)) (State.count_of_loop_status _ loop)
  case ending =>
    rcases ending with ⟨all, rfl, -⟩ | ⟨more, ⟨_, fails, rfl⟩, -⟩ | ⟨more, good, rfl, full, -⟩
    · exact .inl ⟨rfl, all⟩
    · exact .inr (.inl ⟨more, fails⟩)
    · exact .inr (.inr ⟨rfl, more, full, good⟩)

/-! ## A datagram cut short -/

theorem recordsOf_cons (f : SigFrame) (fs : List SigFrame) : recordsOf (f :: fs) = f.record ++ recordsOf fs := rfl

/-- The records of frames for which there is room are turns of the loop that append them (43_decode.md R151, R158). -/
theorem decodeRecords_append {rtr : Fin 32} {fs : List SigFrame} {q : Queue} (ok : q.Ok rtr)
    (okFrames : ∀ f ∈ fs, f.ok rtr = true) (room : q.occ + fs.length < q.size) (k n : Nat) (rest : List Byte) :
    ∃ q', q'.content rtr = q.content rtr ++ fs ∧
      decodeRecords rtr (fs.length + k) (recordsOf fs ++ rest) n q = decodeRecords rtr k rest (n + fs.length) q' := by
  induction fs generalizing q n with
  | nil => exact ⟨q, by simp, by simp [recordsOf]⟩
  | cons f fs ih =>
    obtain ⟨okF, okFs⟩ := List.forall_mem_cons.1 okFrames
    rw [List.length_cons] at room
    have notFull : q.isFull = false := by
      rw [← Bool.not_eq_true, Queue.isFull_iff ok.head_lt ok.tail_lt]
      omega
    have oneMore := Queue.occ_publish f ok.head_lt ok.tail_lt notFull
    obtain ⟨q', content, turns⟩ := ih (ok.publish notFull okF) okFs (by rw [oneMore, Queue.publish_size]; omega) (n + 1)
    refine ⟨q', ?_, ?_⟩
    · rw [content, Queue.content_publish rtr f ok.head_lt ok.tail_lt notFull, List.append_assoc]
      rfl
    · calc decodeRecords rtr ((f :: fs).length + k) (recordsOf (f :: fs) ++ rest) n q
        _ = decodeRecords rtr (fs.length + k + 1) (f.record ++ (recordsOf fs ++ rest)) n q := by
          rw [List.length_cons, Nat.add_right_comm, recordsOf_cons, List.append_assoc]
        _ = decodeRecords rtr (fs.length + k) (recordsOf fs ++ rest) (n + 1) (q.publish f) := by
          simp only [decodeRecords, readRecord_record okF, Queue.offer, notFull, Bool.false_eq_true, if_false]
        _ = decodeRecords rtr k rest (n + (f :: fs).length) q' := by
          rw [turns, List.length_cons, Nat.add_assoc, Nat.add_comm 1]

/-- The header of a data datagram, its two count bytes read as one number (30_encoding.md R70, R71). -/
theorem dataHeader_eq_headerBytes (version seq : Byte) (count : Nat) :
    dataHeader version seq count = headerBytes ⟨version, Config.opData, seq, BitVec.ofNat 16 count⟩ := by
  simp only [headerBytes, be16Bytes_ofNat]
  rfl

/-- Settles O27: the complete records are turns of the loop, and the next one reads as `Truncated`. -/
theorem truncatedDatagramKeepsWholeRecords : Obligations.TruncatedDatagramKeepsWholeRecords := by
  intro s q seq fs g k count ready ok okFrames okG cut more counted room short
  obtain ⟨left, rfl⟩ : ∃ left, count = fs.length + (left + 1) := ⟨count - fs.length - 1, by omega⟩
  have number : (BitVec.ofNat 16 (fs.length + (left + 1))).toNat = fs.length + (left + 1) := by
    rw [BitVec.toNat_ofNat]
    omega
  have positive : BitVec.ofNat 16 (fs.length + (left + 1)) ≠ 0 := by
    intro zero
    rw [zero] at number
    simp at number
  obtain ⟨q', content, turns⟩ := decodeRecords_append ok okFrames room (left + 1) 0 (g.record.take k)
  have read : decodeInput s.settings (dataHeader s.settings.version seq (fs.length + (left + 1)) ++ recordsOf fs ++
      g.record.take k) (s.queue q) = (.truncated, fs.length, q') := by
    rw [dataHeader_eq_headerBytes, List.append_assoc, decodeInput_of_checkHeader_none (checkHeader_good positive), number,
      turns, Nat.zero_add, decodeRecords, readRecord_take_record okG cut]
  have fits : (dataHeader s.settings.version seq (fs.length + (left + 1)) ++ recordsOf fs ++ g.record.take k).length ≤
      65535 := by
    simp only [List.length_append, List.length_take, Nat.min_eq_left cut.le]
    exact short
  refine ⟨_, exec_decode ready fits, ?_⟩
  rw [State.decode_queue_same, State.decode_of_decodeInput read, read]
  cases q <;> exact ⟨rfl, content, rfl⟩

/-! ## The counters -/

/-- DECODE's loop counts a drop exactly where it ends with `Full` (43_decode.md R158, R162). -/
theorem decodeRecords_drop (rtr : Fin 32) (k : Nat) (bs : List Byte) (n : Nat) (q : Queue) :
    (decodeRecords rtr k bs n q).2.2.drop = q.drop + if (decodeRecords rtr k bs n q).1 = .full then 1 else 0 := by
  induction k generalizing bs n q with
  | zero => simp [decodeRecords]
  | succ k ih =>
    rcases decodeRecords_succ rtr k bs n q with ⟨st, fails, e⟩ | ⟨_, _, _, _, e⟩ | ⟨f, rest, _, _, e⟩ <;> rw [e]
    · rcases readRecord_error fails with rfl | rfl <;> simp
    · simp
    · exact ih rest (n + 1) (q.publish f)

theorem decodeInput_drop (g : Settings) (input : List Byte) (q : Queue) :
    (decodeInput g input q).2.2.drop = q.drop + if (decodeInput g input q).1 = .full then 1 else 0 := by
  unfold decodeInput
  split
  · simp
  · rename_i h rest _
    rcases checkHeader_cases g.version h with e | e | e | ⟨e, -⟩ <;> simp only [e]
    · simp
    · simp
    · simp
    · exact decodeRecords_drop _ _ _ _ _

/-- Of a queue's registers only the drop counter is one of the seven (10_state.md R30). -/
theorem State.counter_setQueue {s : State} {id : QueueId} {q : Queue} {d : Word32}
    (drop : q.drop = (s.queue id).drop + d) (k : Fin 7) :
    (s.setQueue id q).counter k = s.counter k + if counterOf id .full = some k then d else 0 := by
  cases id with
  | rxq => match k with
    | 0 => exact drop
    | 1 | 2 | 3 | 4 | 5 | 6 => exact (BitVec.add_zero _).symm
  | txq => match k with
    | 1 => exact drop
    | 0 | 2 | 3 | 4 | 5 | 6 => exact (BitVec.add_zero _).symm

/-- The statuses of DECODE but `Full`, whose drop is counted in the queue, count one in their counter
(43_decode.md R162). -/
theorem State.counter_count (s : State) (id : QueueId) {st : Status}
    (status : st ∈ [Status.ok, .malformed, .versionMismatch, .unsupportedOpCode, .truncated]) (k : Fin 7) :
    (s.count st).counter k = s.counter k + if counterOf id st = some k then 1 else 0 := by
  cases st with
  | ok => exact (BitVec.add_zero _).symm
  | malformed => match k with
    | 2 => rfl
    | 0 | 1 | 3 | 4 | 5 | 6 => exact (BitVec.add_zero _).symm
  | versionMismatch => match k with
    | 3 => rfl
    | 0 | 1 | 2 | 4 | 5 | 6 => exact (BitVec.add_zero _).symm
  | unsupportedOpCode => match k with
    | 4 => rfl
    | 0 | 1 | 2 | 3 | 5 | 6 => exact (BitVec.add_zero _).symm
  | truncated => match k with
    | 5 => rfl
    | 0 | 1 | 2 | 3 | 4 | 6 => exact (BitVec.add_zero _).symm
  | full | empty | allocationFailure | badFrame | illegalCommand => simp at status

/-- DECODE counts one in the counter of its status (43_decode.md R162). -/
theorem State.counter_decode (s : State) (id : QueueId) (input : List Byte) (k : Fin 7) :
    (s.decode id input).counter k =
      s.counter k + if counterOf id (decodeInput s.settings input (s.queue id)).1 = some k then 1 else 0 := by
  have status := decodeInput_status s.settings input (q := s.queue id)
  have drop := decodeInput_drop s.settings input (s.queue id)
  generalize read : decodeInput s.settings input (s.queue id) = r at *
  obtain ⟨st, n, q⟩ := r
  rw [State.decode_of_decodeInput read]
  show ((s.setQueue id q).count st).counter k = _
  by_cases full : st = .full
  · subst full
    exact State.counter_setQueue drop k
  · rw [if_neg full] at drop
    rw [State.counter_count _ id (by simpa [full] using status), State.counter_setQueue drop, ite_self, add_zero]

/-- Settles O28: DECODE answers its status, and `State.counter_decode` says which counter moves. -/
theorem oneCounterPerFailedDecode : Obligations.OneCounterPerFailedDecode := by
  intro s q input ready short
  refine ⟨_, (decodeInput s.settings input (s.queue q)).1, (decodeInput s.settings input (s.queue q)).2.1,
    exec_decode ready short, ?_, s.counter_decode q input⟩
  rw [State.decode, State.endDecode_events, State.setQueue_events, decodeEvents]

end Sys2Proof.Machine
end

section
/-! One step: the releases and the answers of DECODE that it puts out (O29), and the wire item at the cursor of an open
DECODE (O52). -/

namespace Sys2Proof.Machine

/-! ## Releases and answers of DECODE -/

/-- From `s` to `t` as many buffers were released as DECODEs were answered (43_decode.md R163). -/
def Balanced (s t : State) : Prop :=
  releaseCount t.events + decodedCount s.events = releaseCount s.events + decodedCount t.events

theorem Balanced.trans {s t u : State} (h1 : Balanced s t) (h2 : Balanced t u) : Balanced s u := by
  unfold Balanced at *
  omega

theorem Balanced.of_events_eq {s t : State} (h : t.events = s.events) : Balanced s t := by
  rw [Balanced, h]

theorem Balanced.refl (s : State) : Balanced s s := .of_events_eq rfl

/-- What is put out between two states balances where it balances in itself. -/
theorem Balanced.of_events_append {s t : State} {es : List Event} (h : t.events = s.events ++ es)
    (even : releaseCount es = decodedCount es) : Balanced s t := by
  simp only [Balanced, h, releaseCount, decodedCount, List.countP_append] at even ⊢
  omega

/-- An event that is neither a release nor an answer of DECODE. -/
theorem State.emit_balanced (s : State) {e : Event} (neutral : releaseCount [e] = decodedCount [e]) :
    Balanced s (s.emit e) :=
  .of_events_append rfl neutral

/-- The end of a DECODE puts out one of each (43_decode.md R163). -/
theorem State.endDecode_balanced (s : State) (st : Status) (n : Nat) : Balanced s (s.endDecode st n) :=
  .of_events_append (s.endDecode_events st n) rfl

theorem State.decode_balanced (s : State) (id : QueueId) (input : List Byte) : Balanced s (s.decode id input) :=
  (Balanced.of_events_eq (s.setQueue_events id _)).trans (State.endDecode_balanced _ _ _)

/-! ## The commands -/

theorem State.netTurns_balanced (s : State) (ts : List Agent) : Balanced s (s.netTurns ts) := by
  induction ts generalizing s with
  | nil => exact .of_events_eq rfl
  | cons a ts ih =>
    cases a with
    | tick => exact .of_events_eq rfl
    | net =>
      simp only [State.netTurns]
      split
      · exact ih s
      · split
        · rename_i d ds _ _
          exact (State.decode_balanced { s with inbound := ds } .txq d).trans (ih _)
        · exact .of_events_eq rfl

theorem State.cutIn_balanced (s : State) : Balanced s s.cutIn := by
  unfold State.cutIn
  split
  · exact .refl s
  · exact s.netTurns_balanced s.turns

theorem State.encode_balanced (s : State) (id : QueueId) (limit : Nat) : Balanced s (s.encode id limit).2 := by
  rcases s.encode_cases id limit with ⟨-, e⟩ | ⟨-, e⟩ <;> rw [e]
  · exact .refl s
  · exact .of_events_eq (s.setQueue_events id _)

theorem State.txStep_balanced (s : State) : Balanced s s.txStep := by
  have taken (t : State) (accepted : Bool) : Balanced t (t.takeIf accepted) := by
    cases accepted <;> exact .of_events_eq rfl
  rcases s.txStep_cases with ⟨-, e⟩ | ⟨-, -, e⟩ <;> rw [e]
  · exact .refl s
  · have drawn : Balanced s s.drawn.drawAccepted.2 := .of_events_eq (by rw [State.drawAccepted_same, State.drawn_events])
    exact ((drawn.trans (State.emit_balanced _ rfl)).trans (State.cutIn_balanced _)).trans (taken _ _)

theorem State.enqueueAll_balanced (s : State) (fs : List Frame) : Balanced s (s.enqueueAll fs) := by
  induction fs generalizing s with
  | nil => exact .refl s
  | cons f fs ih =>
    have enqueued : Balanced s { s with rxq := (s.rxq.enqueue s.settings.rtrBit f).2 } := .of_events_eq rfl
    exact (enqueued.trans (State.cutIn_balanced _)).trans (ih _)

theorem State.rxStep_balanced (s : State) : Balanced s s.rxStep := by
  unfold State.rxStep
  split
  · exact .refl s
  · have drawn : Balanced s s.drawBusFrames.2 := .of_events_eq (by rw [State.drawBusFrames_same])
    exact (drawn.trans (State.emit_balanced _ rfl)).trans (State.enqueueAll_balanced _ _)

theorem State.flushLoop_balanced (s : State) (fuel : Nat) : Balanced s (s.flushLoop fuel) := by
  induction fuel generalizing s with
  | zero => exact .refl s
  | succ fuel ih =>
    have drawn : Balanced s s.drawBufAvail.2 := .of_events_eq (by rw [State.drawBufAvail_same])
    have encoded := drawn.trans (State.encode_balanced _ .rxq s.drawBufAvail.2.settings.mtuLimit.toNat)
    simp only [State.flushLoop]
    split
    · exact .refl s
    · split
      · exact drawn.trans (.of_events_eq (State.count_events _ _))
      · split
        · exact encoded
        · exact ((encoded.trans (State.emit_balanced _ rfl)).trans (State.cutIn_balanced _)).trans (ih _)

theorem State.tickStep_balanced (s : State) : Balanced s s.tickStep := by
  have advanced (t : State) : Balanced t t.advance := .of_events_eq rfl
  have tx := (s.txStep_balanced.trans (State.cutIn_balanced _)).trans (advanced _)
  have rx := ((tx.trans (State.rxStep_balanced _)).trans (State.cutIn_balanced _)).trans (advanced _)
  exact (rx.trans (State.flushLoop_balanced _ _)).trans (advanced _)

/-! ## The wire rows -/

theorem onHeader_balanced {h : Header} {s t : State} (e : onHeader h s = .next t) : Balanced s t := by
  obtain ⟨d, -, -, rfl⟩ := onHeader_next e
  rcases s.acceptHeader_cases d h with ⟨st, -, e⟩ | ⟨-, e⟩ <;> rw [e]
  · exact State.endDecode_balanced _ _ _
  · exact .of_events_eq rfl

theorem onRecord_balanced {f : SigFrame} {s t : State} (e : onRecord f s = .next t) : Balanced s t := by
  obtain ⟨d, count, index, -, -, rfl | ⟨-, rfl⟩⟩ := onRecord_next e
  · exact State.endDecode_balanced _ _ _
  · rcases s.acceptRecord_cases d count index f with ⟨st, -, n, e⟩ | ⟨-, e⟩ <;> rw [e]
    · exact State.endDecode_balanced _ _ _
    · exact .of_events_eq rfl

/-! ## Every instruction, and the step -/

/-- An operation that runs where the block is initialised and gives another answer than DECODE's. -/
theorem Balanced.answered {s u t : State} {r : Response} (h : Balanced s u)
    (e : s.whenReady (.next (u.answer r)) = .next t)
    (neutral : releaseCount [.response r] = decodedCount [.response r]) : Balanced s t := by
  obtain ⟨-, e⟩ := State.whenReady_next e
  cases e
  exact h.trans (u.emit_balanced neutral)

theorem exec_balanced {i : Instr} {s t : State} (e : exec i s = .next t) : Balanced s t := by
  cases i with
  | init c =>
    obtain ⟨-, -, -, rfl⟩ := exec_init_eq_next_iff.1 e
    exact State.emit_balanced (s.initWith c) rfl
  | hdrData | hdrAck | hdrNack | hdrReserved => exact onHeader_balanced e
  | recClassicData | recClassicRtr | recFdData | recFdRtr => exact onRecord_balanced e
  | reservedOp0 | reservedOpC | reservedOpD | reservedOpE | reservedRdcnt7 | efflen | isfd =>
    cases e
    exact s.emit_balanced rfl
  | isrtr | wiresize | stat | rdcnt => exact (Balanced.refl s).answered e rfl
  | record f =>
    obtain ⟨-, e⟩ := State.whenReady_next e
    split at e <;> cases e
    · exact s.emit_balanced rfl
    · exact s.drawn.emit_balanced rfl
  | peek q =>
    obtain ⟨-, e⟩ := State.whenReady_next e
    split at e <;> cases e <;> exact s.drawn.emit_balanced rfl
  | deq q =>
    obtain ⟨-, e⟩ := State.whenReady_next e
    split at e <;> cases e
    · exact s.drawn.emit_balanced rfl
    · exact (Balanced.of_events_eq (s.setQueue_events q _)).trans (State.emit_balanced _ rfl)
  | enq q f => exact (Balanced.of_events_eq (s.setQueue_events q _)).answered e rfl
  | encode q m => exact (s.encode_balanced q m.toNat).answered e rfl
  | decode q input =>
    obtain ⟨-, e⟩ := State.whenReady_next e
    split at e <;> cases e
    exact s.decode_balanced q input
  | txstep => exact s.txStep_balanced.answered e rfl
  | rxstep => exact s.rxStep_balanced.answered e rfl
  | flush => exact (s.flushLoop_balanced _).answered e rfl
  | tick => exact s.tickStep_balanced.answered e rfl

/-- Settles O29: the fetch puts nothing out, and what a step does after it is balanced. -/
theorem everyDecodeReleasesOnce : Obligations.EveryDecodeReleasesOnce := by
  intro s t h
  obtain ⟨u, fetched, ran⟩ := step_cases h
  have quiet : Balanced s u := .of_events_eq (by rw [fetched.same])
  refine quiet.trans ?_
  rcases ran with ⟨i, e⟩ | ⟨st, n, rfl⟩ | rfl | rfl
  · exact exec_balanced e
  · exact u.endDecode_balanced st n
  · exact u.emit_balanced rfl
  · exact .refl _

/-! ## The wire item at the cursor -/

/-- A DECODE in progress goes on before anything else (20_memory.md R59). -/
theorem State.fetch_of_session {s : State} {d : Session} (ready : s.ready = true) (opened : s.session = some d) :
    s.fetch = s.fetchWire d := by
  simp only [State.fetch, opened, ready, if_true]

section
variable {s : State} {d : Session} (ready : s.ready = true) (opened : s.session = some d)
include ready opened

/-- A step of an open DECODE runs the row that its bytes read as. -/
theorem step_of_fetchWire_run {i : Instr} {u : State} (fetched : s.fetchWire d = .run i u) : step s = exec i u := by
  rw [step, State.fetch_of_session ready opened, fetched]

/-- Where the bytes of an open DECODE read as no row, it ends with the status of the check (43_decode.md R151). -/
theorem step_of_fetchWire_fail {st : Status} (fetched : s.fetchWire d = .fail st d.enqueued { s with session := none }) :
    step s = .next (({ s with session := none }.count st).plus (decodeEvents st d.enqueued)) := by
  rw [step, State.fetch_of_session ready opened, fetched, ← State.endDecode_eq_plus]

end

theorem State.fetchWire_record_error (s : State) {d : Session} {c k : Nat} {st : Status} (inLoop : d.stage = .records c k)
    (fails : readRecord s.settings.rtrBit d.rest = .error st) :
    s.fetchWire d = .fail st d.enqueued { s with session := none } := by
  simp only [State.fetchWire, inLoop, fails]

/-- Settles O52: by the stage of the open DECODE and what its bytes read as. -/
theorem stepRunsTheWireItemAtTheCursor : Obligations.StepRunsTheWireItemAtTheCursor := by
  intro s d ready opened
  refine ⟨?header, ?noHeader, ?record, fun c k inLoop fails => ?truncated, fun c k inLoop fails => ?malformed⟩
  case header =>
    intro atHeader h rest read
    exact step_of_fetchWire_run ready opened (by simp only [State.fetchWire, atHeader, read])
  case noHeader =>
    intro atHeader short
    exact step_of_fetchWire_fail ready opened (st := .malformed)
      (by simp only [State.fetchWire, atHeader, readHeader_none.2 short])
  case record =>
    intro c k inLoop f rest read
    exact step_of_fetchWire_run ready opened (by simp only [State.fetchWire, inLoop, read])
  case truncated => exact step_of_fetchWire_fail ready opened (s.fetchWire_record_error inLoop fails)
  case malformed => exact step_of_fetchWire_fail ready opened (s.fetchWire_record_error inLoop fails)

end Sys2Proof.Machine
end

section
/-! An inbound datagram, run item by item, is one DECODE of it into TXQ (44_scheduler.md R182; log 10, log 11): O33, and the
step that opens or waits, O53. -/

namespace Sys2Proof.Machine

/-! ## The turn of the network-receive agent -/

/-- The step that is the network-receive agent's opens a DECODE of the next inbound datagram (44_scheduler.md R182). -/
theorem step_opens_inbound {s : State} {d : List Byte} {ds : List (List Byte)} {ts : List Agent} (ready : s.ready = true)
    (closed : s.session = none) (turns : s.turns = .net :: ts) (inbound : s.inbound = d :: ds)
    (short : d.length ≤ Config.maxDgram) :
    step s = .next { s with turns := ts, inbound := ds, session := some ⟨d.length, d, .header, 0⟩ } := by
  have fetched : s.fetch = { s with turns := ts }.fetchInbound := by simp only [State.fetch, closed, turns]
  rw [step, fetched]
  simp only [State.fetchInbound, inbound, ready, Bool.not_true, Bool.false_eq_true, if_false, if_pos short]

/-- With no turn, no request byte and no datagram the block waits (70_reset_and_hazards.md R232; log 11). -/
theorem step_waits {s : State} (closed : s.session = none) (turns : s.turns = []) (request : s.request = [])
    (inbound : s.inbound = []) : step s = .next s := by
  rw [step, State.fetch_of_no_turn closed turns]
  simp only [State.fetchUnscheduled, State.fetchCommand, request, decodeCommand, State.fetchInbound, inbound]

/-- Settles O53: the two clauses are `step_opens_inbound` and `step_waits`. -/
theorem stepOpensInboundOrWaits : Obligations.StepOpensInboundOrWaits := by
  intro s closed
  exact ⟨fun ts d ds ready turns inbound short => step_opens_inbound ready closed turns inbound short,
    fun turns request inbound => step_waits closed turns request inbound⟩

/-! ## Runs -/

/-- Some number of steps leads from `s` to `t`. -/
def Runs (s t : State) : Prop := ∃ k, Host.Core.run Sys2Proof.core k s = .next t

theorem Runs.refl (s : State) : Runs s s := ⟨0, rfl⟩

/-- One step, and then some more. -/
theorem Runs.head {s u t : State} (first : step s = .next u) (later : Runs u t) : Runs s t := by
  obtain ⟨k, run⟩ := later
  have first : Sys2Proof.core.step s = .next u := first
  exact ⟨k + 1, by simp only [Host.Core.run, first, run]⟩

theorem Runs.single {s t : State} (h : step s = .next t) : Runs s t := .head h (.refl t)

/-! ## The items of an open DECODE -/

/-- A header that passes its checks announces a record (43_decode.md R151 check 4). -/
theorem count_pos_of_checkHeader_none {version : Byte} {h : Header} (passes : checkHeader version h = none) :
    0 < h.count.toNat := by
  rcases checkHeader_cases version h with e | e | e | ⟨-, -, -, count⟩
  · cases passes.symm.trans e
  · cases passes.symm.trans e
  · cases passes.symm.trans e
  · exact Nat.pos_of_ne_zero fun zero => count (BitVec.eq_of_toNat_eq zero)

/-- The end of the DECODE in progress with the outcome `r` of its loop: the status, `frames_enqueued` and TXQ
(43_decode.md R151). -/
def State.closeDecode (s : State) (r : Status × Nat × Queue) : State :=
  { s with session := none, txq := r.2.2 }.endDecode r.1 r.2.1

/-- DECODE as one operation ends as a DECODE in progress does. -/
theorem State.closeDecode_decodeInput {s : State} (closed : s.session = none) (input : List Byte) :
    s.closeDecode (decodeInput s.settings input s.txq) = s.decode .txq input := by
  rw [State.closeDecode, ← closed]
  rfl

theorem exec_headerInstr (h : Header) : exec (headerInstr h) = onHeader h := by
  obtain ⟨v, op, seq, count⟩ := h
  by_cases data : op = Config.opData
  · subst data; rfl
  by_cases ack : op = Config.opAck
  · subst ack; rfl
  by_cases nack : op = Config.opNack
  · subst nack; rfl
  simp only [headerInstr, if_neg data, if_neg ack, if_neg nack]
  rfl

/-- A turn of the loop leaves a session of its own: it does not read the one in the state. -/
theorem State.acceptRecord_session (s : State) (x : Option Session) (d : Session) (count index : Nat) (f : SigFrame) :
    { s with session := x }.acceptRecord d count index f = s.acceptRecord d count index f := by
  cases room : s.txq.isFull with
  | true => rw [State.acceptRecord_full room, State.acceptRecord_full (by exact room)]
  | false => rw [State.acceptRecord_room room, State.acceptRecord_room (by exact room)]

section
variable {s : State} {total n count index : Nat} {bs : List Byte} (ready : s.ready = true)
include ready

/-- Bytes that give no header or no record end the DECODE with the status of the check and TXQ as it is. -/
theorem step_closes_of_fail {d : Session} {st : Status} (opened : s.session = some d)
    (fetched : s.fetchWire d = .fail st d.enqueued { s with session := none }) :
    step s = .next (s.closeDecode (st, d.enqueued, s.txq)) := by
  rw [step_of_fetchWire_fail ready opened fetched, ← State.endDecode_eq_plus]
  rfl

section
variable (inLoop : s.session = some ⟨total, bs, .records count index, n⟩)
include inLoop

/-- A record at the cursor is one turn of the loop. -/
theorem step_of_record {f : SigFrame} {rest : List Byte} (read : readRecord s.settings.rtrBit bs = .ok (f, rest)) :
    step s = .next (s.acceptRecord ⟨total, rest, .records count index, n⟩ count index f) := by
  have ok := (readRecord_ok read).1
  obtain ⟨-, -, record, -, -⟩ := stepRunsTheWireItemAtTheCursor s _ ready inLoop
  rw [record count index rfl f rest read, exec_of_recordOf (recordOf_recordInstr ok),
    ← s.acceptRecord_session (some ⟨total, rest, .records count index, n⟩)]
  exact onRecord_of_ok ready rfl ok

/-- A record that meets a full queue ends the DECODE (43_decode.md R158). -/
theorem step_of_record_full {f : SigFrame} {rest : List Byte} (read : readRecord s.settings.rtrBit bs = .ok (f, rest))
    (full : s.txq.isFull = true) :
    step s = .next (s.closeDecode (.full, n, { s.txq with drop := s.txq.drop + 1 })) := by
  rw [step_of_record ready inLoop read, State.acceptRecord_full full, State.closeDecode, State.endDecode_eq_plus]
  rfl

/-- The last record, with room for it, ends the DECODE with `Ok` (43_decode.md R151). -/
theorem step_of_record_last {f : SigFrame} {rest : List Byte} (read : readRecord s.settings.rtrBit bs = .ok (f, rest))
    (room : s.txq.isFull = false) (last : ¬ index + 1 < count) :
    step s = .next (s.closeDecode (.ok, n + 1, s.txq.publish f)) := by
  rw [step_of_record ready inLoop read, State.acceptRecord_room room, if_neg last, State.closeDecode,
    State.endDecode_eq_plus]
  rfl

/-- A record with room for it and others to come leaves the loop at the next one (43_decode.md R159). -/
theorem step_of_record_next {f : SigFrame} {rest : List Byte} (read : readRecord s.settings.rtrBit bs = .ok (f, rest))
    (room : s.txq.isFull = false) (more : index + 1 < count) :
    step s = .next { s with
      txq := s.txq.publish f, session := some ⟨total, rest, .records count (index + 1), n + 1⟩ } := by
  rw [step_of_record ready inLoop read, State.acceptRecord_room room, if_pos more]

end

end

/-- The loop of a DECODE in progress, record by record, ends as the loop of the one operation does: the turns of
`decodeRecords` are the steps. -/
theorem runs_decodeRecords (k : Nat) {s : State} {total n count index : Nat} {bs : List Byte} (ready : s.ready = true)
    (inLoop : s.session = some ⟨total, bs, .records count index, n⟩) (left : count = index + (k + 1)) :
    Runs s (s.closeDecode (decodeRecords s.settings.rtrBit (k + 1) bs n s.txq)) := by
  induction k generalizing s n index bs with
  | zero =>
    rcases decodeRecords_succ s.settings.rtrBit 0 bs n s.txq with
      ⟨st, fails, e⟩ | ⟨f, rest, read, full, e⟩ | ⟨f, rest, read, room, e⟩ <;> rw [e]
    · exact .single (step_closes_of_fail ready inLoop (s.fetchWire_record_error rfl fails))
    · exact .single (step_of_record_full ready inLoop read full)
    · exact .single (step_of_record_last ready inLoop read room (by omega))
  | succ k ih =>
    rcases decodeRecords_succ s.settings.rtrBit (k + 1) bs n s.txq with
      ⟨st, fails, e⟩ | ⟨f, rest, read, full, e⟩ | ⟨f, rest, read, room, e⟩ <;> rw [e]
    · exact .single (step_closes_of_fail ready inLoop (s.fetchWire_record_error rfl fails))
    · exact .single (step_of_record_full ready inLoop read full)
    · exact .head (step_of_record_next ready inLoop read room (by omega))
        (ih (s := { s with
          txq := s.txq.publish f, session := some ⟨total, rest, .records count (index + 1), n + 1⟩ })
          ready rfl (by omega))

/-- A DECODE that stands before its header ends as the one operation does. -/
theorem runs_decodeInput {s : State} {total : Nat} {input : List Byte} (ready : s.ready = true)
    (opened : s.session = some ⟨total, input, .header, 0⟩) :
    Runs s (s.closeDecode (decodeInput s.settings input s.txq)) := by
  cases read : readHeader input with
  | none =>
    rw [decodeInput_of_length_lt (readHeader_none.1 read)]
    exact .single (step_closes_of_fail ready opened (by simp only [State.fetchWire, read]))
  | some r =>
    obtain ⟨h, rest⟩ := r
    have atHeader : step s = onHeader h { s with session := some ⟨total, rest, .header, 0⟩ } := by
      obtain ⟨header, -, -, -, -⟩ := stepRunsTheWireItemAtTheCursor s _ ready opened
      rw [header rfl h rest read, exec_headerInstr]
    rw [headerBytes_of_read read]
    cases check : checkHeader s.settings.version h with
    | some st =>
      rw [decodeInput_of_checkHeader_some check]
      exact .single (atHeader.trans (onHeader_of_checkHeader_some ready rfl check))
    | none =>
      obtain ⟨k, count⟩ := Nat.exists_eq_add_one.2 (count_pos_of_checkHeader_none check)
      rw [decodeInput_of_checkHeader_none check, count]
      refine .head (atHeader.trans (onHeader_of_checkHeader_none ready rfl check)) ?_
      exact runs_decodeRecords k
        (s := { s with session := some ⟨total, rest, .records h.count.toNat 0, 0⟩ }) ready rfl (by omega)

/-- Settles O33: the first step opens the DECODE, `runs_decodeInput` runs its items, and it leaves no DECODE in progress,
as there was none before. -/
theorem inboundDatagramRunsAsDecode : Obligations.InboundDatagramRunsAsDecode := by
  intro s d ds ts ready closed turns inbound short
  obtain ⟨k, run⟩ := Runs.head (step_opens_inbound ready closed turns inbound short) (runs_decodeInput ready rfl)
  refine ⟨k, _, run, ?_⟩
  rw [exec_decode (s := { s with inbound := ds, turns := ts }) ready short,
    ← State.closeDecode_decodeInput (s := { s with inbound := ds, turns := ts }) closed]
  rfl

end Sys2Proof.Machine
end

section
/-! The commands of the scheduler (44_scheduler.md R186 to R195): what each answers, that all complete (O39), what is idle
(O36, O41), and the counters read (O44). -/

namespace Sys2Proof.Machine

/-! ## What each command answers -/

section
variable {s : State} (ready : s.ready = true)
include ready

theorem exec_txstep : exec .txstep s = .next (s.txStep.plus [.response .done]) := State.whenReady_ready ready _

theorem exec_rxstep : exec .rxstep s = .next (s.rxStep.plus [.response .done]) := State.whenReady_ready ready _

theorem exec_flush : exec .flush s = .next (s.flushStep.plus [.response .done]) := State.whenReady_ready ready _

theorem exec_tick : exec .tick s = .next (s.tickStep.plus [.response .done]) := State.whenReady_ready ready _

theorem exec_rdcnt (k : Fin 7) : exec (.rdcnt k) s = .next (s.plus [.response (.counter (s.counter k))]) :=
  State.whenReady_ready ready _

/-- Each of the four commands is a step of the scheduler, which keeps what such a step keeps and `PHASE`, and then `Ok`
(44_scheduler.md R189, R190). -/
theorem exec_scheduler {i : Instr} (hi : i ∈ [Instr.txstep, .rxstep, .flush, .tick]) :
    ∃ u, exec i s = .next (u.plus [.response .done]) ∧ Kept s u ∧ u.phase = s.phase := by
  simp only [List.mem_cons, List.not_mem_nil, or_false] at hi
  rcases hi with rfl | rfl | rfl | rfl
  · exact ⟨_, exec_txstep ready, s.txStep_kept, s.txStep_phase⟩
  · exact ⟨_, exec_rxstep ready, s.rxStep_kept, s.rxStep_phase⟩
  · exact ⟨_, exec_flush ready, s.flushStep_kept, s.flushLoop_phase _⟩
  · exact ⟨_, exec_tick ready, s.tickStep_kept, s.tickStep_phase⟩

end

/-- Settles O39: `exec_scheduler` is total, and `Kept` says what stays. -/
theorem schedulerCommandsAlwaysComplete : Obligations.SchedulerCommandsAlwaysComplete := by
  intro s i ready hi
  obtain ⟨u, runs, kept, phase⟩ := exec_scheduler ready hi
  obtain ⟨es, put, -⟩ := kept.events
  exact ⟨_, es, runs, congrArg (· ++ [Event.response .done]) put, kept.ready.trans ready, kept.settings, kept.session,
    kept.request, phase, kept.rxq_size, kept.txq_size⟩

/-! ## Idle steps -/

theorem State.txStep_of_empty {s : State} (empty : s.txq.isEmpty = true) : s.txStep = s := by
  simp [State.txStep, empty]

theorem State.txStep_of_no_bus {s : State} (noBus : s.settings.busAttached = false) : s.txStep = s := by
  simp [State.txStep, noBus]

theorem State.rxStep_of_no_bus {s : State} (noBus : s.settings.busAttached = false) : s.rxStep = s := by
  simp [State.rxStep, noBus]

/-- Settles O36: each step ends at its first test, before any draw. -/
theorem idleBusStepsChangeNothing : Obligations.IdleBusStepsChangeNothing := by
  intro s ready
  refine ⟨fun empty => ?_, fun noBus => ⟨?_, ?_⟩⟩
  · rw [exec_txstep ready, State.txStep_of_empty empty]
  · rw [exec_txstep ready, State.txStep_of_no_bus noBus]
  · rw [exec_rxstep ready, State.rxStep_of_no_bus noBus]

theorem State.flushLoop_of_empty {s : State} (empty : s.rxq.isEmpty = true) (fuel : Nat) : s.flushLoop fuel = s := by
  cases fuel with
  | zero => rfl
  | succ fuel => simp only [State.flushLoop, empty, if_true]

theorem State.drawBufAvail_of_cons {s : State} {b : Bool} {bs : List Bool} (answers : s.bufAvail = b :: bs) :
    s.drawBufAvail = (b, { s with bufAvail := bs }) := by
  simp only [State.drawBufAvail, answers]

/-- Without a buffer FLUSH counts one failure and stops (44_scheduler.md R188). -/
theorem State.flushLoop_of_no_buffer {s : State} {bs : List Bool} (held : s.rxq.isEmpty = false)
    (answers : s.bufAvail = false :: bs) (fuel : Nat) :
    s.flushLoop (fuel + 1) = { s with cntAlloc := s.cntAlloc + 1, bufAvail := bs } := by
  simp only [State.flushLoop, held, State.drawBufAvail_of_cons answers, Bool.false_eq_true, if_false, Bool.not_false,
    if_true]
  rfl

/-- Settles O41: the loop ends at its first test, or at the draw of the buffer. -/
theorem flushSkipsWithoutBuffer : Obligations.FlushSkipsWithoutBuffer := by
  intro s ready
  rw [exec_flush ready, State.flushStep]
  refine ⟨fun empty => ?_, fun bs held answers => ?_⟩
  · rw [State.flushLoop_of_empty empty]
  · rw [State.flushLoop_of_no_buffer held answers]
    rfl

/-! ## The counters -/

/-- Settles O44: RDCNT answers `State.counter`, and the row of index 7 is a reserved one. -/
theorem rdcntReadsTheCounter : Obligations.RdcntReadsTheCounter := by
  intro s ready
  exact ⟨exec_rdcnt ready 0, exec_rdcnt ready 1, exec_rdcnt ready 2, exec_rdcnt ready 3, exec_rdcnt ready 4,
    exec_rdcnt ready 5, exec_rdcnt ready 6, rfl⟩

end Sys2Proof.Machine
end

section
/-! FLUSH with buffers available (44_scheduler.md R188, R192; 42_encode.md R141): O40. -/

namespace Sys2Proof.Machine

/-! ## Greedy grouping -/

/-- A group before greedy groups is one of them where its next frame would not have fitted (42_encode.md R141). -/
theorem Greedy.cons {limit : Nat} {g : List SigFrame} {gs : List (List SigFrame)} (nonempty : g ≠ [])
    (fits : 5 + (recordsOf g).length ≤ limit)
    (next : ∀ f rest, gs.flatten = f :: rest → limit < 5 + (recordsOf g).length + f.record.length)
    (later : Greedy limit gs) : Greedy limit (g :: gs) := by
  cases gs with
  | nil => exact ⟨nonempty, fits⟩
  | cons g' gs =>
    refine ⟨nonempty, fits, fun f hf => ?_, later⟩
    obtain ⟨rest, rfl⟩ := List.head?_eq_some_iff.1 hf
    exact next f (rest ++ gs.flatten) rfl

/-! ## One datagram -/

/-- The state after the first `n` frames of RXQ were sent as one datagram, for which the answer of the first buffer was
used up (44_scheduler.md R188). -/
def State.sendFront (s : State) (n : Nat) : State :=
  { s.plus [.send (datagramOf s.settings.version s.seq ((s.rxq.content s.settings.rtrBit).take n))] with
    rxq := { s.rxq with head := (s.rxq.head + n) % s.rxq.size }, seq := s.seq + 1, bufAvail := s.bufAvail.tail }

section
variable {s : State} (ok : s.rxq.Ok s.settings.rtrBit)
include ok

/-- With a limit of at least 75 the frame at the head of RXQ fits, so ENCODE takes some frames
(70_reset_and_hazards.md R243). -/
theorem State.batchOf_count_ne_zero {limit : Nat} (live : 75 ≤ limit) (held : s.rxq.isEmpty = false) :
    (s.batchOf .rxq limit).count ≠ 0 := by
  intro nothing
  have spec := State.batchOf_spec (id := .rxq) ok limit
  have front := Queue.content_pop s.settings.rtrBit ok.head_lt ok.tail_lt held
  have blocked := spec.next_does_not_fit ok (by rw [nothing]; exact front)
  rw [nothing, SigFrame.record_length_ok (ok.front_ok held)] at blocked
  have small := SigFrame.wireSize_le (ok.front_ok held)
  simp only [List.take_zero, recordsOf, List.flatMap_nil, List.length_nil, Config.hdrSize] at blocked
  omega

/-- ENCODE of RXQ where its batch holds frames: their datagram is put out, `head` moves past them and `SEQ` by one
(42_encode.md R133, R136, R137). -/
theorem State.encode_rxq_of_count {limit : Nat} (taken : (s.batchOf .rxq limit).count ≠ 0) :
    let n := (s.batchOf .rxq limit).count
    (s.encode .rxq limit).1.framesConsumed = n ∧
    (s.encode .rxq limit).1.out = datagramOf s.settings.version s.seq ((s.rxq.content s.settings.rtrBit).take n) ∧
    (s.encode .rxq limit).2 =
      { s with rxq := { s.rxq with head := (s.rxq.head + n) % s.rxq.size }, seq := s.seq + 1 } := by
  have spec := State.batchOf_spec (id := .rxq) ok limit
  obtain ⟨-, e⟩ := (s.encode_cases .rxq limit).resolve_left fun h => taken h.1
  refine ⟨by rw [e], by rw [e, spec.datagram_eq, encodedDatagram_eq_datagramOf]; rfl, ?_⟩
  rw [e, spec.queue_eq]
  rfl

/-- One turn of FLUSH's loop with a frame in RXQ, a buffer, and a batch that holds frames. -/
theorem State.flushLoop_sends (cooperative : s.settings.discipline = .cooperative) {bs : List Bool}
    (held : s.rxq.isEmpty = false) (answers : s.bufAvail = true :: bs)
    (taken : (s.batchOf .rxq s.settings.mtuLimit.toNat).count ≠ 0) (fuel : Nat) :
    s.flushLoop (fuel + 1) =
      (s.sendFront (s.batchOf .rxq s.settings.mtuLimit.toNat).count).flushLoop fuel := by
  obtain ⟨consumed, out, moved⟩ := State.encode_rxq_of_count (s := { s with bufAvail := bs }) ok taken
  have sent : ((({ s with bufAvail := bs } : State).encode .rxq s.settings.mtuLimit.toNat).2.emit
      (.send (({ s with bufAvail := bs } : State).encode .rxq s.settings.mtuLimit.toNat).1.out)) =
      s.sendFront (s.batchOf .rxq s.settings.mtuLimit.toNat).count := by
    rw [out, moved, State.sendFront, answers]
    rfl
  simp only [State.flushLoop, held, State.drawBufAvail_of_cons answers, Bool.false_eq_true, if_false, Bool.not_true]
  rw [consumed, if_neg (by exact taken), sent, State.cutIn_cooperative (by exact cooperative)]

/-- What is left in RXQ after a datagram: the frames behind those it carries, fewer than before. -/
theorem State.sendFront_rxq {limit : Nat} :
    let t := s.sendFront (s.batchOf .rxq limit).count
    t.rxq.Ok s.settings.rtrBit ∧
    t.rxq.content s.settings.rtrBit = (s.rxq.content s.settings.rtrBit).drop (s.batchOf .rxq limit).count ∧
    t.rxq.occ = s.rxq.occ - (s.batchOf .rxq limit).count := by
  have spec := State.batchOf_spec (id := .rxq) ok limit
  have okLeft := spec.ok
  have left := spec.content_eq_drop
  rw [spec.queue_eq] at okLeft left
  refine ⟨okLeft, left, ?_⟩
  rw [← Queue.content_length s.settings.rtrBit, ← Queue.content_length s.settings.rtrBit s.rxq, ← List.length_drop]
  exact congrArg List.length left

end

/-! ## All datagrams -/

/-- The state after all frames of RXQ were sent, in these groups. -/
def State.sendGroups (s : State) (groups : List (List SigFrame)) : State :=
  { s.plus ((datagramsOf s.settings.version s.seq groups).map Event.send) with
    rxq := { s.rxq with head := s.rxq.tail }, seq := s.seq + BitVec.ofNat 8 groups.length,
    bufAvail := s.bufAvail.drop groups.length }

theorem State.sendGroups_nil {s : State} (empty : s.rxq.isEmpty = true) : s.sendGroups [] = s := by
  have same : { s.rxq with head := s.rxq.tail } = s.rxq := by
    rw [← show s.rxq.head = s.rxq.tail from beq_iff_eq.1 empty]
  simp [State.sendGroups, State.plus, datagramsOf, same]

/-- One datagram and then the others: sequence numbers and buffers run on. -/
theorem State.sendGroups_cons (s : State) (n : Nat) (groups : List (List SigFrame)) :
    (s.sendFront n).sendGroups groups = s.sendGroups ((s.rxq.content s.settings.rtrBit).take n :: groups) := by
  have seq : s.seq + 1 + BitVec.ofNat 8 groups.length = s.seq + BitVec.ofNat 8 (groups.length + 1) := by
    rw [BitVec.add_assoc, Nat.add_comm, BitVec.ofNat_add]
    rfl
  simpa [State.sendGroups, State.sendFront, State.plus, datagramsOf] using seq

/-- From `s` to `t` all frames of RXQ were sent, in greedy groups (42_encode.md R141; 44_scheduler.md R192). -/
def SendsAll (s t : State) : Prop :=
  ∃ groups, groups.flatten = s.rxq.content s.settings.rtrBit ∧ Greedy s.settings.mtuLimit.toNat groups ∧
    t = s.sendGroups groups

theorem SendsAll.of_empty {s : State} (ok : s.rxq.Ok s.settings.rtrBit) (empty : s.rxq.isEmpty = true) : SendsAll s s :=
  ⟨[], (Queue.content_empty _ ok.head_lt ok.tail_lt empty).symm, trivial, (State.sendGroups_nil empty).symm⟩

/-- The longest run that fits is the first group. -/
theorem SendsAll.of_sendFront {s t : State} (ok : s.rxq.Ok s.settings.rtrBit)
    (taken : (s.batchOf .rxq s.settings.mtuLimit.toNat).count ≠ 0)
    (later : SendsAll (s.sendFront (s.batchOf .rxq s.settings.mtuLimit.toNat).count) t) : SendsAll s t := by
  have spec := State.batchOf_spec (id := .rxq) ok s.settings.mtuLimit.toNat
  have fits := spec.fits.resolve_left taken
  have length := spec.length_taken
  obtain ⟨-, left, -⟩ := State.sendFront_rxq ok (limit := s.settings.mtuLimit.toNat)
  obtain ⟨groups, flat, greedy, rfl⟩ := later
  have flat := flat.trans left
  rw [spec.pos_eq_length ok] at fits
  refine ⟨_ :: groups, ?_, .cons ?_ fits ?_ greedy, State.sendGroups_cons _ _ _⟩
  · rw [List.flatten_cons, flat]
    exact List.take_append_drop _ _
  · intro nothing
    rw [nothing] at length
    exact taken length.symm
  · rw [flat]
    exact fun f rest => spec.next_does_not_fit ok

/-- FLUSH's loop with enough turns and buffers sends all of RXQ: each turn sends at least the frame at the head. -/
theorem State.flushLoop_sends_all {s : State} {fuel n : Nat} {bs : List Bool}
    (cooperative : s.settings.discipline = .cooperative) (ok : s.rxq.Ok s.settings.rtrBit)
    (live : 75 ≤ s.settings.mtuLimit.toNat) (answers : s.bufAvail = List.replicate n true ++ bs)
    (buffers : s.rxq.occ ≤ n) (turns : s.rxq.occ ≤ fuel) : SendsAll s (s.flushLoop fuel) := by
  have occ := Queue.isEmpty_iff ok.head_lt ok.tail_lt
  induction fuel generalizing s n with
  | zero => exact .of_empty ok (occ.2 (Nat.le_zero.1 turns))
  | succ fuel ih =>
    cases held : s.rxq.isEmpty with
    | true =>
      rw [State.flushLoop_of_empty held]
      exact .of_empty ok held
    | false =>
      have taken := State.batchOf_count_ne_zero ok live held
      obtain ⟨okLeft, -, fewer⟩ := State.sendFront_rxq ok (limit := s.settings.mtuLimit.toNat)
      obtain ⟨n, rfl⟩ : ∃ k, n = k + 1 := Nat.exists_eq_add_one.2 (by rw [held] at occ; simp at occ; omega)
      rw [State.flushLoop_sends ok cooperative held answers taken]
      refine .of_sendFront ok taken (ih (n := n) cooperative okLeft live ?_ (by omega) (by omega)
        (Queue.isEmpty_iff okLeft.head_lt okLeft.tail_lt))
      rw [State.sendFront, answers]
      rfl

/-- Settles O40: FLUSH has one turn more than RXQ has frames, so its loop sends all of them (`State.flushLoop_sends_all`). -/
theorem flushSendsEverything : Obligations.FlushSendsEverything := by
  intro s n bs ready cooperative ok live answers buffers
  obtain ⟨groups, flat, greedy, sends⟩ :=
    State.flushLoop_sends_all cooperative ok live answers buffers (Nat.le_succ _)
  refine ⟨_, groups, exec_flush ready, flat, greedy, ?_⟩
  rw [State.flushStep, sends]
  refine ⟨Queue.content_empty _ ok.tail_lt ok.tail_lt (beq_self_eq_true _), ?_⟩
  simp [State.sendGroups, State.plus]

end Sys2Proof.Machine
end

section
/-! TXSTEP and RXSTEP with a bus attached (44_scheduler.md R186, R187): O34, O35, O37, O38. -/

namespace Sys2Proof.Machine

/-! ## TXSTEP -/

/-- The Frame that TXSTEP offers: the oldest one of TXQ (44_scheduler.md R186). -/
def State.txFrame (s : State) : Frame := (s.txq.front s.settings.rtrBit).toFrame s.freeFrame

/-- The state in which TXSTEP has offered its frame and drawn the answer, before the boundary (44_scheduler.md R186). -/
def State.offered (s : State) : State :=
  s.drawn.drawAccepted.2.emit (.offer s.txFrame s.drawn.drawAccepted.1)

theorem State.txStep_offers {s : State} (bus : s.settings.busAttached = true) (held : s.txq.isEmpty = false) :
    s.txStep = s.offered.cutIn.takeIf s.drawn.drawAccepted.1 := by
  obtain ⟨-, -, offers⟩ := s.txStep_cases.resolve_left (by simp [bus, held])
  exact offers

theorem State.offered_txq (s : State) : s.offered.txq = s.txq := by
  rw [State.offered, State.emit_txq, State.drawAccepted_same]
  rfl

theorem State.offered_settings (s : State) : s.offered.settings = s.settings := by
  rw [State.offered, State.emit_settings, State.drawAccepted_same]
  rfl

theorem State.offered_events (s : State) :
    s.offered.events = s.events ++ [.offer s.txFrame s.drawn.drawAccepted.1] := by
  rw [State.offered, State.emit_events, State.drawAccepted_same]
  rfl

theorem State.takeIf_txq (s : State) (accepted : Bool) :
    (s.takeIf accepted).txq = if accepted then s.txq.pop else s.txq := by
  cases accepted <;> rfl

theorem State.takeIf_events (s : State) (accepted : Bool) : (s.takeIf accepted).events = s.events := by
  cases accepted <;> rfl

/-- The dequeue of an accepted frame takes the first of the content (41_queue.md R113). -/
theorem Queue.Ok.content_pop_if {rtr : Fin 32} {q : Queue} (ok : q.Ok rtr) {g : SigFrame} {rest : List SigFrame}
    (held : q.content rtr = g :: rest) (accepted : Bool) :
    (if accepted then q.pop else q).content rtr = if accepted then rest else g :: rest := by
  cases accepted with
  | false => exact held
  | true => exact (ok.of_content_cons held).2.2

/-- The Frame offered carries the significant fields of the first frame of TXQ. -/
theorem State.txFrame_sig {s : State} (ok : s.txq.Ok s.settings.rtrBit) {g : SigFrame} {rest : List SigFrame}
    (held : s.txq.content s.settings.rtrBit = g :: rest) : s.txFrame.sig s.settings.rtrBit = g := by
  obtain ⟨nonempty, rfl, -⟩ := ok.of_content_cons held
  exact SigFrame.toFrame_sig (ok.front_ok nonempty) _

/-- With an answer lined up and nothing cutting in, TXSTEP is the offer and the dequeue (44_scheduler.md R186). -/
theorem State.txStep_scripted {s : State} {a : Bool} {as : List Bool} (bus : s.settings.busAttached = true)
    (cooperative : s.settings.discipline = .cooperative) (held : s.txq.isEmpty = false) (answers : s.accepted = a :: as) :
    s.txStep = { s.plus [.offer s.txFrame a] with
      txq := if a then s.txq.pop else s.txq, accepted := as, draws := s.draws + 1 } := by
  have drawn : s.drawn.drawAccepted = (a, { s.drawn with accepted := as }) := by
    simp only [State.drawAccepted, State.drawn_accepted, answers]
  rw [State.txStep_offers bus held, State.cutIn_cooperative (by rw [State.offered_settings, cooperative]), State.offered,
    drawn]
  cases a <;> rfl

/-- Settles O34: `State.txStep_scripted` with the frame at `head` read as the first of the content. -/
theorem txStepDequeuesOnlyWhatIsAccepted : Obligations.TxStepDequeuesOnlyWhatIsAccepted := by
  intro s a as g rest ready bus cooperative ok held answers
  obtain ⟨nonempty, -, -⟩ := ok.of_content_cons held
  refine ⟨_, s.txFrame, exec_txstep ready, State.txFrame_sig ok held, ?_⟩
  rw [State.txStep_scripted bus cooperative nonempty answers]
  refine ⟨ok.content_pop_if held a, ?_⟩
  simp only [State.plus, List.append_assoc]
  rfl

/-- Settles O35: what cuts in after the offer keeps `head` and the frames held (`State.cutIn_netOnly`), so the dequeue takes
the frame offered. -/
theorem txStepTakesTheFrameItOffered : Obligations.TxStepTakesTheFrameItOffered := by
  intro s g rest ready bus ok held
  obtain ⟨nonempty, -, -⟩ := ok.of_content_cons held
  have cut := s.offered.cutIn_netOnly
  have okCut := cut.ok
  have added := cut.content
  rw [State.offered_settings, State.offered_txq] at okCut added
  obtain ⟨fs, content⟩ := added ok
  obtain ⟨es, put, -⟩ := cut.events
  have txq : (s.txStep.plus [.response .done]).txq =
      if s.drawn.drawAccepted.1 then s.offered.cutIn.txq.pop else s.offered.cutIn.txq := by
    rw [State.txStep_offers bus nonempty]
    exact State.takeIf_txq _ _
  refine ⟨_, s.txFrame, s.drawn.drawAccepted.1, fs, exec_txstep ready, State.txFrame_sig ok held, ?offer, ?content, ?head⟩
  case offer =>
    simp [State.plus, State.txStep_offers bus nonempty, State.takeIf_events, put, State.offered_events]
  case content =>
    rw [txq, (okCut ok).content_pop_if (content.trans (congrArg (· ++ fs) held))]
    cases s.drawn.drawAccepted.1 <;> rfl
  case head =>
    have kept : s.offered.cutIn.txq.pop.head = (s.txq.head + 1) % s.txq.size := by
      rw [Queue.pop_head, Queue.next, cut.head, cut.size, State.offered_txq]
    rw [txq]
    cases s.drawn.drawAccepted.1 with
    | true => exact kept
    | false => exact cut.head.trans (congrArg Queue.head s.offered_txq)

/-! ## RXSTEP -/

/-- A queue after some frames were enqueued in their order (44_scheduler.md R187). -/
def Queue.enqueueAll (rtr : Fin 32) (q : Queue) (fs : List Frame) : Queue := fs.foldl (fun q f => (q.enqueue rtr f).2) q

/-- With nothing cutting in, RXSTEP's loop changes RXQ only, by the enqueues of its frames. -/
theorem State.enqueueAll_cooperative {s : State} (cooperative : s.settings.discipline = .cooperative) (fs : List Frame) :
    s.enqueueAll fs = { s with rxq := s.rxq.enqueueAll s.settings.rtrBit fs } := by
  induction fs generalizing s with
  | nil => rfl
  | cons f fs ih =>
    rw [State.enqueueAll_cons cooperative, ih (by exact cooperative)]
    rfl

/-- An ill-formed frame is no enqueue at all (41_queue.md R112). -/
theorem Queue.enqueueAll_filter_wf (rtr : Fin 32) (q : Queue) (fs : List Frame) :
    q.enqueueAll rtr (fs.filter Frame.wf) = q.enqueueAll rtr fs := by
  induction fs generalizing q with
  | nil => rfl
  | cons f fs ih =>
    rcases Queue.enqueue_cases rtr q f with ⟨bad, e⟩ | ⟨good, -⟩
    · rw [List.filter_cons_of_neg (by rw [bad]; exact Bool.false_ne_true), ih]
      show _ = (q.enqueue rtr f).2.enqueueAll rtr fs
      rw [e]
    · rw [List.filter_cons_of_pos good]
      exact ih _

theorem State.rxStep_scripted {s : State} {fs : List Frame} {fss : List (List Frame)}
    (bus : s.settings.busAttached = true) (frames : s.busFrames = fs :: fss) :
    s.rxStep = ({ s.plus [.polled fs] with busFrames := fss } : State).enqueueAll fs := by
  have drawn : s.drawBusFrames = (fs, { s with busFrames := fss }) := by simp only [State.drawBusFrames, frames]
  simp only [State.rxStep, bus, Bool.not_true, Bool.false_eq_true, if_false, drawn]
  rfl

/-- RXSTEP with frames lined up and nothing cutting in: the poll, and the enqueues into RXQ (44_scheduler.md R187). -/
theorem exec_rxstep_cooperative {s : State} {fs : List Frame} {fss : List (List Frame)} (ready : s.ready = true)
    (bus : s.settings.busAttached = true) (cooperative : s.settings.discipline = .cooperative)
    (frames : s.busFrames = fs :: fss) :
    exec .rxstep s = .next { s.plus [.polled fs, .response .done] with
      rxq := s.rxq.enqueueAll s.settings.rtrBit fs, busFrames := fss } := by
  rw [exec_rxstep ready, State.rxStep_scripted bus frames, State.enqueueAll_cooperative (by exact cooperative)]
  simp [State.plus]

/-- Settles O38: the ill-formed frames are no enqueues (`Queue.enqueueAll_filter_wf`). -/
theorem rxStepSkipsBadFrames : Obligations.RxStepSkipsBadFrames := by
  intro s fs fss ready bus cooperative frames
  exact ⟨_, _, exec_rxstep_cooperative ready bus cooperative frames,
    exec_rxstep_cooperative (s := { s with busFrames := fs.filter Frame.wf :: fss }) ready bus cooperative rfl,
    (Queue.enqueueAll_filter_wf s.settings.rtrBit s.rxq fs).symm, rfl⟩

/-- Settles O37: `State.enqueueAll_wf` says what the loop makes of RXQ whatever cuts in, `State.enqueueAll_spec` what it
keeps. -/
theorem rxStepFillsThenDrops : Obligations.RxStepFillsThenDrops := by
  intro s fs fss ready bus ok frames wf room
  have loop := State.enqueueAll_spec { s.plus [.polled fs] with busFrames := fss } fs
  obtain ⟨content, drop⟩ := State.enqueueAll_wf fs { s.plus [.polled fs] with busFrames := fss } ok wf
  obtain ⟨es, put, -⟩ := loop.net.events
  refine ⟨_, exec_rxstep ready, ?_⟩
  rw [State.rxStep_scripted bus frames]
  refine ⟨content, drop, loop.head, ?poll, fun cooperative => ?frame⟩
  case poll =>
    simp only [State.plus] at put ⊢
    simp [put]
  case frame =>
    rw [State.enqueueAll_cooperative (by exact cooperative)]
    simp [State.plus]

end Sys2Proof.Machine
end

section
/-! TICK under `cooperative` (44_scheduler.md R189; 30_encoding.md R88): O43. -/

namespace Sys2Proof.Machine

/-- The state without the `Ok` answers that carry no result and without `PHASE`: what the steps of a tick and the three
commands agree on. -/
def State.bare (s : State) : State := { s.quiet with phase := .tx }

theorem State.bare_done (s : State) : (s.plus [.response .done]).bare = s.bare := by
  simp [State.bare, State.quiet, State.plus]

theorem State.bare_advance (s : State) : s.advance.bare = s.bare := rfl

theorem State.quiet_eq_of_bare_eq {s t : State} (bare : t.bare = s.bare) (phase : t.phase = s.phase) :
    t.quiet = s.quiet := by
  have restored (u : State) : u.quiet = { u.bare with phase := u.phase } := rfl
  rw [restored, restored s, bare, phase]

/-- A step that reads neither the events nor `PHASE` takes states that agree but for these to such states. -/
theorem State.bare_congr {F : State → State}
    (unread : ∀ {b : State}, b.settings.discipline = .cooperative → ∀ es p, F (b.dress es p) = (F b).dress es p)
    {s t : State} (cooperative : s.settings.discipline = .cooperative) (bare : t.bare = s.bare) :
    (F t).bare = (F s).bare := by
  have dressed (u : State) : u = { u with events := [], phase := .tx }.dress u.events u.phase := by simp [State.dress]
  have undressed : ({ t with events := [], phase := .tx } : State) = { s with events := [], phase := .tx } :=
    congrArg (fun u : State => { u with events := [] }) bare
  have shown := congrArg State.events bare
  simp only [State.bare, State.quiet] at shown
  rw [dressed t, dressed s, undressed, unread (by exact cooperative), unread (by exact cooperative)]
  simp only [State.bare, State.quiet, State.dress, List.filter_append, shown]

/-- With nothing cutting in, a tick is its three steps, `PHASE` moving on after each. -/
theorem State.tickStep_cooperative {s : State} (cooperative : s.settings.discipline = .cooperative) :
    s.tickStep = s.txStep.advance.rxStep.advance.flushStep.advance := by
  have tx := s.txStep_kept.settings
  have rx := s.txStep.advance.rxStep_kept.settings
  rw [State.tickStep, State.cutIn_cooperative (s := s.txStep) (by rw [tx, cooperative]),
    State.cutIn_cooperative (by rw [rx, State.advance_settings, tx, cooperative])]

/-- A step of the tick, after which `PHASE` moves on, and the command of that step, which answers. -/
theorem State.bare_command {F : State → State}
    (unread : ∀ {b : State}, b.settings.discipline = .cooperative → ∀ es p, F (b.dress es p) = (F b).dress es p)
    {s t : State} (cooperative : s.settings.discipline = .cooperative) (bare : t.bare = s.bare) :
    ((F t).plus [.response .done]).bare = (F s).advance.bare := by
  rw [State.bare_done, State.bare_advance, State.bare_congr unread cooperative bare]

/-- Settles O43: the answers and the moves of `PHASE` between the steps are not read by the steps (`State.bare_congr`). -/
theorem tickIsItsThreeSteps : Obligations.TickIsItsThreeSteps := by
  intro s ready cooperative
  have setTx : s.txStep.advance.settings = s.settings := s.txStep_kept.settings
  have setRx : s.txStep.advance.rxStep.advance.settings = s.settings := (State.rxStep_kept _).settings.trans setTx
  have tx : (s.txStep.plus [.response .done]).bare = s.txStep.advance.bare := s.txStep.bare_done
  have rx := State.bare_command State.rxStep_dress (by rw [setTx, cooperative]) tx
  have flush := State.bare_command State.flushStep_dress (by rw [setRx, cooperative]) rx
  rw [← State.tickStep_cooperative cooperative] at flush
  obtain ⟨es, put, -⟩ := s.tickStep_kept.events
  refine ⟨_, _, _, _, exec_tick ready, exec_txstep ready, exec_rxstep ?readyTx, exec_flush ?readyRx, ?quiet,
    s.tickStep_phase, es, congrArg (· ++ [Event.response .done]) put⟩
  case readyTx => exact s.txStep_kept.ready.trans ready
  case readyRx => exact (State.rxStep_kept _).ready.trans (s.txStep_kept.ready.trans ready)
  case quiet =>
    have rxPhase := (s.txStep.plus [.response .done]).rxStep_phase
    have flushPhase := ((s.txStep.plus [.response .done]).rxStep.plus [.response .done]).flushLoop_phase
    refine State.quiet_eq_of_bare_eq (by rw [flush, State.bare_done]) (s.tickStep_phase.trans ?_)
    exact (((flushPhase _).trans rxPhase).trans s.txStep_phase).symm

end Sys2Proof.Machine
end

section
/-! The statuses that a step tells of (60_exceptions.md R201, R211, R212): the scheduler surfaces none but its own `Ok` (O59),
and the strict step classes them (O54). -/

namespace Sys2Proof.Machine

/-! ## The scheduler -/

/-- Settles O59: what a step of the scheduler puts out before its own `Ok` answers only for DECODEs that cut in (`Kept`). -/
theorem tickStepsSurfaceNoStatus : Obligations.TickStepsSurfaceNoStatus := by
  intro s i ready hi
  obtain ⟨u, runs, kept, -⟩ := exec_scheduler ready hi
  obtain ⟨es, put, onlyDecodes, onlyShared⟩ := kept.events
  exact ⟨_, es, runs, congrArg (· ++ [Event.response .done]) put, fun r hr => ⟨onlyShared r hr, onlyDecodes r hr⟩⟩

/-! ## The strict step -/

/-- Two statuses are not normal outcomes (60_exceptions.md R211). -/
theorem statusClass_eq_normal_iff {st : Status} : statusClass st = .normal ↔ st ≠ .badFrame ∧ st ≠ .illegalCommand := by
  cases st <;> decide

theorem forall_mem_statusClass_normal_iff {sts : List Status} :
    (∀ st ∈ sts, statusClass st = .normal) ↔ Status.badFrame ∉ sts ∧ Status.illegalCommand ∉ sts := by
  simp only [statusClass_eq_normal_iff, forall_and]
  exact and_congr List.forall_mem_ne' List.forall_mem_ne'

theorem strictStep_of_next {s t : State} (next : step s = .next t) : strictStep s =
    if Status.badFrame ∈ newStatuses s t then .fault .badFrame
    else if Status.illegalCommand ∈ newStatuses s t then .refused .illegalCommand
    else .next t := by
  rw [strictStep, next]

/-- Settles O54: by which of the two statuses that are not normal was told of, `BadFrame` first. -/
theorem strictStepClassesTheStatuses : Obligations.StrictStepClassesTheStatuses := by
  intro s t next
  rw [strictStep_of_next next, forall_mem_statusClass_normal_iff]
  by_cases bad : Status.badFrame ∈ newStatuses s t
  · simp [bad]
  · by_cases illegal : Status.illegalCommand ∈ newStatuses s t <;> simp [bad, illegal]

end Sys2Proof.Machine
end

section
/-! A frame over the limit at the head of RXQ (O42), what INIT refuses (O47) and leaves (O60), and the commands before the first
INIT (O48): 70_reset_and_hazards.md R230 to R243. -/

namespace Sys2Proof.Machine

/-! ## A head frame over the limit -/

/-- The loop of ENCODE takes no frame where the first one does not fit (42_encode.md R134). -/
theorem Batch.Spec.count_eq_zero {rtr : Fin 32} {limit pos : Nat} {q : Queue} {b : Batch}
    (spec : b.Spec rtr limit pos q) (ok : q.Ok rtr) {f : SigFrame} {rest : List SigFrame}
    (front : q.content rtr = f :: rest) (long : limit < pos + f.record.length) : b.count = 0 := by
  by_contra taken
  have fits := spec.fits.resolve_left taken
  obtain ⟨n, count⟩ := Nat.exists_eq_succ_of_ne_zero taken
  rw [spec.pos_eq_length ok, front, count, List.take_succ_cons, recordsOf, List.flatMap_cons, List.length_append] at fits
  omega

/-- FLUSH's loop ends with a buffer drawn and nothing sent where ENCODE takes no frame (44_scheduler.md R188). -/
theorem State.flushLoop_of_no_batch {s : State} {bs : List Bool} (held : s.rxq.isEmpty = false)
    (answers : s.bufAvail = true :: bs) (nothing : (s.batchOf .rxq s.settings.mtuLimit.toNat).count = 0) (fuel : Nat) :
    s.flushLoop (fuel + 1) = { s with bufAvail := bs } := by
  obtain ⟨-, same⟩ := (State.encode_cases { s with bufAvail := bs } .rxq s.settings.mtuLimit.toNat).resolve_right
    fun taken => taken.1 nothing
  simp only [State.flushLoop, held, State.drawBufAvail_of_cons answers, Bool.false_eq_true, if_false, Bool.not_true, same,
    if_true]

/-- Settles O42: ENCODE takes no frame, so FLUSH's loop ends in its first turn. -/
theorem oversizeHeadBlocksFlush : Obligations.OversizeHeadBlocksFlush := by
  intro s f rest bs ready ok front long answers
  obtain ⟨held, -, -⟩ := ok.of_content_cons front
  have nothing := (State.batchOf_spec (id := .rxq) ok s.settings.mtuLimit.toNat).count_eq_zero ok front long
  rw [exec_flush ready, State.flushStep, State.flushLoop_of_no_batch held answers nothing]
  rfl

/-! ## INIT -/

theorem exec_init_of_session {s : State} {d : Session} (c : InitOperand) (operating : s.session = some d) :
    exec (.init c) s = .refused .initDuringOperation := by
  show execInit c s = _
  simp [execInit, operating]

theorem legalConfig_eq_false_iff {c : InitOperand} : legalConfig c = false ↔ c.nRx.toNat < 2 ∨ c.nTx.toNat < 2 := by
  rw [legalConfig, Bool.and_eq_false_iff, decide_eq_false_iff_not, decide_eq_false_iff_not, not_le, not_le]

theorem exec_init_of_illegal {s : State} {c : InitOperand} (idle : s.session = none) (illegal : legalConfig c = false) :
    exec (.init c) s = .refused .badConfiguration := by
  show execInit c s = _
  simp [execInit, idle, illegal]

/-- Settles O47: an open DECODE is tested first, then the capacities. -/
theorem initRefusesWhatTheSpecDoes : Obligations.InitRefusesWhatTheSpecDoes := by
  intro s c
  exact ⟨fun _ => exec_init_of_session c, fun idle small => exec_init_of_illegal idle (legalConfig_eq_false_iff.2 small)⟩

/-- Settles O60: the next state of INIT is `State.initWith` and its answer, and `State.initWith` replaces no other field. -/
theorem initKeepsThePorts : Obligations.InitKeepsThePorts := by
  intro s c idle legalRx legalTx
  exact ⟨_, exec_init_eq_next_iff.2 ⟨idle, legalRx, legalTx, rfl⟩, rfl⟩

/-! ## Before the first INIT -/

/-- Every command on the block's state asks first whether an INIT has been done (70_reset_and_hazards.md R231). -/
theorem exec_of_needsInit {i : Instr} (s : State) (needs : needsInit i = true) : ∃ r, exec i s = s.whenReady r := by
  cases i with
  | enq | deq | peek | stat => exact ⟨_, rfl⟩
  | encode | decode => exact ⟨_, rfl⟩
  | txstep | rxstep | flush | tick | rdcnt => exact ⟨_, rfl⟩
  | _ => cases needs

/-- Settles O48: `exec_of_needsInit` names the test, and it fails. -/
theorem commandsBeforeInitAreRefused : Obligations.CommandsBeforeInitAreRefused := by
  intro s i notReady needs
  obtain ⟨r, e⟩ := exec_of_needsInit s needs
  rw [e, State.whenReady_notReady notReady]

end Sys2Proof.Machine
end
